-- ==== Sys2Proof/Word.lean ====
section
/-! DEFINITION. The two word types of the machine: the 32-bit word of the register bus, the scratch
registers and the program store (spec 10_state.md R19, R20, R25), and the 16-bit word of the two FIFOs
(10_state.md R37). All values are unsigned (00_scope.md R13). -/

namespace Sys2Proof

/-- A 32-bit word: a register-bus transfer, a scratch register, a program word. -/
abbrev Word := BitVec 32

/-- A 16-bit FIFO word (`FIFO_WORD`, 00_scope.md R11). -/
abbrev Half := BitVec 16

end Sys2Proof
end

