-- ==== Sys2Proof/Syntax.lean ====
section
/-! DEFINITION. The operations: one constructor of `Instr` for each row of spec/opcode_table.json, the 21 host
operations of 30_encoding.md R60 and the two MCP3208 wire words of R202 and R203. -/

namespace Sys2Proof

/-- The index of a scratch register `H[0]` to `H[7]` (10_state.md R19). -/
abbrev HIdx := Fin 8

/-- A byte offset into the block's register window (20_memory.md R41, 30_encoding.md R59). -/
abbrev Offset := BitVec 12

/-- The function of the select pin (10_state.md R18, R23). -/
inductive SelFn where
  | gpio
  | periph
deriving DecidableEq, Repr

/-- The bit order a `CONFIG` requests: `ORD` 0 or 1 (30_encoding.md R59). -/
inductive BitOrder where
  | msbFirst
  | lsbFirst
deriving DecidableEq, Repr

/-- The operations of 30_encoding.md R60 (formats of R57, unused fields of R58), then the two MCP3208 command
words of R202 and R203, which are not host operations: they are words the Engine sends to the device. -/
inductive Instr where
  /-- `RD hD, OFF` (40_register_access.md R64). -/
  | rd (d : HIdx) (off : Offset)
  /-- `WR OFF, hA` (R65). -/
  | wr (off : Offset) (a : HIdx)
  /-- `RDM hD, OFF, hB` (R66). -/
  | rdm (d : HIdx) (off : Offset) (b : HIdx)
  /-- `WRM OFF, hA, hB` (R67): value, mask. -/
  | wrm (off : Offset) (a b : HIdx)
  /-- `WAIT OFF, hA, hB` (R68): expected value, mask. -/
  | wait (off : Offset) (a b : HIdx)
  /-- `LI hD, imm32` (R69), two words. -/
  | li (d : HIdx) (imm : Word)
  /-- `RSTA` (41_platform_ports.md R83). -/
  | rsta
  /-- `RSTR` (R84). -/
  | rstr
  /-- `RSTW` (R85). -/
  | rstw
  /-- `SELL` (R87). -/
  | sell
  /-- `SELH` (R88). -/
  | selh
  /-- `SELFN GPIO|PERIPH` (R89). -/
  | selfn (f : SelFn)
  /-- `DELAY n` (R90). -/
  | delay (n : BitVec 16)
  /-- `HALT` (R92). -/
  | halt
  /-- `ENCW hD, hA` (43_codec.md R124). -/
  | encw (d a : HIdx)
  /-- `ENCN hD, hA` (R125). -/
  | encn (d a : HIdx)
  /-- `DECW hD, hA, hB` (R126). -/
  | decw (d a b : HIdx)
  /-- `DECN hD, hA` (R127). -/
  | decn (d a : HIdx)
  /-- `CONFIG hD, hA, bus, mode, order, width` (44_operations.md R133). -/
  | config (d a : HIdx) (bus mode : BitVec 2) (ord : BitOrder) (wid : BitVec 5)
  /-- `XFER hD, hA, N` (R139). -/
  | xfer (d a : HIdx) (n : BitVec 4)
  /-- `READCH hD, hA` (R142). -/
  | readch (d a : HIdx)
  /-- The wide-word MCP3208 command word for a channel (30_encoding.md R202). -/
  | mcpCmdWide (ch : BitVec 3)
  /-- The narrow-word MCP3208 command word for a channel (30_encoding.md R203). -/
  | mcpCmdNarrow (ch : BitVec 3)
deriving DecidableEq, Repr

/-- The pseudo-instruction `NOP` (30_encoding.md R201). -/
def Instr.nop : Instr := .delay 0

/-- The pseudo-instruction `CSSEL k`: select-assert with its settling delays (30_encoding.md R201). -/
def Instr.cssel (k : BitVec 16) : List Instr := [.delay k, .sell, .delay k]

/-- The pseudo-instruction `CSDESEL k`: select-deassert with its settling delays (30_encoding.md R201). -/
def Instr.csdesel (k : BitVec 16) : List Instr := [.delay k, .selh, .delay k]

/-- The host operations: every row of the opcode table but the two wire words. -/
def Instr.isHostOp : Instr → Bool
  | .rd _ _ => true
  | .wr _ _ => true
  | .rdm _ _ _ => true
  | .wrm _ _ _ => true
  | .wait _ _ _ => true
  | .li _ _ => true
  | .rsta => true
  | .rstr => true
  | .rstw => true
  | .sell => true
  | .selh => true
  | .selfn _ => true
  | .delay _ => true
  | .halt => true
  | .encw _ _ => true
  | .encn _ _ => true
  | .decw _ _ _ => true
  | .decn _ _ => true
  | .config _ _ _ _ _ _ => true
  | .xfer _ _ _ => true
  | .readch _ _ => true
  | .mcpCmdWide _ => false
  | .mcpCmdNarrow _ => false

/-- The length of an operation in program words (10_state.md R20, 30_encoding.md R61). -/
def Instr.length : Instr → Nat
  | .rd _ _ => 1
  | .wr _ _ => 1
  | .rdm _ _ _ => 1
  | .wrm _ _ _ => 1
  | .wait _ _ _ => 1
  | .li _ _ => 2
  | .rsta => 1
  | .rstr => 1
  | .rstw => 1
  | .sell => 1
  | .selh => 1
  | .selfn _ => 1
  | .delay _ => 1
  | .halt => 1
  | .encw _ _ => 1
  | .encn _ _ => 1
  | .decw _ _ _ => 1
  | .decn _ _ => 1
  | .config _ _ _ _ _ _ => 1
  | .xfer _ _ _ => 1
  | .readch _ _ => 1
  | .mcpCmdWide _ => 1
  | .mcpCmdNarrow _ => 1

end Sys2Proof
end

