-- ==== Sys2Proof/WellFormed.lean ====
section
/-! DEFINITION. The one legality condition of an operation that the types of its fields do not already carry:
`XFER`'s count and register ranges (30_encoding.md R62). Every other field value is encodable on purpose and is
judged at execution (30_encoding.md R59). -/

namespace Sys2Proof

/-- `XFER` is legal only if `1 ≤ N ≤ 8`, `A + N ≤ 8` and `D + N ≤ 8` (30_encoding.md R62). -/
def xferLegal (d a : HIdx) (n : BitVec 4) : Bool :=
  1 ≤ n.toNat && n.toNat ≤ 8 && a.val + n.toNat ≤ 8 && d.val + n.toNat ≤ 8

/-- The legality check of an operation. -/
def Instr.wellFormed : Instr → Bool
  | .xfer d a n => xferLegal d a n
  | .rd _ _ => true
  | .wr _ _ => true
  | .rdm _ _ _ => true
  | .wrm _ _ _ => true
  | .wait _ _ _ => true
  | .li _ _ => true
  | .rsta => true
  | .rstr => true
  | .rstw => true
  | .sell => true
  | .selh => true
  | .selfn _ => true
  | .delay _ => true
  | .halt => true
  | .encw _ _ => true
  | .encn _ _ => true
  | .decw _ _ _ => true
  | .decn _ _ => true
  | .config _ _ _ _ _ _ => true
  | .readch _ _ => true
  | .mcpCmdWide _ => true
  | .mcpCmdNarrow _ => true

/-- An operation is well-formed when its check holds. -/
abbrev Instr.WellFormed (i : Instr) : Prop := i.wellFormed = true

end Sys2Proof
end

