-- ==== Sys2Proof/Decode.lean ====
section
/-! DEFINITION. The decoder, total on any words and rejecting by name (30_encoding.md R56 to R63), the reader of
the two MCP3208 wire words (R202, R203), and after them the encoder, written from the same format table. -/

namespace Sys2Proof

/-- Why a word or a program position holds no operation. -/
inductive Reject where
  /-- There is no program word at this index (41_platform_ports.md R93). -/
  | noWord
  /-- An `LI` is the program's last word (40_register_access.md R69). -/
  | missingImmediate
  /-- The operation code is reserved (30_encoding.md R60, R63). -/
  | reservedOpcode
  /-- A must-be-zero bit of the format is 1 (30_encoding.md R57, R58, R63). -/
  | mustBeZero
  /-- An `XFER` that fails 30_encoding.md R62. -/
  | illegalXferCount
  /-- The word is neither of the two MCP3208 command words. -/
  | notWireWord
deriving DecidableEq, Repr

/-- A row of the opcode map: a word `w` is this operation iff `w &&& mask = value` (30_encoding.md R60). -/
structure Row where
  value : Word
  mask : Word
deriving DecidableEq, Repr

/-- The match test of 30_encoding.md R60. -/
def Row.admits (r : Row) (w : Word) : Bool := w &&& r.mask == r.value

/-- The row of an operation in 30_encoding.md R60 (and, for the wire words, in spec/opcode_table.json). -/
def Instr.row : Instr → Row
  | .rd _ _ => ⟨0x04000000, 0xFC7FF000⟩
  | .wr _ _ => ⟨0x08000000, 0xFF8FF000⟩
  | .rdm _ _ _ => ⟨0x0C000000, 0xFC71F000⟩
  | .wrm _ _ _ => ⟨0x10000000, 0xFF81F000⟩
  | .wait _ _ _ => ⟨0x14000000, 0xFF81F000⟩
  | .li _ _ => ⟨0x18000000, 0xFC7FFFFF⟩
  | .rsta => ⟨0x20000000, 0xFFFFFFFF⟩
  | .rstr => ⟨0x24000000, 0xFFFFFFFF⟩
  | .rstw => ⟨0x28000000, 0xFFFFFFFF⟩
  | .sell => ⟨0x2C000000, 0xFFFFFFFF⟩
  | .selh => ⟨0x30000000, 0xFFFFFFFF⟩
  | .selfn _ => ⟨0x34000000, 0xFFFFFFFE⟩
  | .delay _ => ⟨0x38000000, 0xFFFF0000⟩
  | .halt => ⟨0x3C000000, 0xFFFFFFFF⟩
  | .encw _ _ => ⟨0x40000000, 0xFC0FFFFF⟩
  | .encn _ _ => ⟨0x44000000, 0xFC0FFFFF⟩
  | .decw _ _ _ => ⟨0x48000000, 0xFC01FFFF⟩
  | .decn _ _ => ⟨0x4C000000, 0xFC0FFFFF⟩
  | .config _ _ _ _ _ _ => ⟨0x60000000, 0xFC0003FF⟩
  | .xfer _ _ _ => ⟨0x64000000, 0xFC00FFFF⟩
  | .readch _ _ => ⟨0x68000000, 0xFC0FFFFF⟩
  | .mcpCmdWide _ => ⟨0x00000180, 0xFFFFFF8F⟩
  | .mcpCmdNarrow _ => ⟨0x00000030, 0xFFFFFFF1⟩

/-- The operation code, bits 31:26 (30_encoding.md R57). -/
def opcField (w : Word) : BitVec 6 := w.extractLsb' 26 6

/-- Field `D`, bits 25:23 (30_encoding.md R57). -/
def dField (w : Word) : HIdx := (w.extractLsb' 23 3).toFin

/-- Field `A`, bits 22:20. -/
def aField (w : Word) : HIdx := (w.extractLsb' 20 3).toFin

/-- Field `B`, bits 19:17. -/
def bField (w : Word) : HIdx := (w.extractLsb' 17 3).toFin

/-- Field `OFF`, bits 11:0. -/
def offField (w : Word) : Offset := w.extractLsb' 0 12

/-- Field `IMM16`, bits 15:0. -/
def imm16Field (w : Word) : BitVec 16 := w.extractLsb' 0 16

/-- Field `S`, bit 0, as a select-pin function (30_encoding.md R59). -/
def selField (w : Word) : SelFn := if w.getLsbD 0 then .periph else .gpio

/-- Field `ORD`, bit 15, as a bit order (30_encoding.md R59). -/
def ordField (w : Word) : BitOrder := if w.getLsbD 15 then .lsbFirst else .msbFirst

/-- The operation `i`, if the word that holds its operation code has 0 in every must-be-zero bit of its row. -/
def acceptRow (w : Word) (i : Instr) : Except Reject Instr :=
  if i.row.admits w then .ok i else .error .mustBeZero

/-- `XFER` has the further legality condition of 30_encoding.md R62. -/
def acceptXfer (w : Word) (d a : HIdx) (n : BitVec 4) : Except Reject Instr :=
  match acceptRow w (.xfer d a n) with
  | .error e => .error e
  | .ok i => if xferLegal d a n then .ok i else .error .illegalXferCount

/-- Decode a one-word host operation (30_encoding.md R60). `LI` (operation code 0x06) is `decode`'s, which has
the immediate word. -/
def decodeWord (w : Word) : Except Reject Instr :=
  match (opcField w).toNat with
  | 0x01 => acceptRow w (.rd (dField w) (offField w))
  | 0x02 => acceptRow w (.wr (offField w) (aField w))
  | 0x03 => acceptRow w (.rdm (dField w) (offField w) (bField w))
  | 0x04 => acceptRow w (.wrm (offField w) (aField w) (bField w))
  | 0x05 => acceptRow w (.wait (offField w) (aField w) (bField w))
  | 0x08 => acceptRow w .rsta
  | 0x09 => acceptRow w .rstr
  | 0x0A => acceptRow w .rstw
  | 0x0B => acceptRow w .sell
  | 0x0C => acceptRow w .selh
  | 0x0D => acceptRow w (.selfn (selField w))
  | 0x0E => acceptRow w (.delay (imm16Field w))
  | 0x0F => acceptRow w .halt
  | 0x10 => acceptRow w (.encw (dField w) (aField w))
  | 0x11 => acceptRow w (.encn (dField w) (aField w))
  | 0x12 => acceptRow w (.decw (dField w) (aField w) (bField w))
  | 0x13 => acceptRow w (.decn (dField w) (aField w))
  | 0x18 => acceptRow w (.config (dField w) (aField w) (w.extractLsb' 18 2) (w.extractLsb' 16 2) (ordField w) (w.extractLsb' 10 5))
  | 0x19 => acceptXfer w (dField w) (aField w) (w.extractLsb' 16 4)
  | 0x1A => acceptRow w (.readch (dField w) (aField w))
  | _ => .error .reservedOpcode

/-- Decode the operation that begins a list of program words, and the words after it. The length is told from the
operation code alone: `LI` takes two words, every other operation one (30_encoding.md R61). -/
def decode : List Word → Except Reject (Instr × List Word)
  | [] => .error .noWord
  | w :: rest =>
    if opcField w = 0x06 then
      match acceptRow w (.li (dField w) 0), rest with
      | .error e, _ => .error e
      | .ok _, [] => .error .missingImmediate
      | .ok _, imm :: rest' => .ok (.li (dField w) imm, rest')
    else
      match decodeWord w with
      | .error e => .error e
      | .ok i => .ok (i, rest)

/-- Read a word as one of the two MCP3208 command words (30_encoding.md R202, R203). As a host operation either is
an illegal word, since operation code 0x00 is reserved (R63); they are words of the serial wire. -/
def decodeWire (w : Word) : Except Reject Instr :=
  if (Instr.mcpCmdWide (w.extractLsb' 4 3)).row.admits w then .ok (.mcpCmdWide (w.extractLsb' 4 3))
  else if (Instr.mcpCmdNarrow (w.extractLsb' 1 3)).row.admits w then .ok (.mcpCmdNarrow (w.extractLsb' 1 3))
  else .error .notWireWord

/-- The two program words of a table word: its bits above `nbits` are 0, bit 0 is the least significant bit of
the first word. -/
def tableWords (nbits w : Nat) : List Word :=
  [BitVec.ofNat 32 (w % 2 ^ nbits), BitVec.ofNat 32 (w % 2 ^ nbits / 2 ^ 32)]

/-- The instruction of a table word: a host operation, or else a wire word. -/
def decodeTableWord (nbits w : Nat) : Option Instr :=
  match decode (tableWords nbits w) with
  | .ok (i, _) => some i
  | .error _ =>
    match decodeWire (BitVec.ofNat 32 (w % 2 ^ nbits)) with
    | .ok i => some i
    | .error _ => none

/-- A scratch register's 3-bit index field (30_encoding.md R59). -/
def hBits (i : HIdx) : BitVec 3 := BitVec.ofFin i

/-- A field placed with its least significant bit at bit `lo` of a word. -/
def fieldAt (lo : Nat) {n : Nat} (v : BitVec n) : Word := v.setWidth 32 <<< lo

/-- Format R: `OPC[31:26] D[25:23] A[22:20] B[19:17] 0[16:12] OFF[11:0]` (30_encoding.md R57). -/
def formatR (opc : BitVec 6) (d a b : BitVec 3) (off : Offset) : Word :=
  fieldAt 26 opc ||| fieldAt 23 d ||| fieldAt 20 a ||| fieldAt 17 b ||| fieldAt 0 off

/-- The first word of format I: `OPC[31:26] D[25:23] 0[22:0]`. -/
def formatI (opc : BitVec 6) (d : BitVec 3) : Word := fieldAt 26 opc ||| fieldAt 23 d

/-- Format P: `OPC[31:26] 0[25:16] IMM16[15:0]`. -/
def formatP (opc : BitVec 6) (imm : BitVec 16) : Word := fieldAt 26 opc ||| fieldAt 0 imm

/-- Format C: `OPC[31:26] D[25:23] A[22:20] B[19:17] 0[16:0]`. -/
def formatC (opc : BitVec 6) (d a b : BitVec 3) : Word :=
  fieldAt 26 opc ||| fieldAt 23 d ||| fieldAt 20 a ||| fieldAt 17 b

/-- Format G: `OPC[31:26] D[25:23] A[22:20] BUS[19:18] MODE[17:16] ORD[15] WID[14:10] 0[9:0]`. -/
def formatG (opc : BitVec 6) (d a : BitVec 3) (bus mode : BitVec 2) (ord : BitVec 1) (wid : BitVec 5) : Word :=
  fieldAt 26 opc ||| fieldAt 23 d ||| fieldAt 20 a ||| fieldAt 18 bus ||| fieldAt 16 mode ||| fieldAt 15 ord
    ||| fieldAt 10 wid

/-- Format X: `OPC[31:26] D[25:23] A[22:20] N[19:16] 0[15:0]`. -/
def formatX (opc : BitVec 6) (d a : BitVec 3) (n : BitVec 4) : Word :=
  fieldAt 26 opc ||| fieldAt 23 d ||| fieldAt 20 a ||| fieldAt 16 n

/-- Format Q: `OPC[31:26] D[25:23] A[22:20] 0[19:0]`. -/
def formatQ (opc : BitVec 6) (d a : BitVec 3) : Word := fieldAt 26 opc ||| fieldAt 23 d ||| fieldAt 20 a

/-- The wide-word command as a 10-bit field: `0 1 1 c c c 0 0 0 0` (30_encoding.md R202). -/
def formatWide (ch : BitVec 3) : Word := fieldAt 8 1#1 ||| fieldAt 7 1#1 ||| fieldAt 4 ch

/-- The narrow-word command as a 12-bit field: `0 0 0 0 0 0 1 1 c c c 0` (30_encoding.md R203). -/
def formatNarrow (ch : BitVec 3) : Word := fieldAt 5 1#1 ||| fieldAt 4 1#1 ||| fieldAt 1 ch

/-- Field `S` of `SELFN` (30_encoding.md R59). -/
def selBits : SelFn → BitVec 16
  | .gpio => 0
  | .periph => 1

/-- Field `ORD` of `CONFIG` (30_encoding.md R59). -/
def ordBits : BitOrder → BitVec 1
  | .msbFirst => 0
  | .lsbFirst => 1

/-- The words of an operation: the formats of 30_encoding.md R57 with the operation codes of R60, unused fields 0
(R58); the wire words as the bit layouts of R202 and R203. -/
def encode : Instr → List Word
  | .rd d off => [formatR 0x01 (hBits d) 0 0 off]
  | .wr off a => [formatR 0x02 0 (hBits a) 0 off]
  | .rdm d off b => [formatR 0x03 (hBits d) 0 (hBits b) off]
  | .wrm off a b => [formatR 0x04 0 (hBits a) (hBits b) off]
  | .wait off a b => [formatR 0x05 0 (hBits a) (hBits b) off]
  | .li d imm => [formatI 0x06 (hBits d), imm]
  | .rsta => [formatP 0x08 0]
  | .rstr => [formatP 0x09 0]
  | .rstw => [formatP 0x0A 0]
  | .sell => [formatP 0x0B 0]
  | .selh => [formatP 0x0C 0]
  | .selfn f => [formatP 0x0D (selBits f)]
  | .delay n => [formatP 0x0E n]
  | .halt => [formatP 0x0F 0]
  | .encw d a => [formatC 0x10 (hBits d) (hBits a) 0]
  | .encn d a => [formatC 0x11 (hBits d) (hBits a) 0]
  | .decw d a b => [formatC 0x12 (hBits d) (hBits a) (hBits b)]
  | .decn d a => [formatC 0x13 (hBits d) (hBits a) 0]
  | .config d a bus mode ord wid => [formatG 0x18 (hBits d) (hBits a) bus mode (ordBits ord) wid]
  | .xfer d a n => [formatX 0x19 (hBits d) (hBits a) n]
  | .readch d a => [formatQ 0x1A (hBits d) (hBits a)]
  | .mcpCmdWide ch => [formatWide ch]
  | .mcpCmdNarrow ch => [formatNarrow ch]

/-- The first word of an operation. -/
def Instr.firstWord (i : Instr) : Word := (encode i).headD 0

end Sys2Proof
end

