-- ==== Sys2Proof/Config.lean ====
section
/-! DEFINITION. What an implementation fixes (the parameters of 00_scope.md R11, held as plain data) and the
free values of the machine: opaque constants, one for each kind of draw of the spec, applied to a counter that
State advances. Nothing can evaluate a free value, so what is proved holds for every value of it. -/

namespace Sys2Proof

/-- `VARIANT`: which build of the controller (00_scope.md R5). -/
inductive BuildVariant where
  | base
  | extended
deriving DecidableEq, Repr

/-- `DIVIDER_SEARCH`: which divider search `CONFIG` performs (42_serial_engine.md R118, R119). -/
inductive DividerSearch where
  | closest
  | sdk
deriving DecidableEq, Repr

/-- `RESERVED_READ`: what reserved register bits read as (10_state.md R26). -/
inductive ReservedRead where
  | zero
  | any
deriving DecidableEq, Repr

/-- Which agent takes the next turn, and for the Engine which of its three kinds of step
(00_scope.md R15, 42_serial_engine.md R100). The Device takes no step of its own. -/
inductive Mover where
  | host
  | resetCtl
  | engineFrame
  | engineTimeout
  | engineTimeoutClear
deriving DecidableEq, Repr, Inhabited

/-- The parameters of 00_scope.md R11 a model takes as arguments. They are fixed for a machine: no step changes
them. `devicePresent` says whether the platform includes the MCP3208 on this bus (42_serial_engine.md R112);
`spiBase0` and `spiBase1` are `SPI_BASE` (20_memory.md R42). -/
structure Params where
  busId : BitVec 2
  variant : BuildVariant
  clkHz : Nat
  dividerSearch : DividerSearch
  selDelayCycles : Nat
  reservedRead : ReservedRead
  periphId2 : BitVec 8
  devicePresent : Bool
  spiBase0 : Word
  spiBase1 : Word
deriving DecidableEq, Repr

/-- The defaults of 00_scope.md R11. DESIGN CHOICE (log entry 4): `BUS_ID = 0` and `VARIANT = EXTENDED` are those
of 95_test_vectors.md, and the MCP3208 is on the bus (60_exceptions.md R174). -/
def Params.default : Params where
  busId := 0
  variant := .extended
  clkHz := 150000000
  dividerSearch := .closest
  selDelayCycles := 3
  reservedRead := .zero
  periphId2 := 0x34
  devicePresent := true
  spiBase0 := 0x40080000
  spiBase1 := 0x40088000

/-- `FIFO_DEPTH` (00_scope.md R11, 10_state.md R37). -/
abbrev Config.fifoDepth : Nat := 8

/-- `N_INSTANCES` (00_scope.md R10, R11). -/
abbrev Config.nInstances : Nat := 2

/-- `WIDTH_MIN` (00_scope.md R11). -/
abbrev Config.widthMin : Nat := 4

/-- `WIDTH_MAX` (00_scope.md R11). -/
abbrev Config.widthMax : Nat := 16

/-- `CODEC_WIDE_WIDTH` (00_scope.md R11). -/
abbrev Config.codecWideWidth : Nat := 10

/-- `CODEC_NARROW_WIDTH` (00_scope.md R11). -/
abbrev Config.codecNarrowWidth : Nat := 12

/-- A free value: one bit the wire returns where the spec leaves it a draw (42_serial_engine.md R112,
60_exceptions.md R166, R168). -/
opaque Config.freeBit : Nat → Bool

/-- A free value: the word a read of SSPDR returns when the receive FIFO is empty (40_register_access.md R72). -/
opaque Config.freeRead : Nat → Half

/-- A free value: what reserved register bits read as when `RESERVED_READ = ANY` (10_state.md R26). -/
opaque Config.freeReserved : Nat → Word

/-- A free value: the conversion oracle `Sample(ch, sgl)` of the MCP3208, drawn anew for each conversion
(60_exceptions.md R164, R167). -/
opaque Config.freeSample : Nat → BitVec 3 → Bool → BitVec 12

/-- A free value: which agent moves next, since the spec fixes no schedule (00_scope.md R15, 92_eei_decisions.md
D19). -/
opaque Config.freeMover : Nat → Mover

end Sys2Proof
end

