-- ==== Sys2Proof/Machine/State.lean ====
section
/-! DEFINITION. The state of the machine as plain data: everything 10_state.md R40 lists, the device of
60_exceptions.md R163, the program store of R20, and the model's own fields (the parameters, the environment's
inputs and the load-check mark). Also the faults of 60_exceptions.md R160 as the spec records them, and the two
ways a step of the model can stop. -/

namespace Sys2Proof.Machine

/-- A host scratch register: 32 bits, or unwritten as at launch (10_state.md R19). `unwritten` is the spec's own
state of the register, not a missing reset value: reading it raises `UnwrittenRegister` (DEDUCED, log entry 1). -/
inductive Scratch where
  | unwritten
  | holds (v : Word)
deriving DecidableEq, Repr

/-- The block's own state (10_state.md R24, R37, R40): the stored bits of its registers, the two FIFOs (head
first), the two latched interrupt bits and the reset handshake. -/
structure Block where
  /-- SSPCR0: SCR 15:8, SPH 7, SPO 6, FRF 5:4, DSS 3:0 (R27). -/
  cr0 : BitVec 16
  /-- SSPCR1: SOD 3, MS 2, SSE 1, LBM 0 (R30). -/
  cr1 : BitVec 4
  /-- SSPCPSR.CPSDVSR (R33). -/
  cpsdvsr : BitVec 8
  /-- SSPIMSC: TXIM 3, RXIM 2, RTIM 1, RORIM 0 (R34). -/
  imsc : BitVec 4
  /-- SSPDMACR: TXDMAE 1, RXDMAE 0 (R35). -/
  dmacr : BitVec 2
  /-- The transmit FIFO (R37). -/
  txq : List Half
  /-- The receive FIFO (R37). -/
  rxq : List Half
  /-- RTRIS, latched (R37). -/
  rtLatch : Bool
  /-- RORRIS, latched (R37). -/
  rorLatch : Bool
  /-- The reset input (R24). -/
  inReset : Bool
  /-- The reset acknowledgement (R24). -/
  rstDone : Bool
deriving DecidableEq, Repr

/-- The block as asserting reset leaves it, which is also how it launches (10_state.md R24, R40). -/
def Block.reset : Block where
  cr0 := 0
  cr1 := 0
  cpsdvsr := 0
  imsc := 0
  dmacr := 0
  txq := []
  rxq := []
  rtLatch := false
  rorLatch := false
  inReset := true
  rstDone := false

/-- The MCP3208 on the wire (60_exceptions.md R163): `off` deselected; `sel k s sgl dch v` selected, with `k` rising
edges seen, `s` the edge of the start bit, `sgl` the mode bit, `dch` the channel bits received so far (D2 first)
and `v` the conversion value; `unknown` selected, its position in the protocol not tracked. -/
inductive Dev where
  | off
  | sel (k : Nat) (s : Option Nat) (sgl : Option Bool) (dch : List Bool) (v : Option (BitVec 12))
  | unknown
deriving DecidableEq, Repr

/-- The device just selected: `Sel(0, ⊥, ⊥, [], ⊥)` (60_exceptions.md R165). -/
def Dev.fresh : Dev := .sel 0 none none [] none

/-- Whether the device is selected with a tracked position. -/
def Dev.isSel : Dev → Bool
  | .sel _ _ _ _ _ => true
  | .off => false
  | .unknown => false

/-- The reasons of `BusError` (60_exceptions.md R160). -/
inductive BusReason where
  | misaligned
  | unmapped
  | direction
  | sideEffect
deriving DecidableEq, Repr

/-- The reasons of `InvalidFrameConfig` (60_exceptions.md R160, 42_serial_engine.md R104). -/
inductive FrameReason where
  | slave
  | prescale
  | dss
  | frf
  | loopback
deriving DecidableEq, Repr

/-- The reasons of `ContractViolation` (60_exceptions.md R160, 44_operations.md R134). -/
inductive ContractReason where
  | bus
  | width
  | order
  | mode
  | baud
deriving DecidableEq, Repr

/-- The reasons of `Refused` (60_exceptions.md R160). -/
inductive RefusedReason where
  | selectTiming
  | otherInstance
deriving DecidableEq, Repr

/-- The faults of the hardware with their information fields (60_exceptions.md R160). A step that raises one is a
step to a next state, in which it is recorded and the host halted (R161). -/
inductive FaultKind where
  | illegalOperation (pc : Nat) (w : Option Word)
  | unwrittenRegister (i : HIdx)
  | busError (off : Offset) (r : BusReason)
  | inResetAccess (off : Offset)
  | configWhileEnabled (off : Offset)
  | txOverflow
  | invalidFrameConfig (r : FrameReason)
  | noCodecVariant (cr0 : BitVec 16)
  | contractViolation (r : ContractReason)
  | inFlightReconfigure
  | refused (r : RefusedReason)
deriving DecidableEq, Repr

/-- The numeric code of a fault (60_exceptions.md R160). -/
def FaultKind.code : FaultKind → Nat
  | .illegalOperation _ _ => 1
  | .unwrittenRegister _ => 2
  | .busError _ _ => 3
  | .inResetAccess _ => 4
  | .configWhileEnabled _ => 5
  | .txOverflow => 6
  | .invalidFrameConfig _ => 7
  | .noCodecVariant _ => 8
  | .contractViolation _ => 9
  | .inFlightReconfigure => 10
  | .refused _ => 11

/-- The agents (00_scope.md R15). -/
inductive Agent where
  | host
  | engine
  | resetCtl
  | device
deriving DecidableEq, Repr

/-- A fault record `(code, kind, info, agent, pc)` (60_exceptions.md R161). The code is `kind.code`. -/
structure FaultRecord where
  kind : FaultKind
  agent : Agent
  pc : Nat
deriving DecidableEq, Repr

/-- The codec's two wire-format variants (44_operations.md R143). -/
inductive CodecVariant where
  | wide
  | narrow
deriving DecidableEq, Repr

/-- The temporaries of a running `CONFIG` (44_operations.md R133): the divider pair and rate found at step 0, and the
enable bit saved at step 6. -/
structure ConfigTemps where
  prescale : Nat
  postdiv : Nat
  achieved : Nat
  enable : Bool
deriving DecidableEq, Repr

/-- The temporaries of a running transfer (44_operations.md R139): the snapshot of the transmit words and the words
received so far. -/
structure XferTemps where
  tx : List Word
  rx : List Word
deriving DecidableEq, Repr

/-- The composite operation in progress, with the operands it still needs and its temporaries (10_state.md R21). -/
inductive Composite where
  | config (d : HIdx) (mode : BitVec 2) (wid : BitVec 5) (t : ConfigTemps)
  | xfer (d : HIdx) (t : XferTemps)
  | readch (d : HIdx) (v : CodecVariant) (ch : Word) (cmd : Word) (t : XferTemps)
deriving DecidableEq, Repr

/-- The micro-cursor: the composite operation and the index of the next step of its expansion (10_state.md R21). -/
structure Cursor where
  op : Composite
  step : Nat
deriving DecidableEq, Repr

/-- The model's own inputs and counter, not the hardware's (DESIGN CHOICE, log entries 2, 3 and 5). `sched` names the movers of the
next turns and `samples` the next conversion values; where a list has run out the value is free. `draws` counts
turns and draws, so that no two draws share a free value. -/
structure Env where
  sched : List Mover
  samples : List (BitVec 12)
  draws : Nat
deriving DecidableEq, Repr

/-- The machine. -/
structure State where
  /-- `H[0]` to `H[7]` (10_state.md R19). -/
  h : Vector Scratch 8
  /-- The host program counter, an index of the program store (R20). -/
  pc : Nat
  /-- The micro-cursor (R21). -/
  cursor : Option Cursor
  /-- Set by `HALT` or by any fault (R22). -/
  halted : Bool
  /-- The fault record, a list that only grows (R22, 60_exceptions.md R161). -/
  faults : List FaultRecord
  /-- The level of the select pin as a general-purpose output, true for high (R23). -/
  gpioCs : Bool
  /-- The select pin's function (R23). -/
  selfn : SelFn
  /-- The controller block (R24, R37, R40). -/
  block : Block
  /-- The device model's state (60_exceptions.md R163). -/
  dev : Dev
  /-- The read-only program store, word 0 first (R20, 20_memory.md R43). -/
  prog : List Word
  /-- Whether the load check of 60_exceptions.md R177 has been made for this run. -/
  checked : Bool
  /-- The parameters of 00_scope.md R11, fixed for the machine. -/
  params : Params
  /-- The model's inputs and draw counter. -/
  env : Env
deriving DecidableEq, Repr

/-- The machine at launch (10_state.md R40, 70_reset_and_hazards.md R180): the block held in reset, every scratch
register unwritten, the select pin high and a general-purpose output, the device off, `pc` 0. The program store
holds no program: one is placed from outside (DESIGN CHOICE, log entry 6). -/
def State.reset : State where
  h := Vector.replicate 8 .unwritten
  pc := 0
  cursor := none
  halted := false
  faults := []
  gpioCs := true
  selfn := .gpio
  block := Block.reset
  dev := .off
  prog := []
  checked := false
  params := Params.default
  env := { sched := [], samples := [], draws := 0 }

/-- How a step of the model can end without a next state. The faults of the hardware are `FaultKind`s, recorded in
a next state; this is what is left once one is recorded. -/
inductive Fault where
  /-- Answered by `step`, never by a meaning, when a fault is on record: no agent has a step (60_exceptions.md
  R162). Safe: the hardware has no step either. -/
  | stopped (r : FaultRecord)
deriving DecidableEq, Repr

/-- Refusals. -/
inductive Refusal where
  /-- Answered by `exec` for an instruction that has no meaning yet; no instruction is left without one. Safe: the
  model stops where the hardware goes on. -/
  | notModelled (mnemonic : String)
deriving DecidableEq, Repr

end Sys2Proof.Machine
end

