-- ==== Sys2Proof/Machine/Ops.lean ====
section
/-! DEFINITION. The named operations every meaning is built from: how a host step ends, raising a fault, the block's
register fields, the select line the device sees, the reset and select ports, the environment's draws, the turn,
the load check, and the fetch. -/

namespace Sys2Proof.Machine

/-! ### How a host step ends -/

/-- Why a host step does not complete: it holds (00_scope.md R14) or it raises a fault (60_exceptions.md R161). -/
inductive Stop where
  | hold
  | fault (k : FaultKind)
deriving DecidableEq, Repr

/-- A part of a host step: its result, or why the step does not complete. -/
abbrev Eff (α : Type) := Except Stop α

/-- Raising a fault: the state is as the step found it, the micro-cursor included, but for the record and the halt
(60_exceptions.md R161; DEDUCED, log entry 15). -/
def State.raise (s : State) (x : Agent) (k : FaultKind) : State :=
  { s with faults := s.faults ++ [{ kind := k, agent := x, pc := s.pc }], halted := true }

/-- The outcome of a host step at `s`: its effect, or no change where it holds (41_platform_ports.md R93), or the
fault raised at `s` itself, so that a fault is precise (40_register_access.md R82, 60_exceptions.md R161). -/
def finish (s : State) (e : Eff State) : Host.Outcome State Fault Refusal :=
  match e with
  | .ok s' => .next s'
  | .error .hold => .next s
  | .error (.fault k) => .next (s.raise .host k)

/-- Advance the program counter by `n` words (10_state.md R20). -/
def State.advance (s : State) (n : Nat) : State := { s with pc := s.pc + n }

/-! ### Fields of the block's registers -/

/-- SSPCR0.SCR, bits 15:8 (10_state.md R27). -/
def Block.scr (b : Block) : BitVec 8 := b.cr0.extractLsb' 8 8

/-- SSPCR0.SPH, bit 7. -/
def Block.sph (b : Block) : Bool := b.cr0.getLsbD 7

/-- SSPCR0.SPO, bit 6. -/
def Block.spo (b : Block) : Bool := b.cr0.getLsbD 6

/-- SSPCR0.FRF, bits 5:4: 0 `standard` (Motorola), 1 `alternate-A` (TI), 2 `alternate-B` (Microwire), 3 reserved
(10_state.md R27, R28). -/
def Block.frf (b : Block) : BitVec 2 := b.cr0.extractLsb' 4 2

/-- SSPCR0.DSS, bits 3:0. -/
def Block.dss (b : Block) : BitVec 4 := b.cr0.extractLsb' 0 4

/-- SSPCR1.SOD, bit 3: stored and read back only (10_state.md R30). -/
def Block.sod (b : Block) : Bool := b.cr1.getLsbD 3

/-- SSPCR1.MS, bit 2. -/
def Block.ms (b : Block) : Bool := b.cr1.getLsbD 2

/-- SSPCR1.SSE, bit 1. -/
def Block.sse (b : Block) : Bool := b.cr1.getLsbD 1

/-- SSPCR1.LBM, bit 0. -/
def Block.lbm (b : Block) : Bool := b.cr1.getLsbD 0

/-- The word width of a frame, `DSS + 1` (42_serial_engine.md R102). -/
def Block.width (b : Block) : Nat := b.dss.toNat + 1

/-- Out of reset and acknowledged (10_state.md R24, 70_reset_and_hazards.md R180; DEDUCED, log entry 11). -/
def Block.outOfReset (b : Block) : Bool := !b.inReset && b.rstDone

/-! ### The select line -/

/-- The level of `fss` between frames: low only out of reset with SSE = 1 and the TI format, whose select line idles
low (60_exceptions.md R165). -/
def Block.fssIdle (b : Block) : Bool := !(b.outOfReset && b.sse && b.frf == 1#2)

/-- The select line the device sees between frames: `device_cs` (10_state.md R18). True is high, deselected. -/
def State.deviceCs (s : State) : Bool :=
  match s.selfn with
  | .gpio => s.gpioCs
  | .periph => s.block.fssIdle

/-- What a change of the select line does to the device: it is selected afresh when the line falls and turned off
when the line rises, and is not touched otherwise (60_exceptions.md R165). With no device on the bus there is
nothing to touch (DEDUCED, log entry 12). -/
def Dev.follow (d : Dev) (csBefore csAfter : Bool) : Dev :=
  match csBefore, csAfter with
  | true, false => .fresh
  | false, true => .off
  | true, true => d
  | false, false => d

/-- `after`, with the device having followed the select line from `before` (60_exceptions.md R165). -/
def State.settleSelect (before after : State) : State :=
  if after.params.devicePresent then
    { after with dev := after.dev.follow before.deviceCs after.deviceCs }
  else after

/-- Drive the select pin's general-purpose output to a level (41_platform_ports.md R87, R88). -/
def State.driveSelect (s : State) (level : Bool) : State :=
  s.settleSelect { s with gpioCs := level }

/-- Set the select pin's function (41_platform_ports.md R89). -/
def State.setSelfn (s : State) (f : SelFn) : State :=
  s.settleSelect { s with selfn := f }

/-! ### Reset -/

/-- The effect of `RSTA`: the block's reset asserted and every piece of block state at its reset value
(41_platform_ports.md R83, 10_state.md R40); a select line that was low for the TI format rises
(70_reset_and_hazards.md R181). -/
def State.assertReset (s : State) : State :=
  s.settleSelect { s with block := Block.reset }

/-- The effect of `RSTR`: the reset released; the acknowledgement is a later ResetCtl step (41_platform_ports.md
R84). -/
def State.releaseReset (s : State) : State :=
  s.settleSelect { s with block := { s.block with inReset := false } }

/-- Whether the ResetCtl step is enabled (41_platform_ports.md R86). -/
def Block.ackEnabled (b : Block) : Bool := !b.inReset && !b.rstDone

/-- The ResetCtl step: the block acknowledges it is out of reset (41_platform_ports.md R86). -/
def State.resetCtlStep (s : State) : State :=
  if s.block.ackEnabled then
    s.settleSelect { s with block := { s.block with rstDone := true } }
  else s

/-! ### Draws -/

/-- The environment after one more draw. -/
def Env.bump (e : Env) : Env := { e with draws := e.draws + 1 }

/-- Draw one wire bit (42_serial_engine.md R112). -/
def Env.drawBit (e : Env) : Bool × Env := (Config.freeBit e.draws, e.bump)

/-- Draw `n` wire bits. -/
def Env.drawBits : Nat → Env → List Bool × Env
  | 0, e => ([], e)
  | n + 1, e =>
    let (b, e1) := e.drawBit
    let (bs, e2) := Env.drawBits n e1
    (b :: bs, e2)

/-- The conversion oracle `Sample(ch, sgl)` (60_exceptions.md R164, R167): the next value the environment has
ready, else a free value. -/
def Env.drawSample (e : Env) (ch : BitVec 3) (sgl : Bool) : BitVec 12 × Env :=
  match e.samples with
  | v :: rest => (v, { e with samples := rest })
  | [] => (Config.freeSample e.draws ch sgl, e.bump)

/-! ### The turn -/

/-- Which agent moves next (00_scope.md R15): as the schedule says, or a free value where it has run out. -/
def State.nextMover (s : State) : Mover :=
  match s.env.sched with
  | m :: _ => m
  | [] => Config.freeMover s.env.draws

/-- The state once the mover of this turn has been named. -/
def State.afterTurn (s : State) : State :=
  { s with env := { s.env with sched := s.env.sched.tail, draws := s.env.draws + 1 } }

/-- The same machine with its next turns' movers named: an input for runs and tests. -/
def State.withSchedule (s : State) (ms : List Mover) : State :=
  { s with env := { s.env with sched := ms } }

/-! ### The load check -/

/-- A `SELL` or `SELH` word (41_platform_ports.md R91). -/
def isSelectWord (w : Word) : Bool := Instr.sell.row.admits w || Instr.selh.row.admits w

/-- A `DELAY n` word with `n ≥ SEL_DELAY_CYCLES` (41_platform_ports.md R91). -/
def isSettlingDelay (p : Params) (w : Word) : Bool :=
  (Instr.delay 0).row.admits w && p.selDelayCycles ≤ (imm16Field w).toNat

/-- The index of the first select word of a program that is not both immediately preceded and immediately followed
by a settling delay (60_exceptions.md R177). Where several words break the settling the spec does not say which the
refusal names: the model takes the lowest index (DESIGN CHOICE, log entry 25). `skip` says that the next word is an
`LI`'s immediate, which is not scanned as an operation (DEDUCED, log entry 23); `settled` that the operation before is a
settling delay; `idx` is the next word's index. -/
def scanSelect (p : Params) (skip settled : Bool) (idx : Nat) : List Word → Option Nat
  | [] => none
  | w :: ws =>
    if skip then scanSelect p false false (idx + 1) ws
    else if isSelectWord w && !(settled && (ws.head?.map (isSettlingDelay p)).getD false) then some idx
    else scanSelect p (opcField w == 0x06) (isSettlingDelay p w) (idx + 1) ws

/-- The load check, made before the first step of a run: a program that breaks the select-edge settling is refused,
one fault recorded, at the word `scanSelect` names (60_exceptions.md R177; DESIGN CHOICE, log entries 7 and 25). -/
def State.loadCheck (s : State) : State :=
  match scanSelect s.params false false 0 s.prog with
  | none => { s with checked := true }
  | some idx =>
    { s with
      checked := true
      faults := s.faults ++ [{ kind := .refused .selectTiming, agent := .host, pc := idx }]
      halted := true }

/-! ### Fetch -/

/-- Fetch and decode at `pc`: `IllegalOperation(pc, none)` where a word is missing, `IllegalOperation(pc, w)` where the
word is illegal (41_platform_ports.md R93, 30_encoding.md R63, 40_register_access.md R69; DEDUCED, log entry 13). -/
def State.fetch (s : State) : Except FaultKind Instr :=
  match decode (s.prog.drop s.pc) with
  | .ok (i, _) => .ok i
  | .error .noWord => .error (.illegalOperation s.pc none)
  | .error .missingImmediate => .error (.illegalOperation s.pc none)
  | .error .reservedOpcode => .error (.illegalOperation s.pc s.prog[s.pc]?)
  | .error .mustBeZero => .error (.illegalOperation s.pc s.prog[s.pc]?)
  | .error .illegalXferCount => .error (.illegalOperation s.pc s.prog[s.pc]?)
  | .error .notWireWord => .error (.illegalOperation s.pc s.prog[s.pc]?)

/-- A program with the words `ws` at index `i`; a store that ends before `i` is filled with zero words, which are
illegal operations. -/
def placeWords (prog : List Word) (i : Nat) (ws : List Word) : List Word :=
  (prog ++ List.replicate (i - prog.length) 0).take i ++ ws ++ prog.drop (i + ws.length)

end Sys2Proof.Machine
end

