-- ==== Sys2Proof/Machine/Operands.lean ====
section
/-! DEFINITION. The operand forms: scratch registers, one, two or a range of them, the block's registers by
offset, and the access check. -/

namespace Sys2Proof.Machine

/-! ### Scratch registers -/

/-- Read `H[i]`; `UnwrittenRegister` if nothing has written it (10_state.md R19). -/
def State.readH (s : State) (i : HIdx) : Eff Word :=
  match s.h[i] with
  | .holds v => .ok v
  | .unwritten => .error (.fault (.unwrittenRegister i))

/-- Read two scratch registers, the lowest index first (60_exceptions.md R170; DEDUCED, log entry 8), and give them in the
order named. -/
def State.readH2 (s : State) (a b : HIdx) : Eff (Word × Word) :=
  if b < a then do
    let vb ← s.readH b
    let va ← s.readH a
    return (va, vb)
  else do
    let va ← s.readH a
    let vb ← s.readH b
    return (va, vb)

/-- Read `H[a]` to `H[a + n - 1]`, ascending (44_operations.md R139 step 0). -/
def State.readRange (s : State) (a : Nat) : Nat → Eff (List Word)
  | 0 => .ok []
  | n + 1 => do
    let v ← s.readH (Fin.ofNat 8 a)
    let vs ← s.readRange (a + 1) n
    return v :: vs

/-- Write `H[i]` (10_state.md R19). -/
def State.setH (s : State) (i : HIdx) (v : Word) : State := { s with h := s.h.set i (.holds v) }

/-- Write `H[d]`, `H[d + 1]`, ... with the words of a list. -/
def setRange (h : Vector Scratch 8) (d : Nat) : List Word → Vector Scratch 8
  | [] => h
  | v :: vs => setRange (h.set (Fin.ofNat 8 d) (.holds v)) (d + 1) vs

/-! ### The block's registers by offset -/

/-- The registers of the window (10_state.md R25). -/
inductive Reg where
  | cr0 | cr1 | dr | sr | cpsr | imsc | ris | mis | icr | dmacr
  | periphId0 | periphId1 | periphId2 | periphId3
  | pcellId0 | pcellId1 | pcellId2 | pcellId3
deriving DecidableEq, Repr

/-- The register at an offset; every offset the table does not list is unmapped (10_state.md R25). -/
def regAt (off : Offset) : Option Reg :=
  match off.toNat with
  | 0x000 => some .cr0
  | 0x004 => some .cr1
  | 0x008 => some .dr
  | 0x00C => some .sr
  | 0x010 => some .cpsr
  | 0x014 => some .imsc
  | 0x018 => some .ris
  | 0x01C => some .mis
  | 0x020 => some .icr
  | 0x024 => some .dmacr
  | 0xFE0 => some .periphId0
  | 0xFE4 => some .periphId1
  | 0xFE8 => some .periphId2
  | 0xFEC => some .periphId3
  | 0xFF0 => some .pcellId0
  | 0xFF4 => some .pcellId1
  | 0xFF8 => some .pcellId2
  | 0xFFC => some .pcellId3
  | _ => none

/-- The byte address of an offset in the window of the modelled instance (20_memory.md R42). -/
def State.blockAddress (s : State) (off : Offset) : Word :=
  (if s.params.busId = 0 then s.params.spiBase0 else s.params.spiBase1) + off.setWidth 32

/-- Byte `k` of a register value where a byte view is needed: little-endian (20_memory.md R44). -/
def registerByte (v : Word) (k : Fin 4) : BitVec 8 := v.extractLsb' (8 * k.val) 8

/-- Whether the host may read a register: all but SSPICR (10_state.md R25). -/
def Reg.readable (r : Reg) : Bool := r != .icr

/-- Whether the host may write a register: not SSPSR, SSPRIS, SSPMIS or an identification register (10_state.md
R25). -/
def Reg.writable : Reg → Bool
  | .cr0 | .cr1 | .dr | .cpsr | .imsc | .icr | .dmacr => true
  | .sr | .ris | .mis => false
  | .periphId0 | .periphId1 | .periphId2 | .periphId3 => false
  | .pcellId0 | .pcellId1 | .pcellId2 | .pcellId3 => false

/-- The registers a masked or waiting access is refused on: SSPDR and SSPICR (20_memory.md R50). -/
def Reg.hasSideEffect (r : Reg) : Bool := r == .dr || r == .icr

/-! ### The access check -/

/-- The kinds of register access (40_register_access.md R70). -/
inductive Access where
  | read
  | write
  | readNoSide
  | writeNoSide
deriving DecidableEq, Repr

/-- Whether an access reads (the others write). -/
def Access.reads : Access → Bool
  | .read => true
  | .readNoSide => true
  | .write => false
  | .writeNoSide => false

/-- Whether an access is one that is refused on a register with side effects. -/
def Access.noSide : Access → Bool
  | .readNoSide => true
  | .writeNoSide => true
  | .read => false
  | .write => false

/-- Whether a register may be accessed in an access's direction. -/
def Access.directionOk (k : Access) (r : Reg) : Bool := if k.reads then r.readable else r.writable

/-- `AccessCheck(off, kind)`: the register at the offset, or the first fault that applies, in the order of
40_register_access.md R70. -/
def State.accessCheck (s : State) (off : Offset) (k : Access) : Eff Reg :=
  if off.toNat % 4 ≠ 0 then .error (.fault (.busError off .misaligned))
  else
    match regAt off with
    | none => .error (.fault (.busError off .unmapped))
    | some r =>
      if !k.directionOk r then .error (.fault (.busError off .direction))
      else if k.noSide && r.hasSideEffect then .error (.fault (.busError off .sideEffect))
      else if !s.block.outOfReset then .error (.fault (.inResetAccess off))
      else .ok r

end Sys2Proof.Machine
end

