-- ==== Sys2Proof/Machine/Codec.lean ====
section
/-! DEFINITION. The codec's arithmetic and the meanings of ENCW, ENCN, DECW and DECN (43_codec.md R124 to R127).
They touch scratch registers only and are legal in any block state (R132). -/

namespace Sys2Proof.Machine

/-- The wide-word command of a channel (43_codec.md R124, 30_encoding.md R202). -/
def wideCommand (ch : Word) : Word := 0x180 ||| ((ch &&& 7) <<< 4)

/-- The narrow-word command of a channel (43_codec.md R125, 30_encoding.md R203). -/
def narrowCommand (ch : Word) : Word := ((ch &&& 7) <<< 1) ||| 0x30

/-- The wide-word sample of two received words (43_codec.md R126, 30_encoding.md R204). -/
def wideSample (a b : Word) : Word := ((a <<< 10) + b) &&& 0xFFF

/-- The narrow-word sample of a received word (43_codec.md R127, 30_encoding.md R204). -/
def narrowSample (r : Word) : Word := r &&& 0xFFF

/-- A codec operation with one operand: the operand is read before the result is written. -/
def codecStep (f : Word → Word) (d a : HIdx) (s : State) : Eff State := do
  let v ← s.readH a
  return (s.setH d (f v)).advance 1

/-- `ENCW hD, hA` (43_codec.md R124). -/
def execEncw (d a : HIdx) (s : State) : Host.Outcome State Fault Refusal := finish s (codecStep wideCommand d a s)

/-- `ENCN hD, hA` (43_codec.md R125). -/
def execEncn (d a : HIdx) (s : State) : Host.Outcome State Fault Refusal := finish s (codecStep narrowCommand d a s)

/-- `DECW hD, hA, hB` (43_codec.md R126). -/
def execDecw (d a b : HIdx) (s : State) : Host.Outcome State Fault Refusal :=
  finish s do
    let (x, y) ← s.readH2 a b
    return (s.setH d (wideSample x y)).advance 1

/-- `DECN hD, hA` (43_codec.md R127). -/
def execDecn (d a : HIdx) (s : State) : Host.Outcome State Fault Refusal := finish s (codecStep narrowSample d a s)

end Sys2Proof.Machine
end

