-- ==== Sys2Proof/Machine/Divider.lean ====
section
/-! DEFINITION. The two divider searches (42_serial_engine.md R118, R119): the prescale and second divisor for a
requested rate, and the rate reported. -/

namespace Sys2Proof.Machine

/-- What a divider search finds: the prescale `p`, the second divisor `d` and the achieved rate. -/
structure DividerSetting where
  prescale : Nat
  postdiv : Nat
  achieved : Nat
deriving DecidableEq, Repr

/-- The legal prescales `2, 4, ..., 254`, ascending (00_scope.md R11). -/
def prescales : List Nat := (List.range 127).map fun i => 2 * (i + 1)

/-- The largest product of the two stages, `254 * 256` (42_serial_engine.md R118). -/
def maxProduct : Nat := 254 * 256

/-- The least product `p * d` with `d` in 1 to 256 that is at least `need`, if there is one: the members of `Prod` with
prescale `p` (42_serial_engine.md R118). -/
def leastProduct (need p : Nat) : Option Nat :=
  let d := max 1 ((need + p - 1) / p)
  if d ≤ 256 then some (p * d) else none

/-- `min (P in Prod | P ≥ need)` (42_serial_engine.md R118). -/
def closestProduct (need : Nat) : Option Nat := (prescales.filterMap (leastProduct need)).min?

/-- The divider search `CLOSEST`: the largest exact rate not above `b`, a tie going to the smallest prescale
(42_serial_engine.md R118). -/
def closestSearch (clk b : Nat) : Option DividerSetting :=
  if b = 0 then none
  else
    let need := (clk + b - 1) / b
    if maxProduct < need then none
    else
      match closestProduct need with
      | none => none
      | some prod =>
        match prescales.find? (fun p => prod % p == 0 && prod / p ≤ 256) with
        | none => none
        | some p => some { prescale := p, postdiv := prod / p, achieved := clk / prod }

/-- The second loop of the `SDK` search, from `d` downwards: stop at the first `d` for which `d - 1` would give a rate
above `b` (42_serial_engine.md R119). -/
def sdkPostdiv (clk b p : Nat) : Nat → Nat
  | 0 => 1
  | 1 => 1
  | d + 2 => if b < clk / (p * (d + 1)) then d + 2 else sdkPostdiv clk b p (d + 1)

/-- The divider search `SDK` (42_serial_engine.md R119). -/
def sdkSearch (clk b : Nat) : Option DividerSetting :=
  if b = 0 || clk < b then none
  else
    match prescales.find? (fun p => clk < p * 256 * b) with
    | none => none
    | some p =>
      let d := sdkPostdiv clk b p 256
      some { prescale := p, postdiv := d, achieved := clk / (p * d) }

/-- The divider search the machine is configured with (44_operations.md R133 step 0). -/
def dividerSearch (p : Params) (b : Nat) : Option DividerSetting :=
  match p.dividerSearch with
  | .closest => closestSearch p.clkHz b
  | .sdk => sdkSearch p.clkHz b

end Sys2Proof.Machine
end

