-- ==== Sys2Proof/Machine/Flags.lean ====
section
/-! DEFINITION. Everything the block computes from its state for a reader: the status and interrupt bits, the
interrupt and data-request outputs, the serial clock's level and rate, and the BusHandle view. -/

namespace Sys2Proof.Machine

/-! ### Status bits (10_state.md R32) -/

/-- SSPSR.BSY: a word waits to be sent. -/
def Block.bsy (b : Block) : Bool := !b.txq.isEmpty

/-- SSPSR.RFF: the receive FIFO is full. -/
def Block.rff (b : Block) : Bool := b.rxq.length == Config.fifoDepth

/-- SSPSR.RNE: the receive FIFO is not empty. -/
def Block.rne (b : Block) : Bool := !b.rxq.isEmpty

/-- SSPSR.TNF: the transmit FIFO is not full. -/
def Block.tnf (b : Block) : Bool := decide (b.txq.length < Config.fifoDepth)

/-- SSPSR.TFE: the transmit FIFO is empty. -/
def Block.tfe (b : Block) : Bool := b.txq.isEmpty

/-- SSPSR: `BSY RFF RNE TNF TFE` in bits 4:0 (40_register_access.md R73). -/
def Block.status (b : Block) : BitVec 5 :=
  BitVec.ofBool b.bsy ++ BitVec.ofBool b.rff ++ BitVec.ofBool b.rne ++ BitVec.ofBool b.tnf ++ BitVec.ofBool b.tfe

/-! ### Interrupt bits and outputs (40_register_access.md R74, 42_serial_engine.md R115) -/

/-- TXRIS: the transmit FIFO is half empty or less, whatever SSE is. -/
def Block.txris (b : Block) : Bool := decide (b.txq.length ≤ Config.fifoDepth / 2)

/-- RXRIS: the receive FIFO is half full or more. -/
def Block.rxris (b : Block) : Bool := decide (Config.fifoDepth / 2 ≤ b.rxq.length)

/-- SSPRIS: `TXRIS RXRIS RTRIS RORRIS` in bits 3:0. -/
def Block.rawInterrupts (b : Block) : BitVec 4 :=
  BitVec.ofBool b.txris ++ BitVec.ofBool b.rxris ++ BitVec.ofBool b.rtLatch ++ BitVec.ofBool b.rorLatch

/-- SSPMIS: SSPRIS masked by SSPIMSC. -/
def Block.maskedInterrupts (b : Block) : BitVec 4 := b.rawInterrupts &&& b.imsc

/-- The output `txintr`: 0 while in reset. -/
def Block.txintr (b : Block) : Bool := !b.inReset && b.maskedInterrupts.getLsbD 3

/-- The output `rxintr`. -/
def Block.rxintr (b : Block) : Bool := !b.inReset && b.maskedInterrupts.getLsbD 2

/-- The output `rtintr`. -/
def Block.rtintr (b : Block) : Bool := !b.inReset && b.maskedInterrupts.getLsbD 1

/-- The output `rorintr`. -/
def Block.rorintr (b : Block) : Bool := !b.inReset && b.maskedInterrupts.getLsbD 0

/-- The output `intr`: any of the four. -/
def Block.intr (b : Block) : Bool := b.txintr || b.rxintr || b.rtintr || b.rorintr

/-! ### Data requests (42_serial_engine.md R116) -/

/-- The output `dreq_tx`. -/
def Block.dreqTx (b : Block) : Bool := !b.inReset && b.dmacr.getLsbD 1 && decide (b.txq.length < Config.fifoDepth)

/-- The output `dreq_rx`. -/
def Block.dreqRx (b : Block) : Bool := !b.inReset && b.dmacr.getLsbD 0 && decide (0 < b.rxq.length)

/-! ### The serial clock (42_serial_engine.md R101, R105, R107, R108, R117) -/

/-- The level `sclk` rests at between frames: SPO in the Motorola format, low in the two alternates. While FRF holds the
reserved value 3 the spec gives no level and the model takes low (DESIGN CHOICE, log entry 24). -/
def Block.sclkRest (b : Block) : Bool := b.frf == 0#2 && b.spo

/-- Whether the block samples on rising edges of `sclk`: Motorola with SPO = SPH, and Microwire; TI samples on the
falling edge. -/
def Block.samplesRising (b : Block) : Bool := (b.frf == 0#2 && b.spo == b.sph) || b.frf == 2#2

/-- The number of clocks of a frame: `N`, or `8 + 1 + N` in Microwire. -/
def Block.frameClocks (b : Block) : Nat := if b.frf = 2#2 then 8 + 1 + b.width else b.width

/-- The product of the two divider stages: one serial clock period in input clock cycles. -/
def Block.sclkDivisor (b : Block) : Nat := b.cpsdvsr.toNat * (b.scr.toNat + 1)

/-- The length of a frame in input clock cycles, without the inter-frame select pulse (R117). -/
def Block.frameCycles (b : Block) : Nat := b.frameClocks * b.sclkDivisor

/-! ### The BusHandle view (10_state.md R39) -/

/-- The source's `BusHandle`, a view of the registers. -/
structure BusHandle where
  bus : BitVec 2
  baud : Option Nat
  width : Nat
  cpol : Bool
  cpha : Bool
  order : BitOrder
  mode : BitVec 2
  enabled : Bool
deriving DecidableEq, Repr

/-- The view of 10_state.md R39; the rate is undefined while CPSDVSR is below 2. -/
def State.busHandle (s : State) : BusHandle where
  bus := s.params.busId
  baud := if 2 ≤ s.block.cpsdvsr.toNat then some (s.params.clkHz / s.block.sclkDivisor) else none
  width := s.block.width
  cpol := s.block.spo
  cpha := s.block.sph
  order := .msbFirst
  mode := s.block.frf
  enabled := s.block.sse

end Sys2Proof.Machine
end

