-- ==== Sys2Proof/Machine/Registers.lean ====
section
/-! DEFINITION. What each register of the block does on a host read and on a host write
(40_register_access.md R71 to R81, 10_state.md R25 to R36). -/

namespace Sys2Proof.Machine

/-- `RegState(off)`: the stored or computed value with reserved bits 0 (40_register_access.md R71, R73, R74; the
identification constants of 10_state.md R25, R36). SSPDR and SSPICR hold no state of this kind. -/
def State.regState (s : State) : Reg → Word
  | .cr0 => s.block.cr0.setWidth 32
  | .cr1 => s.block.cr1.setWidth 32
  | .dr => 0
  | .sr => s.block.status.setWidth 32
  | .cpsr => (s.block.cpsdvsr &&& 0xFE).setWidth 32
  | .imsc => s.block.imsc.setWidth 32
  | .ris => s.block.rawInterrupts.setWidth 32
  | .mis => s.block.maskedInterrupts.setWidth 32
  | .icr => 0
  | .dmacr => s.block.dmacr.setWidth 32
  | .periphId0 => 0x22
  | .periphId1 => 0x10
  | .periphId2 => s.params.periphId2.setWidth 32
  | .periphId3 => 0x00
  | .pcellId0 => 0x0D
  | .pcellId1 => 0xF0
  | .pcellId2 => 0x05
  | .pcellId3 => 0xB1

/-- The reserved bits of a register, which a read returns as a draw when `RESERVED_READ = ANY` (10_state.md R26 to
R35). The identification registers are constants, zero above bit 7 (R36), and a word read from SSPDR is
zero-extended (40_register_access.md R72; DEDUCED, log entry 14). -/
def Reg.reservedMask : Reg → Word
  | .cr0 => 0xFFFF0000
  | .cr1 => 0xFFFFFFF0
  | .dr => 0
  | .sr => 0xFFFFFFE0
  | .cpsr => 0xFFFFFF00
  | .imsc => 0xFFFFFFF0
  | .ris => 0xFFFFFFF0
  | .mis => 0xFFFFFFF0
  | .icr => 0
  | .dmacr => 0xFFFFFFFC
  | .periphId0 | .periphId1 | .periphId2 | .periphId3 => 0
  | .pcellId0 | .pcellId1 | .pcellId2 | .pcellId3 => 0

/-- A read of SSPDR: the receive FIFO's head, which is removed, or a draw if the FIFO is empty
(40_register_access.md R72). -/
def State.readData (s : State) : Word × State :=
  match s.block.rxq with
  | w :: rest => (w.setWidth 32, { s with block := { s.block with rxq := rest } })
  | [] => ((Config.freeRead s.env.draws).setWidth 32, { s with env := s.env.bump })

/-- A read of a side-effect-free register: its state, with its reserved bits 0 or drawn (40_register_access.md
R71). -/
def State.readPlain (s : State) (r : Reg) : Word × State :=
  match s.params.reservedRead with
  | .zero => (s.regState r, s)
  | .any => (s.regState r ||| (Config.freeReserved s.env.draws &&& r.reservedMask), { s with env := s.env.bump })

/-- `Reg(off)`: a host read of a register (00_scope.md R14, 40_register_access.md R71 to R74). -/
def State.regRead (s : State) (r : Reg) : Word × State :=
  if r = .dr then s.readData else s.readPlain r

/-- The block after a write of SSPICR: a 1 in RTIC or RORIC clears that latch (40_register_access.md R80). -/
def Block.clearLatches (b : Block) (v : Word) : Block :=
  { b with rtLatch := b.rtLatch && !v.getLsbD 1, rorLatch := b.rorLatch && !v.getLsbD 0 }

/-- `RegWrite(off, v)`: a host write of a register (40_register_access.md R75 to R81); reserved bits of `v` are ignored
(10_state.md R26). A change of SSPCR0 or SSPCR1 may move the select line. The read-only registers, which the
access check has already refused, are refused again (DESIGN CHOICE, log entry 20). -/
def State.regWrite (s : State) (r : Reg) (v : Word) : Eff State :=
  match r with
  | .cr0 =>
    if s.block.sse then .error (.fault (.configWhileEnabled 0x000))
    else .ok (s.settleSelect { s with block := { s.block with cr0 := v.setWidth 16 } })
  | .cr1 =>
    if s.block.sse && v.getLsbD 2 != s.block.ms then .error (.fault (.configWhileEnabled 0x004))
    else .ok (s.settleSelect { s with block := { s.block with cr1 := v.setWidth 4 } })
  | .dr =>
    if Config.fifoDepth ≤ s.block.txq.length then .error (.fault .txOverflow)
    else .ok { s with block := { s.block with txq := s.block.txq ++ [v.setWidth 16] } }
  | .cpsr =>
    if s.block.sse then .error (.fault (.configWhileEnabled 0x010))
    else .ok { s with block := { s.block with cpsdvsr := v.setWidth 8 &&& 0xFE } }
  | .imsc => .ok { s with block := { s.block with imsc := v.setWidth 4 } }
  | .icr => .ok { s with block := s.block.clearLatches v }
  | .dmacr => .ok { s with block := { s.block with dmacr := v.setWidth 2 } }
  | .sr => .error (.fault (.busError 0x00C .direction))
  | .ris => .error (.fault (.busError 0x018 .direction))
  | .mis => .error (.fault (.busError 0x01C .direction))
  | .periphId0 => .error (.fault (.busError 0xFE0 .direction))
  | .periphId1 => .error (.fault (.busError 0xFE4 .direction))
  | .periphId2 => .error (.fault (.busError 0xFE8 .direction))
  | .periphId3 => .error (.fault (.busError 0xFEC .direction))
  | .pcellId0 => .error (.fault (.busError 0xFF0 .direction))
  | .pcellId1 => .error (.fault (.busError 0xFF4 .direction))
  | .pcellId2 => .error (.fault (.busError 0xFF8 .direction))
  | .pcellId3 => .error (.fault (.busError 0xFFC .direction))

/-! ### The register effects of the host operations, without their `pc` update -/

/-- The effect of `RD` on the block, and the value read (40_register_access.md R64). -/
def State.readEffect (s : State) (off : Offset) : Eff (Word × State) := do
  let r ← s.accessCheck off .read
  return s.regRead r

/-- The effect of `WR` (40_register_access.md R65). -/
def State.writeEffect (s : State) (off : Offset) (v : Word) : Eff State := do
  let r ← s.accessCheck off .write
  s.regWrite r v

/-- A read without side effects, as `RDM` and `WAIT` perform it (40_register_access.md R66, R68). -/
def State.maskedReadEffect (s : State) (off : Offset) (m : Word) : Eff (Word × State) := do
  let r ← s.accessCheck off .readNoSide
  return ((s.regRead r).1 &&& m, (s.regRead r).2)

/-- The effect of `WRM`: one atomic masked update of the stored value (40_register_access.md R67, 20_memory.md R48). -/
def State.maskedWriteEffect (s : State) (off : Offset) (v m : Word) : Eff State := do
  let r ← s.accessCheck off .writeNoSide
  s.regWrite r ((s.regState r &&& ~~~m) ||| (v &&& m))

end Sys2Proof.Machine
end

