-- ==== Sys2Proof/Machine/Composite.lean ====
section
/-! DEFINITION. The composite operations CONFIG, XFER and READCH (44_operations.md R133 to R146). The meaning of each is
step 0 of its expansion, which checks and sets up the micro-cursor; `continueComposite` is one later step. While an
expansion runs `pc` stays at the operation's word (10_state.md R20, R21). -/

namespace Sys2Proof.Machine

/-- Go on to the next step of an expansion, with new temporaries. -/
def State.toStep (s : State) (c : Composite) (k : Nat) : State := { s with cursor := some { op := c, step := k } }

/-- The end of an expansion: no micro-cursor, and `pc` past the operation's word. -/
def State.endComposite (s : State) : State := { s with cursor := none }.advance 1

/-! ### CONFIG -/

/-- Whether a transfer is in flight (44_operations.md R137). -/
def Block.inFlight (b : Block) : Bool := b.outOfReset && (!b.txq.isEmpty || !b.rxq.isEmpty)

/-- `ConfigCheck`: the divider setting, or the first failing check in the order of 44_operations.md R134. -/
def State.configCheck (s : State) (b : Word) (bus mode : BitVec 2) (ord : BitOrder) (wid : BitVec 5) : Eff DividerSetting :=
  if Config.nInstances ≤ bus.toNat then .error (.fault (.contractViolation .bus))
  else if wid.toNat < Config.widthMin || Config.widthMax < wid.toNat then .error (.fault (.contractViolation .width))
  else if ord = .lsbFirst then .error (.fault (.contractViolation .order))
  else if mode = 3 || (mode ≠ 0 && s.params.variant = .base) then .error (.fault (.contractViolation .mode))
  else
    match dividerSearch s.params b.toNat with
    | none => .error (.fault (.contractViolation .baud))
    | some r =>
      if bus ≠ s.params.busId then .error (.fault (.refused .otherInstance))
      else if s.block.inFlight then .error (.fault .inFlightReconfigure)
      else .ok r

/-- Step 0 of `CONFIG` (44_operations.md R133). -/
def configStart (d a : HIdx) (bus mode : BitVec 2) (ord : BitOrder) (wid : BitVec 5) (s : State) : Eff State := do
  let b ← s.readH a
  let r ← s.configCheck b bus mode ord wid
  return s.toStep (.config d mode wid
    { prescale := r.prescale, postdiv := r.postdiv, achieved := r.achieved, enable := false }) 1

/-- The value of the format update (44_operations.md R135). -/
def formatValue (v : BuildVariant) (mode : BitVec 2) (wid : BitVec 5) : Word :=
  match v with
  | .extended => (wid.setWidth 32 - 1) ||| (mode.setWidth 32 <<< 4)
  | .base => wid.setWidth 32 - 1

/-- The mask of the format update (44_operations.md R135). -/
def formatMask : BuildVariant → Word
  | .extended => 0x00FF
  | .base => 0x00CF

/-- A step of an expansion that is a register effect and then goes on to step `k`. -/
def thenStep (c : Composite) (k : Nat) (e : Eff State) : Eff State := do
  let s1 ← e
  return s1.toStep c k

/-- Steps 1 to 10 of `CONFIG` (44_operations.md R133), step 4 with its access check (DEDUCED, log entry 21). A step index
outside them, which no run reaches, holds (DESIGN CHOICE, log entry 16). -/
def configStep (d : HIdx) (mode : BitVec 2) (wid : BitVec 5) (t : ConfigTemps) (s : State) (k : Nat) : Eff State :=
  let c := Composite.config d mode wid t
  match k with
  | 1 => .ok (s.assertReset.toStep c 2)
  | 2 => .ok (s.releaseReset.toStep c 3)
  | 3 => if s.block.rstDone then .ok (s.toStep c 4) else .error .hold
  | 4 => thenStep c 5 (s.writeEffect 0x010 (BitVec.ofNat 32 t.prescale))
  | 5 => thenStep c 6 (s.maskedWriteEffect 0x000 (BitVec.ofNat 32 (t.postdiv - 1) <<< 8) 0xFF00)
  | 6 => thenStep (.config d mode wid { t with enable := s.block.sse }) 7 (s.maskedWriteEffect 0x004 0 0x2)
  | 7 => thenStep c 8 (s.maskedWriteEffect 0x000 (formatValue s.params.variant mode wid) (formatMask s.params.variant))
  | 8 => thenStep c 9 (s.maskedWriteEffect 0x004 ((BitVec.ofBool t.enable).setWidth 32 <<< 1) 0x2)
  | 9 => thenStep c 10 (s.maskedWriteEffect 0x024 0x3 0x3)
  | 10 => do
    let s1 ← s.maskedWriteEffect 0x004 0x2 0x2
    return (s1.setH d (BitVec.ofNat 32 t.achieved)).endComposite
  | _ => .error .hold

/-! ### XFER -/

/-- Step `k` of a transfer, for `k` from 1 to `2N`: the writes of the transmit words, then the reads of the received
ones, each of which holds while the receive FIFO is empty (44_operations.md R139). -/
def transferStep (t : XferTemps) (s : State) (k : Nat) : Eff (XferTemps × State) :=
  if k ≤ t.tx.length then do
    let s1 ← s.writeEffect 0x008 (t.tx.getD (k - 1) 0)
    return (t, s1)
  else if s.block.rxq.isEmpty then .error .hold
  else do
    let (v, s1) ← s.readEffect 0x008
    return ({ t with rx := t.rx ++ [v] }, s1)

/-- Whether step `k` of a transfer is its last (44_operations.md R139). -/
def XferTemps.lastStep (t : XferTemps) (k : Nat) : Bool := k == 2 * t.tx.length

/-- Step 0 of `XFER`: snapshot the transmit words (44_operations.md R139). A count or range that fails 30_encoding.md R62
is an illegal word (R63), which the decoder has already refused (DEDUCED, log entry 19). -/
def xferStart (d a : HIdx) (n : BitVec 4) (s : State) : Eff State :=
  if xferLegal d a n then do
    let tx ← s.readRange a.val n.toNat
    return s.toStep (.xfer d { tx := tx, rx := [] }) 1
  else .error (.fault (.illegalOperation s.pc (some (Instr.xfer d a n).firstWord)))

/-- Steps 1 to `2N` of `XFER`; the received words are written to `H` after the last (44_operations.md R139). -/
def xferStep (d : HIdx) (t : XferTemps) (s : State) (k : Nat) : Eff State := do
  let (t1, s1) ← transferStep t s k
  if t.lastStep k then return { s1 with h := setRange s1.h d.val t1.rx }.endComposite
  else return s1.toStep (.xfer d t1) (k + 1)

/-! ### READCH -/

/-- `Variant()`: the codec variant of the current configuration (44_operations.md R143). -/
def Block.codecVariant (b : Block) : Option CodecVariant :=
  if b.dss = 9 && b.frf = 0 then some .wide
  else if b.dss = 11 && (b.frf = 1 || b.frf = 2) then some .narrow
  else none

/-- Step 0 of `READCH` (44_operations.md R142). -/
def readchStart (d a : HIdx) (s : State) : Eff State := do
  let ch ← s.readH a
  if !s.block.outOfReset then throw (.fault (.inResetAccess 0x000))
  else
    match s.block.codecVariant with
    | none => throw (.fault (.noCodecVariant s.block.cr0))
    | some v => return s.toStep (.readch d v ch 0 { tx := [], rx := [] }) 1

/-- A step of the transfer inside `READCH`, which begins at step `base` of the expansion. -/
def readchTransfer (d : HIdx) (v : CodecVariant) (ch cmd : Word) (t : XferTemps) (base : Nat) (s : State) (k : Nat) : Eff State := do
  let (t1, s1) ← transferStep t s (k - base)
  return s1.toStep (.readch d v ch cmd t1) (k + 1)

/-- The last step of `READCH`: the sample is written and the expansion ends (44_operations.md R142). -/
def readchEnd (d : HIdx) (sample : Word) (s : State) : State := (s.setH d sample).endComposite

/-- Steps 1 to 13 of `READCH` in the wide variant: ENCW, DELAY, SELL, DELAY, the five steps of a 2-word transfer, DELAY,
SELH, DELAY, DECW (44_operations.md R144, 70_reset_and_hazards.md R194). -/
def readchWideStep (d : HIdx) (ch cmd : Word) (t : XferTemps) (s : State) (k : Nat) : Eff State :=
  let c := Composite.readch d .wide ch cmd t
  match k with
  | 1 => .ok (s.toStep (.readch d .wide ch (wideCommand ch) t) 2)
  | 2 => .ok (s.toStep c 3)
  | 3 => .ok ((s.driveSelect false).toStep c 4)
  | 4 => .ok (s.toStep c 5)
  | 5 => .ok (s.toStep (.readch d .wide ch cmd { tx := [cmd, 0], rx := [] }) 6)
  | 6 => readchTransfer d .wide ch cmd t 5 s 6
  | 7 => readchTransfer d .wide ch cmd t 5 s 7
  | 8 => readchTransfer d .wide ch cmd t 5 s 8
  | 9 => readchTransfer d .wide ch cmd t 5 s 9
  | 10 => .ok (s.toStep c 11)
  | 11 => .ok ((s.driveSelect true).toStep c 12)
  | 12 => .ok (s.toStep c 13)
  | 13 => .ok (readchEnd d (wideSample (t.rx.getD 0 0) (t.rx.getD 1 0)) s)
  | _ => .error .hold

/-- Steps 1 to 5 of `READCH` in the narrow variant: ENCN, the three steps of a 1-word transfer, DECN; the select line is
the peripheral's (44_operations.md R145, 70_reset_and_hazards.md R194). -/
def readchNarrowStep (d : HIdx) (ch cmd : Word) (t : XferTemps) (s : State) (k : Nat) : Eff State :=
  match k with
  | 1 => .ok (s.toStep (.readch d .narrow ch (narrowCommand ch) t) 2)
  | 2 => .ok (s.toStep (.readch d .narrow ch cmd { tx := [cmd], rx := [] }) 3)
  | 3 => readchTransfer d .narrow ch cmd t 2 s 3
  | 4 => readchTransfer d .narrow ch cmd t 2 s 4
  | 5 => .ok (readchEnd d (narrowSample (t.rx.getD 0 0)) s)
  | _ => .error .hold

/-! ### The meanings -/

/-- `CONFIG`: step 0, the checks and the divider search (44_operations.md R133, R134). -/
def execConfig (d a : HIdx) (bus mode : BitVec 2) (ord : BitOrder) (wid : BitVec 5) (s : State) : Host.Outcome State Fault Refusal :=
  finish s (configStart d a bus mode ord wid s)

/-- `XFER`: step 0, the snapshot of the transmit words (44_operations.md R139). -/
def execXfer (d a : HIdx) (n : BitVec 4) (s : State) : Host.Outcome State Fault Refusal := finish s (xferStart d a n s)

/-- `READCH`: step 0, the channel and the codec variant (44_operations.md R142). -/
def execReadch (d a : HIdx) (s : State) : Host.Outcome State Fault Refusal := finish s (readchStart d a s)

/-- The effect of the next step of the composite operation in progress (41_platform_ports.md R93). -/
def compositeStep (c : Cursor) (s : State) : Eff State :=
  match c.op with
  | .config d mode wid t => configStep d mode wid t s c.step
  | .xfer d t => xferStep d t s c.step
  | .readch d .wide ch cmd t => readchWideStep d ch cmd t s c.step
  | .readch d .narrow ch cmd t => readchNarrowStep d ch cmd t s c.step

/-- The next step of the composite operation in progress. -/
def continueComposite (c : Cursor) (s : State) : Host.Outcome State Fault Refusal := finish s (compositeStep c s)

end Sys2Proof.Machine
end

