-- ==== Sys2Proof/Machine/Ports.lean ====
section
/-! DEFINITION. The meanings of the port family: RSTA, RSTR, RSTW, SELL, SELH, SELFN, DELAY and HALT
(41_platform_ports.md R83 to R92). All are legal in any block state and raise no fault. -/

namespace Sys2Proof.Machine

/-- `RSTA`: assert hold-in-reset (41_platform_ports.md R83). -/
def execRsta (s : State) : Host.Outcome State Fault Refusal := finish s (.ok (s.assertReset.advance 1))

/-- `RSTR`: release reset (41_platform_ports.md R84). -/
def execRstr (s : State) : Host.Outcome State Fault Refusal := finish s (.ok (s.releaseReset.advance 1))

/-- `RSTW`: wait for the reset acknowledgement; there is no timeout (41_platform_ports.md R85). -/
def execRstw (s : State) : Host.Outcome State Fault Refusal :=
  finish s (if s.block.rstDone then .ok (s.advance 1) else .error .hold)

/-- `SELL`: drive the software select line low (41_platform_ports.md R87). -/
def execSell (s : State) : Host.Outcome State Fault Refusal := finish s (.ok ((s.driveSelect false).advance 1))

/-- `SELH`: drive the software select line high (41_platform_ports.md R88). -/
def execSelh (s : State) : Host.Outcome State Fault Refusal := finish s (.ok ((s.driveSelect true).advance 1))

/-- `SELFN GPIO|PERIPH`: set the select pin's function (41_platform_ports.md R89). -/
def execSelfn (f : SelFn) (s : State) : Host.Outcome State Fault Refusal := finish s (.ok ((s.setSelfn f).advance 1))

/-- `DELAY n`: no state change but `pc`, since the model has no time (41_platform_ports.md R90); `n` matters to the
load check only (R91). -/
def execDelay (_n : BitVec 16) (s : State) : Host.Outcome State Fault Refusal := finish s (.ok (s.advance 1))

/-- `HALT`: end the program; `pc` stays at the `HALT` word (41_platform_ports.md R92). -/
def execHalt (s : State) : Host.Outcome State Fault Refusal := finish s (.ok { s with halted := true })

end Sys2Proof.Machine
end

