-- ==== Sys2Proof/Machine/RegisterAccess.lean ====
section
/-! DEFINITION. The meanings of the register-access family: RD, WR, RDM, WRM, WAIT and LI
(40_register_access.md R64 to R69). Scratch operands are read before the access check (R70). -/

namespace Sys2Proof.Machine

/-- `RD hD, OFF`: read one register (40_register_access.md R64). -/
def execRd (d : HIdx) (off : Offset) (s : State) : Host.Outcome State Fault Refusal :=
  finish s do
    let (v, s1) ← s.readEffect off
    return (s1.setH d v).advance 1

/-- `WR OFF, hA`: write one register (40_register_access.md R65). -/
def execWr (off : Offset) (a : HIdx) (s : State) : Host.Outcome State Fault Refusal :=
  finish s do
    let v ← s.readH a
    let s1 ← s.writeEffect off v
    return s1.advance 1

/-- `RDM hD, OFF, hB`: masked read (40_register_access.md R66). -/
def execRdm (d : HIdx) (off : Offset) (b : HIdx) (s : State) : Host.Outcome State Fault Refusal :=
  finish s do
    let m ← s.readH b
    let (v, s1) ← s.maskedReadEffect off m
    return (s1.setH d v).advance 1

/-- `WRM OFF, hA, hB`: masked write of value `H[A]` under mask `H[B]` (40_register_access.md R67). -/
def execWrm (off : Offset) (a b : HIdx) (s : State) : Host.Outcome State Fault Refusal :=
  finish s do
    let (v, m) ← s.readH2 a b
    let s1 ← s.maskedWriteEffect off v m
    return s1.advance 1

/-- `WAIT OFF, hA, hB`: hold until the register under mask `H[B]` is `H[A]` (40_register_access.md R68). -/
def execWait (off : Offset) (a b : HIdx) (s : State) : Host.Outcome State Fault Refusal :=
  finish s do
    let (v, m) ← s.readH2 a b
    let (x, s1) ← s.maskedReadEffect off m
    if x = v then return s1.advance 1 else throw .hold

/-- `LI hD, imm32`: load the word after the operation word (40_register_access.md R69). -/
def execLi (d : HIdx) (imm : Word) (s : State) : Host.Outcome State Fault Refusal :=
  finish s (.ok ((s.setH d imm).advance 2))

end Sys2Proof.Machine
end

