-- ==== Sys2Proof/Machine/Engine.lean ====
section
/-! DEFINITION. The Engine's three steps (42_serial_engine.md R103, R113, R114) and the MCP3208 on the wire
(60_exceptions.md R163 to R169). A frame is one atomic step (R38, R100; DEDUCED, log entry 22). Bits are lists, first clock first, true
for 1. -/

namespace Sys2Proof.Machine

/-! ### The device -/

/-- The number formed by bits, most significant first (42_serial_engine.md R110). -/
def bitsToNat (bs : List Bool) : Nat := bs.foldl (fun n b => 2 * n + b.toNat) 0

/-- What the device latches at its `k`-th rising edge, with `x` on its input (60_exceptions.md R164): the start bit, the
mode bit, the channel bits, and at the last of them the conversion value. -/
def latchBit (k : Nat) (x : Bool) (s : Option Nat) (sgl : Option Bool) (dch : List Bool) (v : Option (BitVec 12)) (e : Env) : Dev × Env :=
  match s with
  | none => (.sel k (if x then some k else none) sgl dch v, e)
  | some s0 =>
    if k = s0 + 1 then (.sel k (some s0) (some x) dch v, e)
    else if k = s0 + 2 || k = s0 + 3 then (.sel k (some s0) sgl (dch ++ [x]) v, e)
    else if k = s0 + 4 then
      let (w, e1) := e.drawSample (BitVec.ofNat 3 (bitsToNat (dch ++ [x]))) (sgl.getD false)
      (.sel k (some s0) sgl (dch ++ [x]) (some w), e1)
    else (.sel k (some s0) sgl dch v, e)

/-- What a sampler reads at the device's `k`-th rising edge: the null bit at `s + 6`, `V[11 - j]` at `s + 7 + j` for `j` from
0 to 11, a draw otherwise (60_exceptions.md R166). -/
def outputBit (k : Nat) (s : Option Nat) (v : Option (BitVec 12)) (e : Env) : Bool × Env :=
  match s with
  | none => e.drawBit
  | some s0 =>
    if k = s0 + 6 then (false, e)
    else if s0 + 7 ≤ k && k ≤ s0 + 18 then
      match v with
      | some w => (w.getLsbD (11 - (k - (s0 + 7))), e)
      | none => e.drawBit
    else e.drawBit

/-- One rising edge of `sclk` at the device, in a clean frame: the bit it returns, and its new state (60_exceptions.md
R164, R166, R168). -/
def Dev.edge (d : Dev) (x : Bool) (e : Env) : Bool × Dev × Env :=
  match d with
  | .off => (e.drawBit.1, .off, e.drawBit.2)
  | .unknown => (e.drawBit.1, .unknown, e.drawBit.2)
  | .sel k s sgl dch v =>
    let (b, e1) := outputBit (k + 1) s v e
    let (d1, e2) := latchBit (k + 1) x s sgl dch v e1
    (b, d1, e2)

/-- The edges of a clean frame, one for each clock (60_exceptions.md R168). -/
def Dev.edges (d : Dev) (e : Env) : List Bool → List Bool × Dev × Env
  | [] => ([], d, e)
  | x :: xs =>
    let (b, d1, e1) := d.edge x e
    let (bs, d2, e2) := Dev.edges d1 e1 xs
    (b :: bs, d2, e2)

/-- The device before the first clock of a frame (60_exceptions.md R169): untouched with the software select line; newly
selected with the hardware one, but for a Motorola SPH = 1 frame that finds it `Unknown`. -/
def State.devBefore (s : State) : Dev :=
  match s.selfn with
  | .gpio => s.dev
  | .periph => if s.block.frf = 0#2 && s.block.sph && s.dev = .unknown then .unknown else .fresh

/-- The device after the last clock of a frame that left it `d` (60_exceptions.md R169): with the hardware select line
`Off` after Motorola SPH = 0 and Microwire, `Unknown` after Motorola SPH = 1, as the frame left it after TI. -/
def State.devAfter (s : State) (d : Dev) : Dev :=
  match s.selfn with
  | .gpio => d
  | .periph =>
    if s.block.frf = 0#2 then (if s.block.sph then .unknown else .off)
    else if s.block.frf = 2#2 then .off
    else d

/-- The device after an unclean frame: `Unknown` if it was selected (60_exceptions.md R168). -/
def Dev.blur : Dev → Dev
  | .off => .off
  | .unknown => .unknown
  | .sel _ _ _ _ _ => .unknown

/-- Whether a frame is clean: the block samples on rising edges, as the device expects (60_exceptions.md R168). -/
def Block.cleanFrame (b : Block) : Bool := b.samplesRising

/-- `Wire(mosi, C)`: the bits the wire returns for one frame, and the device and environment after it
(42_serial_engine.md R112, 60_exceptions.md R168, R169). -/
def State.wireFrame (s : State) (mosi : List Bool) : List Bool × Dev × Env :=
  if !s.params.devicePresent then
    let (bs, e) := s.env.drawBits mosi.length
    (bs, s.dev, e)
  else if s.block.cleanFrame then
    let (bs, d, e) := s.devBefore.edges s.env mosi
    (bs, s.devAfter d, e)
  else
    let (bs, e) := s.env.drawBits mosi.length
    (bs, s.devAfter s.devBefore.blur, e)

/-! ### The frame step -/

/-- `FrameCheck()`: the first reason a frame may not start, in the order of 42_serial_engine.md R104. -/
def Block.frameCheck (b : Block) : Option FrameReason :=
  if b.ms then some .slave
  else if b.cpsdvsr.toNat < 2 then some .prescale
  else if b.dss.toNat < 3 then some .dss
  else if b.frf = 3#2 then some .frf
  else if b.lbm && b.frf = 2#2 then some .loopback
  else none

/-- Bits `n - 1` down to 0 of a word, most significant first. -/
def wordBits (w : Half) (n : Nat) : List Bool := (List.range n).map fun i => w.getLsbD (n - 1 - i)

/-- The bits on `txd` during a frame (42_serial_engine.md R103, R108): the low `N` bits of the word; in Microwire the low
8 bits, then 0 for the turnaround and the reply. -/
def Block.frameBits (b : Block) (hd : Half) : List Bool :=
  if b.frf = 2#2 then wordBits hd 8 ++ List.replicate (1 + b.width) false else wordBits hd b.width

/-- The bits the block samples of those on `rxd` (42_serial_engine.md R103): all, or in Microwire those after clock 9. -/
def Block.sampledBits (b : Block) (miso : List Bool) : List Bool := if b.frf = 2#2 then miso.drop 9 else miso

/-- The received word, assembled most significant bit first and zero-extended (42_serial_engine.md R103, R110). -/
def Block.receivedWord (b : Block) (miso : List Bool) : Half := BitVec.ofNat 16 (bitsToNat (b.sampledBits miso))

/-- The block after a frame that received `r`: the word is queued, or lost with the overrun latched
(42_serial_engine.md R103, R111). -/
def Block.receive (b : Block) (r : Half) : Block :=
  if b.rxq.length < Config.fifoDepth then { b with rxq := b.rxq ++ [r] } else { b with rorLatch := true }

/-- One frame that sends `hd`, already taken from the transmit FIFO (42_serial_engine.md R103). In loopback the block reads
its own output; the device sees the frame all the same (DEDUCED, log entry 10). -/
def State.sendFrame (s : State) (hd : Half) : State :=
  let mosi := s.block.frameBits hd
  let (wire, d, e) := s.wireFrame mosi
  let miso := if s.block.lbm then mosi else wire
  { s with block := s.block.receive (s.block.receivedWord miso), dev := d, env := e }

/-- The frame step's effect: it is enabled out of reset with SSE = 1 and a word to send; a configuration no source
defines faults and leaves the word in the FIFO (42_serial_engine.md R103, R104, 60_exceptions.md R161). Where it is not
enabled the Engine has no step and nothing changes. -/
def State.frameStep (s : State) : State :=
  if s.block.outOfReset && s.block.sse then
    match s.block.txq with
    | [] => s
    | hd :: rest =>
      match s.block.frameCheck with
      | some r => s.raise .engine (.invalidFrameConfig r)
      | none => State.sendFrame { s with block := { s.block with txq := rest } } hd
  else s

/-! ### The timeout steps -/

/-- Whether the receive-timeout step is enabled (42_serial_engine.md R113). -/
def Block.timeoutEnabled (b : Block) : Bool :=
  b.outOfReset && !b.rxq.isEmpty && !b.rtLatch && (b.txq.isEmpty || !b.sse)

/-- The receive-timeout step (42_serial_engine.md R113). -/
def State.timeoutStep (s : State) : State :=
  if s.block.timeoutEnabled then { s with block := { s.block with rtLatch := true } } else s

/-- Whether the timeout-clear step is enabled (42_serial_engine.md R114). -/
def Block.timeoutClearEnabled (b : Block) : Bool := b.rxq.isEmpty && b.rtLatch

/-- The timeout-clear step (42_serial_engine.md R114). -/
def State.timeoutClearStep (s : State) : State :=
  if s.block.timeoutClearEnabled then { s with block := { s.block with rtLatch := false } } else s

/-- Whether the frame step is enabled (42_serial_engine.md R103). -/
def Block.frameEnabled (b : Block) : Bool := b.outOfReset && b.sse && !b.txq.isEmpty

end Sys2Proof.Machine
end

