-- ==== Sys2Proof/Machine/WireWords.lean ====
section
/-! DEFINITION. The meanings of the two MCP3208 command words (30_encoding.md R202, R203). They are not host operations:
the agent that carries them out is the Engine, which sends the word, with the device that decodes it. Fetched as a
host operation either word is an illegal word (R63), which is what `decode` says of it. -/

namespace Sys2Proof.Machine

/-- The Engine's frame step with `w` at the head of the transmit FIFO (42_serial_engine.md R103; DESIGN CHOICE, log entry 9). -/
def State.sendWord (w : Word) (s : State) : State :=
  State.frameStep { s with block := { s.block with txq := w.setWidth 16 :: s.block.txq } }

/-- The wide-word command word of a channel goes out as one frame (30_encoding.md R202). -/
def execMcpCmdWide (ch : BitVec 3) (s : State) : Host.Outcome State Fault Refusal :=
  .next (s.sendWord (wideCommand (ch.setWidth 32)))

/-- The narrow-word command word of a channel goes out as one frame (30_encoding.md R203). -/
def execMcpCmdNarrow (ch : BitVec 3) (s : State) : Host.Outcome State Fault Refusal :=
  .next (s.sendWord (narrowCommand (ch.setWidth 32)))

end Sys2Proof.Machine
end

