-- ==== Sys2Proof/Machine/Dispatch.lean ====
section
/-! DEFINITION. The meaning of every operation: one arm for each constructor of `Instr`. -/

namespace Sys2Proof.Machine

def exec (i : Instr) (s : State) : Host.Outcome State Fault Refusal :=
  match i with
  | .rd d off => Sys2Proof.Machine.execRd d off s
  | .wr off a => Sys2Proof.Machine.execWr off a s
  | .rdm d off b => Sys2Proof.Machine.execRdm d off b s
  | .wrm off a b => Sys2Proof.Machine.execWrm off a b s
  | .wait off a b => Sys2Proof.Machine.execWait off a b s
  | .li d imm => Sys2Proof.Machine.execLi d imm s
  | .rsta => Sys2Proof.Machine.execRsta s
  | .rstr => Sys2Proof.Machine.execRstr s
  | .rstw => Sys2Proof.Machine.execRstw s
  | .sell => Sys2Proof.Machine.execSell s
  | .selh => Sys2Proof.Machine.execSelh s
  | .selfn f => Sys2Proof.Machine.execSelfn f s
  | .delay n => Sys2Proof.Machine.execDelay n s
  | .halt => Sys2Proof.Machine.execHalt s
  | .encw d a => Sys2Proof.Machine.execEncw d a s
  | .encn d a => Sys2Proof.Machine.execEncn d a s
  | .decw d a b => Sys2Proof.Machine.execDecw d a b s
  | .decn d a => Sys2Proof.Machine.execDecn d a s
  | .config d a bus mode ord wid => Sys2Proof.Machine.execConfig d a bus mode ord wid s
  | .xfer d a n => Sys2Proof.Machine.execXfer d a n s
  | .readch d a => Sys2Proof.Machine.execReadch d a s
  | .mcpCmdWide ch => Sys2Proof.Machine.execMcpCmdWide ch s
  | .mcpCmdNarrow ch => Sys2Proof.Machine.execMcpCmdNarrow ch s

end Sys2Proof.Machine
end

