-- ==== Sys2Proof/Machine/Turn.lean ====
section
/-! DEFINITION. One turn of the machine: the host step (41_platform_ports.md R93) and the choice among the agents
(00_scope.md R15); and placing an instruction where the next turn carries it out. -/

namespace Sys2Proof.Machine

/-- The host step (41_platform_ports.md R93): none when halted, the next step of a composite in progress, else the
operation at `pc`. -/
def State.hostStep (s : State) : Host.Outcome State Fault Refusal :=
  if s.halted then .next s
  else
    match s.cursor with
    | some c => continueComposite c s
    | none =>
      match s.fetch with
      | .error k => .next (s.raise .host k)
      | .ok i => exec i s

/-- The step of an agent; an agent that has no step leaves the machine as it is (DESIGN CHOICE, log entry 2). -/
def State.moverStep (s : State) (m : Mover) : Host.Outcome State Fault Refusal :=
  match m with
  | .host => s.hostStep
  | .resetCtl => .next s.resetCtlStep
  | .engineFrame => .next s.frameStep
  | .engineTimeout => .next s.timeoutStep
  | .engineTimeoutClear => .next s.timeoutClearStep

/-- One step of the machine: none once a fault is on record (60_exceptions.md R162; DESIGN CHOICE, log entry 18), the load check before the first
step of a run (R177), else the turn of the agent that moves next. -/
def State.turn (s : State) : Host.Outcome State Fault Refusal :=
  match s.faults with
  | r :: _ => .fault (.stopped r)
  | [] => if s.checked then s.afterTurn.moverStep s.nextMover else .next s.loadCheck

/-- The state in which the next turn is the host's and the words at `pc` are `ws`: the program is loaded and checked,
the host is at an operation's beginning and nothing has faulted (DESIGN CHOICE, log entry 6). -/
def State.placeOperation (s : State) (ws : List Word) : State :=
  { s with
    prog := placeWords s.prog s.pc ws
    checked := true
    cursor := none
    halted := false
    faults := []
    env := { s.env with sched := .host :: s.env.sched } }

/-- The state in which the next turn is the Engine's frame step and the word it sends is `w`: the block out of reset and
enabled with SSPCR0 = `cr0` and prescale 2, the device selected as the codec variant has it (DESIGN CHOICE, log entry 9). -/
def State.placeWireWord (s : State) (w : Word) (cr0 : BitVec 16) (f : SelFn) (cs : Bool) (d : Dev) : State :=
  { s with
    checked := true
    faults := []
    gpioCs := cs
    selfn := f
    dev := d
    block := { Block.reset with cr0 := cr0, cr1 := 0x2, cpsdvsr := 2, inReset := false, rstDone := true, txq := [w.setWidth 16] }
    env := { s.env with sched := .engineFrame :: s.env.sched } }

/-- Place the instruction of a table word where the next turn carries it out: a wire word at the head of the transmit
FIFO, anything else in the program store at `pc`. -/
def State.placeTableWord (s : State) (nbits w : Nat) : State :=
  match decodeTableWord nbits w with
  | some (.mcpCmdWide ch) => s.placeWireWord (wideCommand (ch.setWidth 32)) 0x0009 .gpio false .fresh
  | some (.mcpCmdNarrow ch) => s.placeWireWord (narrowCommand (ch.setWidth 32)) 0x002B .periph true .off
  | _ => s.placeOperation (tableWords nbits w)

end Sys2Proof.Machine
end

