-- ==== Sys2Proof/Machine/Step.lean ====
section
/-! DEFINITION. One step of the machine, and the placing of an instruction for it. Both call Machine/Turn.lean. -/

namespace Sys2Proof.Machine

/-- One step: the turn of the agent that moves next. -/
def step (s : State) : Host.Outcome State Fault Refusal := s.turn

/-- The state `s` with the instruction of a table word placed so that the very next step carries it out. -/
def State.withFetchWord (s : State) (nbits w : Nat) : State := s.placeTableWord nbits w

end Sys2Proof.Machine
end

