-- ==== Sys2Proof/Safety.lean ====
section
/-! DEFINITION. What claims are stated in terms of: runs, how a run ends (41_platform_ports.md R94), the fairness a claim
may assume (R86), and the invariants of the machine. -/

namespace Sys2Proof.Machine

/-! ### Runs and their ends -/

/-- An infinite run of the machine. -/
def IsRun (run : Nat → State) : Prop := ∀ n, step (run n) = .next (run (n + 1))

/-- `RESET_ACK_FAIR`: the ResetCtl step is not enabled for ever without being taken (41_platform_ports.md R86). -/
def ResetAckFair (run : Nat → State) : Prop := ∀ n, ∃ m, n ≤ m ∧ (run m).block.ackEnabled = false

/-- The host holds: it is not halted and its step changes nothing (00_scope.md R14, 41_platform_ports.md R93). -/
def State.HostHolds (s : State) : Prop := s.halted = false ∧ s.hostStep = .next s

/-- The host holds whatever is drawn: in every environment. -/
def State.HostStuck (s : State) : Prop := ∀ e : Env, State.HostHolds { s with env := e }

/-- Whether an agent other than the host has an enabled step. -/
def State.otherEnabled (s : State) : Bool :=
  s.block.frameEnabled || s.block.ackEnabled || s.block.timeoutEnabled || s.block.timeoutClearEnabled

/-- The run ended well: the program not refused, the host halted by `HALT`, no fault, no frame to send and no reset to
acknowledge (41_platform_ports.md R94; DEDUCED, log entry 17). -/
def State.endedWell (s : State) : Bool :=
  s.checked && s.halted && s.faults.isEmpty && !s.block.frameEnabled && !s.block.ackEnabled

/-- A deadlock: the host holds and no agent can step (41_platform_ports.md R94; DEDUCED, log entry 17). The host must hold whatever
is drawn: where a later draw could free it (a `WAIT` under `RESERVED_READ = ANY`) the state is no deadlock, and a run that waits
there for ever is a hang (DEDUCED, log entry 26). -/
def State.Deadlock (s : State) : Prop := s.faults = [] ∧ s.checked = true ∧ s.HostStuck ∧ s.otherEnabled = false

/-- The agent whose turn it is has an enabled step, so that the turn is a step of the hardware and not one that leaves the
machine as it is (00_scope.md R15, 41_platform_ports.md R86, R93, 42_serial_engine.md R103, R113, R114). The load check is
no agent's step, and a host that holds or is halted has none. -/
def State.AgentSteps (s : State) : Prop :=
  s.faults = [] ∧ s.checked = true ∧
    match s.nextMover with
    | .host => s.halted = false ∧ ¬ s.afterTurn.HostHolds
    | .resetCtl => s.block.ackEnabled = true
    | .engineFrame => s.block.frameEnabled = true
    | .engineTimeout => s.block.timeoutEnabled = true
    | .engineTimeoutClear => s.block.timeoutClearEnabled = true

/-- A run of the hardware that never stops: agents take steps for ever. -/
def StepsForever (run : Nat → State) : Prop := ∀ n, ∃ m, n ≤ m ∧ (run m).AgentSteps

/-- A run in which, from some turn on, the host has always another turn and holds at every turn of its own, and never
deadlocks: another agent does not end the wait, or the host's own draws never do (a `WAIT` under `RESERVED_READ = ANY`
that draws a hold at every try, 10_state.md R26, 40_register_access.md R68). The spec speaks of the waits that never end
(41_platform_ports.md R85, R86, 60_exceptions.md R178); that every such run is a hang, the one kept waiting by its draws alone
among them, is the model's reading (DEDUCED, log entry 26). -/
def WaitsForever (run : Nat → State) : Prop :=
  ∃ n, (∀ m, n ≤ m → ((run m).nextMover = .host → (run m).afterTurn.HostHolds) ∧ ¬ (run m).Deadlock) ∧
    ∀ k, ∃ m, k ≤ m ∧ (run m).nextMover = .host

/-- A hang: an infinite run, of steps or of waiting (41_platform_ports.md R94; DEDUCED, log entry 26). The turns of agents that
have no step do not make one: Laws/Safety.lean proves that a run which has ended well or deadlocked is no hang, and that a run
in which the host's turn always comes again is a hang unless it deadlocks or the host halts. -/
def Hang (run : Nat → State) : Prop := IsRun run ∧ (StepsForever run ∨ WaitsForever run)

/-! ### What statements say of a step -/

/-- The state with a fault on record and nothing else changed but the halt (60_exceptions.md R161). -/
def State.recorded (s : State) (x : Agent) (k : FaultKind) : State :=
  { s with faults := s.faults ++ [{ kind := k, agent := x, pc := s.pc }], halted := true }

/-- The register `r` is at the offset and the block is out of reset, so that only the access's kind can refuse it
(40_register_access.md R70). -/
def State.Accessible (s : State) (off : Offset) (r : Reg) : Prop :=
  regAt off = some r ∧ s.block.inReset = false ∧ s.block.rstDone = true

/-- No fault is on record, the program is checked, the host is neither halted nor inside a composite operation, and the
next turns' movers are `ms`: what a run of one operation begins with. -/
def State.Ready (s : State) (ms : List Mover) : Prop :=
  s.faults = [] ∧ s.checked = true ∧ s.halted = false ∧ s.cursor = none ∧ s.env.sched = ms

/-- `n` turns of the host. -/
def hosts (n : Nat) : List Mover := List.replicate n .host

/-- What follows the select line: the device of `s` when its select line goes to `cs` (60_exceptions.md R165), untouched if
no device is on the bus. -/
def State.devAt (s : State) (cs : Bool) : Dev :=
  if s.params.devicePresent = false then s.dev
  else if s.deviceCs = true ∧ cs = false then .sel 0 none none [] none
  else if s.deviceCs = false ∧ cs = true then .off
  else s.dev

/-- The block can send a word in a legal master configuration: out of reset, enabled, and none of the reasons of
42_serial_engine.md R104 applies. -/
def Block.CanSend (b : Block) : Prop :=
  b.inReset = false ∧ b.rstDone = true ∧ b.sse = true ∧ b.ms = false ∧ 2 ≤ b.cpsdvsr.toNat ∧ 3 ≤ b.dss.toNat
    ∧ b.frf ≠ 3 ∧ (b.lbm = true → b.frf ≠ 2)

/-- The value `v` is the conversion the environment gives for a channel in single-ended mode: the next one it has
ready, else a free value (60_exceptions.md R167). -/
def Env.Converts (e : Env) (ch : BitVec 3) (v : BitVec 12) : Prop :=
  match e.samples with
  | x :: _ => v = x
  | [] => ∃ n, v = Config.freeSample n ch true

/-- Whether the word at an index is the immediate of an `LI`, told from the operation codes before it (30_encoding.md R61;
DEDUCED, log entry 23). -/
def isImmediate (prog : List Word) : Nat → Bool
  | 0 => false
  | k + 1 => !isImmediate prog k && (prog[k]?.map fun w => opcField w == 0x06).getD false

/-- The word at an index is an operation, a `DELAY n` with `n` at least `SEL_DELAY_CYCLES` (41_platform_ports.md R91). -/
def SettlesAt (p : Params) (prog : List Word) (k : Nat) : Prop :=
  isImmediate prog k = false ∧ ∃ n : BitVec 16, p.selDelayCycles ≤ n.toNat ∧ prog[k]? = some (Instr.delay n).firstWord

/-- The word at an index is an operation, a `SELL` or `SELH` that is not both immediately preceded and immediately followed by
such a `DELAY` (41_platform_ports.md R91, 60_exceptions.md R177). -/
def BreaksSettling (p : Params) (prog : List Word) (k : Nat) : Prop :=
  isImmediate prog k = false ∧ (prog[k]? = some Instr.sell.firstWord ∨ prog[k]? = some Instr.selh.firstWord) ∧
    ¬ (1 ≤ k ∧ SettlesAt p prog (k - 1) ∧ SettlesAt p prog (k + 1))

/-- The device once `SELL` or `SELH` has driven the select pin to a level: with the pin a general-purpose output a fall selects
it afresh and a rise turns it off (60_exceptions.md R165); with no device on the bus it is untouched (DEDUCED, log entry
12). -/
def State.devDriven (s : State) (level : Bool) : Dev :=
  if s.params.devicePresent = true ∧ s.selfn = .gpio ∧ s.gpioCs ≠ level then
    (if level = true then .off else .sel 0 none none [] none)
  else s.dev

/-! ### Invariants -/

/-- The block: the FIFO bounds (10_state.md R37), the prescale's bit 0 (R33), the acknowledgement coming after the
release (R24), and every register, FIFO and latch at its reset value until then (R24, 40_register_access.md R70). -/
structure Block.Inv (b : Block) : Prop where
  txBound : b.txq.length ≤ Config.fifoDepth
  rxBound : b.rxq.length ≤ Config.fifoDepth
  prescaleEven : b.cpsdvsr.getLsbD 0 = false
  ackAfterRelease : b.inReset = true → b.rstDone = false
  quietInReset : b.outOfReset = false → b = { Block.reset with inReset := b.inReset, rstDone := b.rstDone }

/-- The device agrees with the select line (60_exceptions.md R163, R165): it has a tracked position only while the line
is low, and is not off while it is low. -/
def State.DevInv (s : State) : Prop :=
  s.params.devicePresent = true →
    (s.deviceCs = true → s.dev.isSel = false) ∧ (s.deviceCs = false → s.dev ≠ .off)

/-- The micro-cursor points into its expansion, and the temporaries are those of that step (44_operations.md R133, R139,
R144, R145). From its second step on a `CONFIG` finds the block disabled with empty FIFOs, and from its fourth on
out of reset. -/
def Cursor.wf (c : Cursor) (b : Block) : Bool :=
  match c.op with
  | .config _ _ _ t =>
    1 ≤ c.step && c.step ≤ 10 && !t.enable
      && (c.step < 2 || (!b.sse && b.txq.isEmpty && b.rxq.isEmpty))
      && (c.step < 3 || !b.inReset) && (c.step < 4 || b.rstDone)
  | .xfer d t =>
    1 ≤ c.step && c.step ≤ 2 * t.tx.length && t.tx.length ≤ 8 && d.val + t.tx.length ≤ 8
      && t.rx.length == c.step - 1 - t.tx.length
  | .readch _ .wide _ _ t =>
    1 ≤ c.step && c.step ≤ 13 && (c.step < 6 || t.tx.length == 2)
      && t.rx.length == min 2 (c.step - 8)
  | .readch _ .narrow _ _ t =>
    1 ≤ c.step && c.step ≤ 5 && (c.step < 3 || t.tx.length == 1)
      && t.rx.length == min 1 (c.step - 4)

/-- The micro-cursor, where there is one, is well-formed. -/
def State.CursorInv (s : State) : Prop := ∀ c, s.cursor = some c → c.wf s.block = true

/-- A fault on record means the host is halted (60_exceptions.md R161). -/
def State.HaltInv (s : State) : Prop := s.faults ≠ [] → s.halted = true

end Sys2Proof.Machine
end

