-- ==== Sys2Proof/Certificates/Slice0/Obligations.lean ====
section
/-! DEFINITION. The statements for the provers, one `def Obligations.<Name> : Prop` each. Where a conclusion is an equation
`exec i s = .next t` with `t` written out as an update of `s`, it states the instruction's result, its completion and
its frame at once: every field of the state that the update does not name is unchanged. -/

open Sys2Proof Sys2Proof.Machine

/-! ### Encoding -/

/-- The operation words of 95_test_vectors.md V-E1 to V-E18 and others of its programs P1, P3, P4 and P5 decode as listed there,
the illegal ones by the reason given (30_encoding.md R57, R60, R62, R63). -/
def Obligations.SpecWordsDecode : Prop :=
  decode [0x00000000] = .error .reservedOpcode ∧ decode [0x1C000000] = .error .reservedOpcode ∧
  decode [0x34000002] = .error .mustBeZero ∧ decode [0x04001000] = .error .mustBeZero ∧
  decode [0x04100000] = .error .mustBeZero ∧ decode [0x60802801] = .error .mustBeZero ∧
  decode [0x64090000] = .error .illegalXferCount ∧ decode [0x67820000] = .error .illegalXferCount ∧
  decode [0x64000000] = .error .illegalXferCount ∧ decode [0x18000000] = .error .missingImmediate ∧
  decode [0x38000003] = .ok (.delay 3, []) ∧ decode [0x2C000000] = .ok (.sell, []) ∧
  decode [0x30000000] = .ok (.selh, []) ∧ decode [0x34000001] = .ok (.selfn .periph, []) ∧
  decode [0x0D840004] = .ok (.rdm 3 0x004 2, []) ∧ decode [0x65020000] = .ok (.xfer 2 0 2, []) ∧
  decode [0x60802800] = .ok (.config 1 0 0 0 .msbFirst 10, []) ∧
  decode [0x34000000] = .ok (.selfn .gpio, []) ∧ decode [0x60823000] = .ok (.config 1 0 0 2 .msbFirst 12, []) ∧
  decode [0x60832800] = .ok (.config 1 0 0 3 .msbFirst 10, []) ∧
  decode [0x6080A800] = .ok (.config 1 0 0 0 .lsbFirst 10, []) ∧
  decode [0x69A00000] = .ok (.readch 3 2, []) ∧ decode [0x18000000, 0x000F4240] = .ok (.li 0 1000000, []) ∧
  decode [0x1448000C] = .ok (.wait 0x00C 4 4, []) ∧ decode [0x0830_0008] = .ok (.wr 0x008 3, []) ∧
  decode [0x0680_0008] = .ok (.rd 5 0x008, []) ∧ decode [0x1038_0000] = .ok (.wrm 0x000 3 4, []) ∧
  decode [0x4AB80000] = .ok (.decw 5 3 4, []) ∧ decode [0x4F100000] = .ok (.decn 6 1, []) ∧
  decode [0x40800000] = .ok (.encw 1 0, []) ∧ decode [0x45000000] = .ok (.encn 2 0, [])

/-- Every well-formed host operation, with every operand at every value the encoding admits, decodes from its own words,
and the words after it are left (30_encoding.md R57 to R62). -/
def Obligations.DecodeOfEncode : Prop :=
  ∀ (i : Instr) (rest : List Word), i.isHostOp = true → i.WellFormed → decode (encode i ++ rest) = .ok (i, rest)

/-- Every word has one meaning: what decodes is a well-formed host operation whose row admits the word and whose own
encoding is the words it was read from (30_encoding.md R57, R60 to R63). -/
def Obligations.EncodeOfDecode : Prop :=
  ∀ (w : Word) (ws rest : List Word) (i : Instr), decode (w :: ws) = .ok (i, rest) →
    i.isHostOp = true ∧ i.WellFormed ∧ i.row.admits w = true ∧ encode i ++ rest = w :: ws

/-- A word that the row of a host operation admits decodes to an operation of that row, but for an `XFER` word whose count and
ranges break `1 ≤ N ≤ 8`, `A + N ≤ 8` and `D + N ≤ 8`, which is illegal (30_encoding.md R60, R62). -/
def Obligations.AdmittedWordsDecode : Prop :=
  ∀ (w imm : Word) (i : Instr), i.isHostOp = true → i.row.admits w = true →
    let n := (w.extractLsb' 16 4).toNat
    if i.row = (Instr.xfer 0 0 1).row ∧ ¬ (1 ≤ n ∧ n ≤ 8 ∧ (aField w).val + n ≤ 8 ∧ (dField w).val + n ≤ 8) then
      decode [w, imm] = .error .illegalXferCount
    else ∃ j rest, decode [w, imm] = .ok (j, rest) ∧ j.row = i.row

/-- At most one row of the opcode map, the two wire words among them, admits any word (30_encoding.md R60). -/
def Obligations.OpcodeRowsDisjoint : Prop :=
  ∀ (i j : Instr) (w : Word), i.row.admits w = true → j.row.admits w = true → i.row = j.row

/-- The two MCP3208 command words are the formulas of 30_encoding.md R202 and R203, are read back from the wire, and are
illegal as host operations (R63). -/
def Obligations.WireWordsEncode : Prop :=
  ∀ ch : BitVec 3,
    encode (.mcpCmdWide ch) = [0x180 ||| (ch.setWidth 32 <<< 4)] ∧
    encode (.mcpCmdNarrow ch) = [(ch.setWidth 32 <<< 1) ||| 0x30] ∧
    decodeWire (Instr.mcpCmdWide ch).firstWord = .ok (.mcpCmdWide ch) ∧
    decodeWire (Instr.mcpCmdNarrow ch).firstWord = .ok (.mcpCmdNarrow ch) ∧
    decode (encode (.mcpCmdWide ch)) = .error .reservedOpcode ∧
    decode (encode (.mcpCmdNarrow ch)) = .error .reservedOpcode

/-! ### Launch -/

/-- The launch state: the block held in reset with every register, FIFO and latch at its reset value, `gpio_cs` 1, `selfn`
GPIO, `pc` 0, every scratch register unwritten, no micro-cursor, not halted, no fault, the device off (10_state.md
R40). -/
def Obligations.LaunchState : Prop :=
  let s := State.reset
  (∀ i : HIdx, s.h[i] = .unwritten) ∧ s.pc = 0 ∧ s.cursor = none ∧ s.halted = false ∧ s.faults = [] ∧
  s.gpioCs = true ∧ s.selfn = .gpio ∧ s.dev = .off ∧
  s.block.cr0 = 0 ∧ s.block.cr1 = 0 ∧ s.block.cpsdvsr = 0 ∧ s.block.imsc = 0 ∧ s.block.dmacr = 0 ∧
  s.block.txq = [] ∧ s.block.rxq = [] ∧ s.block.rtLatch = false ∧ s.block.rorLatch = false ∧
  s.block.inReset = true ∧ s.block.rstDone = false

/-! ### The step -/

/-- A step is the turn of the agent that moves next, in the state whose schedule and draw counter this turn has advanced. On the
host's turn: the next step of the composite operation in progress; else, when the words at `pc` decode to an operation,
that operation's meaning (41_platform_ports.md R93, 00_scope.md R15). That the mover is read from the model's schedule, and
that a halted host's turn is a next state in which nothing but schedule and counter has moved, are the model's choice (log
entry 2). -/
def Obligations.StepRunsDecodedOperation : Prop :=
  ∀ s : State, s.faults = [] → s.checked = true →
    step s = s.afterTurn.moverStep s.nextMover ∧
    (s.nextMover = .host →
      step s = s.afterTurn.hostStep ∧
      (s.halted = true → step s = .next s.afterTurn) ∧
      (s.halted = false → ∀ c, s.cursor = some c → step s = continueComposite c s.afterTurn) ∧
      (s.halted = false → s.cursor = none → ∀ (i : Instr) (rest : List Word),
        decode (s.prog.drop s.pc) = .ok (i, rest) →
        step s = exec i { s with env := { s.env with sched := s.env.sched.tail, draws := s.env.draws + 1 } }))

/-- On the Engine's turn, when the word at the head of the transmit FIFO is an MCP3208 command word, the step is that
wire word's meaning, the word taken from the FIFO (42_serial_engine.md R103; the model's choice of that meaning is log
entry 9). -/
def Obligations.StepSendsWireWord : Prop :=
  ∀ (s : State) (ch : BitVec 3) (rest : List Half),
    s.faults = [] → s.checked = true → s.nextMover = .engineFrame →
    (s.block.txq = (0x180 ||| (ch.setWidth 16 <<< 4)) :: rest →
      step s = exec (.mcpCmdWide ch) { s with
        block := { s.block with txq := rest }
        env := { s.env with sched := s.env.sched.tail, draws := s.env.draws + 1 } }) ∧
    (s.block.txq = ((ch.setWidth 16 <<< 1) ||| 0x30) :: rest →
      step s = exec (.mcpCmdNarrow ch) { s with
        block := { s.block with txq := rest }
        env := { s.env with sched := s.env.sched.tail, draws := s.env.draws + 1 } })

/-- On the host's turn, a word at `pc` that is illegal raises `IllegalOperation(pc, w)`, and no word at `pc` raises
`IllegalOperation(pc, none)`; nothing else changes but the turn (30_encoding.md R63, 41_platform_ports.md R93). -/
def Obligations.IllegalWordFaults : Prop :=
  ∀ s : State, s.faults = [] → s.checked = true → s.nextMover = .host → s.halted = false → s.cursor = none →
    (s.prog.length ≤ s.pc → step s = .next (s.afterTurn.recorded .host (.illegalOperation s.pc none))) ∧
    (∀ (w : Word) (ws : List Word) (e : Reject), s.prog.drop s.pc = w :: ws → decode (w :: ws) = .error e →
      e ≠ .missingImmediate → step s = .next (s.afterTurn.recorded .host (.illegalOperation s.pc (some w))))

/-- Once a fault is on record no agent has a step, and the run has not ended well (60_exceptions.md R162). -/
def Obligations.FaultStopsMachine : Prop :=
  ∀ s : State, s.faults ≠ [] → (∃ r ∈ s.faults, step s = .fault (.stopped r)) ∧ s.endedWell = false

/-- Before the first step of a run every program is checked: it is refused at the first index whose operation word is a `SELL` or
`SELH` that is not both immediately preceded and immediately followed by a `DELAY` of at least `SEL_DELAY_CYCLES`, an `LI`
immediate being no operation word, and accepted if there is no such index (60_exceptions.md R177, 41_platform_ports.md
R91). The record's agent (log entry 7), the choice of the first of several words (log entry 25), and what counts as an
immediate after an illegal `LI` word (log entry 23) are the model's. -/
def Obligations.SelectTimingRefused : Prop :=
  ∀ s : State, s.faults = [] → s.checked = false →
    (∀ k, BreaksSettling s.params s.prog k → (∀ j, j < k → ¬ BreaksSettling s.params s.prog j) →
      step s = .next { s with
        checked := true, halted := true
        faults := [{ kind := .refused .selectTiming, agent := .host, pc := k }] }) ∧
    ((∀ k, ¬ BreaksSettling s.params s.prog k) → step s = .next { s with checked := true })

/-- A host step that raises a fault changes nothing else: the state after it is the state before with one record appended and
the host halted, for an operation and for every later step of a composite operation's expansion (40_register_access.md
R82, 60_exceptions.md R161). That the micro-cursor keeps its temporaries after a fault inside an expansion, which 10_state.md
R21 discards, is the model's reading of R161 (log entry 15). -/
def Obligations.FaultsArePrecise : Prop :=
  ∀ s t : State,
    (∀ i : Instr, i.isHostOp = true → exec i s = .next t → t.faults = s.faults ∨ ∃ k, t = s.recorded .host k) ∧
    (∀ c : Cursor, continueComposite c s = .next t → t.faults = s.faults ∨ ∃ k, t = s.recorded .host k)

/-! ### Register access -/

/-- `RD` of a readable register other than SSPDR writes the register's value into `H[D]`: its stored or computed bits, and
in its reserved bits 0, or a draw when `RESERVED_READ = ANY` (40_register_access.md R64, R71, 10_state.md R26). That an
identification register has no bits drawn then is the model's reading (log entry 14). -/
def Obligations.RdReturnsRegister : Prop :=
  ∀ (s : State) (d : HIdx) (off : Offset) (r : Reg), s.Accessible off r → r ≠ .icr → r ≠ .dr →
    (s.params.reservedRead = .zero →
      exec (.rd d off) s = .next { s with h := s.h.set d (.holds (s.regState r)), pc := s.pc + 1 }) ∧
    (s.params.reservedRead = .any → ∃ x : Word,
      exec (.rd d off) s = .next { s with
        h := s.h.set d (.holds (s.regState r ||| (x &&& r.reservedMask))), pc := s.pc + 1
        env := { s.env with draws := s.env.draws + 1 } })

/-- The registers that are not computed: `RD` with `RESERVED_READ = ZERO` gives the stored field bits, zero above them, CPSDVSR with
bit 0 cleared, and the identification constants (40_register_access.md R71, 10_state.md R36). -/
def Obligations.StoredRegisterValues : Prop :=
  ∀ (s : State) (d : HIdx), s.params.reservedRead = .zero → s.block.inReset = false → s.block.rstDone = true →
    ∀ p ∈ [(0x000#12, s.block.cr0.setWidth 32), (0x004, s.block.cr1.setWidth 32),
        (0x010, (s.block.cpsdvsr &&& 0xFE).setWidth 32), (0x014, s.block.imsc.setWidth 32),
        (0x024, s.block.dmacr.setWidth 32), (0xFE0, 0x22#32), (0xFE4, 0x10), (0xFE8, s.params.periphId2.setWidth 32),
        (0xFEC, 0x00), (0xFF0, 0x0D), (0xFF4, 0xF0), (0xFF8, 0x05), (0xFFC, 0xB1)],
      exec (.rd d p.1) s = .next { s with h := s.h.set d (.holds p.2), pc := s.pc + 1 }

/-- `RD` of SSPSR gives `BSY RFF RNE TNF TFE` in bits 4:0, computed from the two FIFOs at the step of the read; of SSPRIS `TXRIS RXRIS
RTRIS RORRIS` in bits 3:0, and of SSPMIS the same under SSPIMSC; 0 above (40_register_access.md R73, R74). -/
def Obligations.ComputedRegisterValues : Prop :=
  ∀ (s : State) (d : HIdx), s.params.reservedRead = .zero → s.block.inReset = false → s.block.rstDone = true →
    let sr := BitVec.ofNat 32
      (16 * (decide (0 < s.block.txq.length)).toNat + 8 * (decide (s.block.rxq.length = 8)).toNat
        + 4 * (decide (0 < s.block.rxq.length)).toNat + 2 * (decide (s.block.txq.length < 8)).toNat
        + (decide (s.block.txq.length = 0)).toNat)
    let ris := BitVec.ofNat 32 (8 * (decide (s.block.txq.length ≤ 4)).toNat + 4 * (decide (4 ≤ s.block.rxq.length)).toNat
      + 2 * s.block.rtLatch.toNat + s.block.rorLatch.toNat)
    exec (.rd d 0x00C) s = .next { s with h := s.h.set d (.holds sr), pc := s.pc + 1 } ∧
    exec (.rd d 0x018) s = .next { s with h := s.h.set d (.holds ris), pc := s.pc + 1 } ∧
    exec (.rd d 0x01C) s = .next { s with h := s.h.set d (.holds (ris &&& s.block.imsc.setWidth 32)), pc := s.pc + 1 }

/-- `RD` of SSPDR takes the head of the receive FIFO, zero-extended; from an empty FIFO it gives a draw of 16 bits and
takes nothing (40_register_access.md R72). That bits 31:16 are 0 with `RESERVED_READ = ANY` too is the model's reading of R72
over R26 and R31 (log entry 14), and the draw is a free value (log entry 3). -/
def Obligations.DataReadPopsReceiveFifo : Prop :=
  ∀ (s : State) (d : HIdx), s.block.inReset = false → s.block.rstDone = true →
    (∀ (w : Half) (ws : List Half), s.block.rxq = w :: ws →
      exec (.rd d 0x008) s = .next { s with
        h := s.h.set d (.holds (w.setWidth 32)), pc := s.pc + 1, block := { s.block with rxq := ws } }) ∧
    (s.block.rxq = [] → ∃ x : Half,
      exec (.rd d 0x008) s = .next { s with
        h := s.h.set d (.holds (x.setWidth 32)), pc := s.pc + 1, env := { s.env with draws := s.env.draws + 1 } })

/-- `WR` of SSPCR0 with SSE = 0 stores bits 15:0 of the value, and of SSPCPSR bits 7:0 with bit 0 cleared; with SSE = 1 either raises
`ConfigWhileEnabled` (40_register_access.md R75, R78). -/
def Obligations.WriteFormatAndDivider : Prop :=
  ∀ (s : State) (a : HIdx) (v : Word), s.block.inReset = false → s.block.rstDone = true → s.h[a] = .holds v →
    exec (.wr 0x000 a) s = .next (if s.block.sse = true then s.recorded .host (.configWhileEnabled 0x000)
      else { s with block := { s.block with cr0 := v.setWidth 16 }, pc := s.pc + 1 }) ∧
    exec (.wr 0x010 a) s = .next (if s.block.sse = true then s.recorded .host (.configWhileEnabled 0x010)
      else { s with block := { s.block with cpsdvsr := v.setWidth 8 &&& 0xFE }, pc := s.pc + 1 })

/-- `WR` of SSPCR1 stores bits 3:0 of the value, and the device follows the select line if that moves it; with SSE = 1 a
change of MS raises `ConfigWhileEnabled` (40_register_access.md R76, 60_exceptions.md R165). That the device field stays as
it is with no device on the bus is the model's choice (log entry 12). -/
def Obligations.WriteControl1 : Prop :=
  ∀ (s : State) (a : HIdx) (v : Word), s.block.inReset = false → s.block.rstDone = true → s.h[a] = .holds v →
    exec (.wr 0x004 a) s = .next (
      if s.block.sse = true ∧ v.getLsbD 2 ≠ s.block.ms then s.recorded .host (.configWhileEnabled 0x004)
      else { s with
        block := { s.block with cr1 := v.setWidth 4 }, pc := s.pc + 1
        dev := s.devAt (State.deviceCs { s with block := { s.block with cr1 := v.setWidth 4 } }) })

/-- `WR` of SSPDR appends bits 15:0 of the value to the transmit FIFO, whatever SSE is; with the FIFO full it raises
`TxOverflow` (40_register_access.md R77). -/
def Obligations.WriteDataPushesTransmitFifo : Prop :=
  ∀ (s : State) (a : HIdx) (v : Word), s.block.inReset = false → s.block.rstDone = true → s.h[a] = .holds v →
    s.block.txq.length ≤ 8 →
    exec (.wr 0x008 a) s = .next (if s.block.txq.length = 8 then s.recorded .host .txOverflow
      else { s with block := { s.block with txq := s.block.txq ++ [v.setWidth 16] }, pc := s.pc + 1 })

/-- `WR` of SSPIMSC stores bits 3:0; of SSPDMACR bits 1:0, and the data requests follow at once; of SSPICR it clears the latches
whose bit is 1 and stores nothing. The interrupt outputs are the masked status bits, `intr` their disjunction, and the data
requests are each enable with its FIFO's room or content; all are 0 while in reset (40_register_access.md R79, R80, R81,
42_serial_engine.md R115, R116). -/
def Obligations.WriteInterruptAndRequestRegisters : Prop :=
  (∀ (s : State) (a : HIdx) (v : Word), s.block.inReset = false → s.block.rstDone = true → s.h[a] = .holds v →
    exec (.wr 0x014 a) s = .next { s with block := { s.block with imsc := v.setWidth 4 }, pc := s.pc + 1 } ∧
    (∃ t, exec (.wr 0x024 a) s = .next t ∧
      t = { s with block := { s.block with dmacr := v.setWidth 2 }, pc := s.pc + 1 } ∧
      (t.block.dreqTx = true ↔ v.getLsbD 1 = true ∧ s.block.txq.length < 8) ∧
      (t.block.dreqRx = true ↔ v.getLsbD 0 = true ∧ 0 < s.block.rxq.length)) ∧
    exec (.wr 0x020 a) s = .next { s with
      block := { s.block with
        rtLatch := if v.getLsbD 1 = true then false else s.block.rtLatch
        rorLatch := if v.getLsbD 0 = true then false else s.block.rorLatch }
      pc := s.pc + 1 }) ∧
  ∀ b : Block,
    (b.txintr = true ↔ b.inReset = false ∧ b.imsc.getLsbD 3 = true ∧ b.txq.length ≤ 4) ∧
    (b.rxintr = true ↔ b.inReset = false ∧ b.imsc.getLsbD 2 = true ∧ 4 ≤ b.rxq.length) ∧
    (b.rtintr = true ↔ b.inReset = false ∧ b.imsc.getLsbD 1 = true ∧ b.rtLatch = true) ∧
    (b.rorintr = true ↔ b.inReset = false ∧ b.imsc.getLsbD 0 = true ∧ b.rorLatch = true) ∧
    b.intr = (b.txintr || b.rxintr || b.rtintr || b.rorintr) ∧
    (b.dreqTx = true ↔ b.inReset = false ∧ b.dmacr.getLsbD 1 = true ∧ b.txq.length < 8) ∧
    (b.dreqRx = true ↔ b.inReset = false ∧ b.dmacr.getLsbD 0 = true ∧ 0 < b.rxq.length)

/-- `RDM` writes the register under the mask into `H[D]`, for every register but SSPDR and SSPICR
(40_register_access.md R66). That an identification register has no bits drawn when `RESERVED_READ = ANY` is the model's
reading (log entry 14). -/
def Obligations.RdmReturnsMaskedRegister : Prop :=
  ∀ (s : State) (d b : HIdx) (off : Offset) (r : Reg) (m : Word), s.Accessible off r → r ≠ .icr → r ≠ .dr →
    s.h[b] = .holds m →
    (s.params.reservedRead = .zero →
      exec (.rdm d off b) s = .next { s with h := s.h.set d (.holds (s.regState r &&& m)), pc := s.pc + 1 }) ∧
    (s.params.reservedRead = .any → ∃ x : Word,
      exec (.rdm d off b) s = .next { s with
        h := s.h.set d (.holds ((s.regState r ||| (x &&& r.reservedMask)) &&& m)), pc := s.pc + 1
        env := { s.env with draws := s.env.draws + 1 } })

/-- `WRM` is one masked update: the bits of the value inside the mask, the stored bits outside it, written with the write
rule of the register (40_register_access.md R67, 20_memory.md R48). That the device field stays as it is with no device on
the bus is the model's choice (log entry 12). -/
def Obligations.WrmUpdatesUnderMask : Prop :=
  ∀ (s : State) (a b : HIdx) (v m : Word), s.block.inReset = false → s.block.rstDone = true →
    s.h[a] = .holds v → s.h[b] = .holds m →
    exec (.wrm 0x000 a b) s = .next (if s.block.sse = true then s.recorded .host (.configWhileEnabled 0x000)
      else { s with
        block := { s.block with cr0 := (s.block.cr0 &&& ~~~(m.setWidth 16)) ||| ((v &&& m).setWidth 16) }
        pc := s.pc + 1 }) ∧
    exec (.wrm 0x010 a b) s = .next (if s.block.sse = true then s.recorded .host (.configWhileEnabled 0x010)
      else { s with
        block := { s.block with
          cpsdvsr := ((s.block.cpsdvsr &&& ~~~(m.setWidth 8)) ||| ((v &&& m).setWidth 8)) &&& 0xFE }
        pc := s.pc + 1 }) ∧
    exec (.wrm 0x014 a b) s = .next { s with
      block := { s.block with imsc := (s.block.imsc &&& ~~~(m.setWidth 4)) ||| ((v &&& m).setWidth 4) }
      pc := s.pc + 1 } ∧
    exec (.wrm 0x024 a b) s = .next { s with
      block := { s.block with dmacr := (s.block.dmacr &&& ~~~(m.setWidth 2)) ||| ((v &&& m).setWidth 2) }
      pc := s.pc + 1 } ∧
    (let cr1 := (s.block.cr1 &&& ~~~(m.setWidth 4)) ||| ((v &&& m).setWidth 4)
     exec (.wrm 0x004 a b) s = .next (
      if s.block.sse = true ∧ cr1.getLsbD 2 ≠ s.block.ms then s.recorded .host (.configWhileEnabled 0x004)
      else { s with
        block := { s.block with cr1 := cr1 }, pc := s.pc + 1
        dev := s.devAt (State.deviceCs { s with block := { s.block with cr1 := cr1 } }) }))

/-- `WAIT` goes on when the register under the mask is the expected value and holds otherwise, changing nothing
(40_register_access.md R68). That an identification register has no bits drawn when `RESERVED_READ = ANY` is the model's
reading (log entry 14), and a hold that is a next state with nothing changed its form of R68's hold (log entry 2). -/
def Obligations.WaitHoldsUntilMatch : Prop :=
  ∀ (s : State) (a b : HIdx) (off : Offset) (r : Reg) (v m : Word), s.Accessible off r → r ≠ .icr → r ≠ .dr →
    s.h[a] = .holds v → s.h[b] = .holds m →
    (s.params.reservedRead = .zero →
      exec (.wait off a b) s = .next (if s.regState r &&& m = v then { s with pc := s.pc + 1 } else s)) ∧
    (s.params.reservedRead = .any → ∃ x : Word,
      exec (.wait off a b) s = .next (if (s.regState r ||| (x &&& r.reservedMask)) &&& m = v then
        { s with pc := s.pc + 1, env := { s.env with draws := s.env.draws + 1 } } else s))

/-- The access check's faults, in its order, for each operation that makes a register access: misaligned, unmapped, wrong
direction, side effect, in reset (40_register_access.md R70). The operands are readable. -/
def Obligations.AccessCheckFaults : Prop :=
  ∀ (s : State) (d a b : HIdx) (off : Offset) (v m : Word), s.h[a] = .holds v → s.h[b] = .holds m →
    let reading := [exec (.rd d off) s, exec (.rdm d off b) s, exec (.wait off a b) s]
    let writing := [exec (.wr off a) s, exec (.wrm off a b) s]
    let masked := [exec (.rdm d off b) s, exec (.wrm off a b) s, exec (.wait off a b) s]
    let raises (k : FaultKind) (x : Host.Outcome State Fault Refusal) := x = .next (s.recorded .host k)
    let readOnly : List Reg :=
      [.sr, .ris, .mis, .periphId0, .periphId1, .periphId2, .periphId3, .pcellId0, .pcellId1, .pcellId2, .pcellId3]
    (off.toNat % 4 ≠ 0 → ∀ x ∈ reading ++ writing, raises (.busError off .misaligned) x) ∧
    (off.toNat % 4 = 0 → regAt off = none → ∀ x ∈ reading ++ writing, raises (.busError off .unmapped) x) ∧
    (regAt off = some .icr → ∀ x ∈ reading, raises (.busError off .direction) x) ∧
    (∀ r ∈ readOnly, regAt off = some r → ∀ x ∈ writing, raises (.busError off .direction) x) ∧
    (regAt off = some .dr → ∀ x ∈ masked, raises (.busError off .sideEffect) x) ∧
    (regAt off = some .icr → raises (.busError off .sideEffect) (exec (.wrm off a b) s)) ∧
    (s.block.inReset = true ∨ s.block.rstDone = false →
      (∀ r, regAt off = some r → r ≠ .icr → raises (.inResetAccess off) (exec (.rd d off) s)) ∧
      (∀ r, regAt off = some r → r ∉ readOnly → raises (.inResetAccess off) (exec (.wr off a) s)) ∧
      (∀ r, regAt off = some r → r ≠ .icr → r ≠ .dr →
        raises (.inResetAccess off) (exec (.rdm d off b) s) ∧ raises (.inResetAccess off) (exec (.wait off a b) s)) ∧
      (∀ r, regAt off = some r → r ∉ readOnly → r ≠ .dr → r ≠ .icr →
        raises (.inResetAccess off) (exec (.wrm off a b) s)))

/-- An operation that reads an unwritten scratch register raises `UnwrittenRegister` before any other check; of two the lowest
index is read first, which the model takes to be the register's (log entry 8), and an `XFER` names the first unwritten one
of `H[A]` to `H[A + N - 1]` (10_state.md R19, 60_exceptions.md R170, 44_operations.md R139). -/
def Obligations.UnwrittenOperandFaults : Prop :=
  ∀ (s : State) (d a b : HIdx) (off : Offset) (bus mode : BitVec 2) (ord : BitOrder) (wid : BitVec 5),
    let raises (i : HIdx) (x : Host.Outcome State Fault Refusal) := x = .next (s.recorded .host (.unwrittenRegister i))
    (s.h[a] = .unwritten →
      (∀ x ∈ [exec (.wr off a) s, exec (.rdm d off a) s, exec (.encw d a) s, exec (.encn d a) s, exec (.decn d a) s,
          exec (.config d a bus mode ord wid) s, exec (.readch d a) s], raises a x) ∧
      (s.h[b] ≠ .unwritten ∨ a ≤ b →
        ∀ x ∈ [exec (.wrm off a b) s, exec (.wrm off b a) s, exec (.wait off a b) s, exec (.wait off b a) s,
          exec (.decw d a b) s, exec (.decw d b a) s], raises a x)) ∧
    (∀ (n : BitVec 4) (i : HIdx), xferLegal d a n = true → a ≤ i → i.val < a.val + n.toNat → s.h[i] = .unwritten →
      (∀ j : HIdx, a ≤ j → j < i → s.h[j] ≠ .unwritten) → raises i (exec (.xfer d a n) s))

/-- `LI` writes the program word after its own, in any block state, and takes two words; as the program's last word it raises
`IllegalOperation` (40_register_access.md R69). -/
def Obligations.LiLoadsImmediate : Prop :=
  ∀ (s : State) (d : HIdx) (imm : Word),
    exec (.li d imm) s = .next { s with h := s.h.set d (.holds imm), pc := s.pc + 2 } ∧
    (s.faults = [] → s.checked = true → s.nextMover = .host → s.halted = false → s.cursor = none →
      s.prog.drop s.pc = [(Instr.li d imm).firstWord] →
      ∃ w, step s = .next (s.afterTurn.recorded .host (.illegalOperation s.pc w)))

/-! ### Ports -/

/-- `RSTA` puts the block in reset with every register, FIFO and latch at its reset value; a select line that the block held
low rises and turns the device off (41_platform_ports.md R83, 60_exceptions.md R165). That the device field stays as it is
with no device on the bus is the model's choice (log entry 12). -/
def Obligations.RstaResetsBlock : Prop :=
  ∀ s : State, exec .rsta s = .next { s with
    block := {
      cr0 := 0, cr1 := 0, cpsdvsr := 0, imsc := 0, dmacr := 0, txq := [], rxq := [], rtLatch := false, rorLatch := false
      inReset := true, rstDone := false }
    dev := if s.params.devicePresent = true ∧ s.selfn = .periph ∧ s.block.inReset = false ∧ s.block.rstDone = true
        ∧ s.block.sse = true ∧ s.block.frf = 1 then .off else s.dev
    pc := s.pc + 1 }

/-- `RSTR` releases the reset and leaves the acknowledgement as it is; `RSTW` goes on once it is there and holds until then;
the ResetCtl step gives it (41_platform_ports.md R84, R85, R86). That a hold, and a ResetCtl turn that is not enabled, are
next states in which nothing but schedule and counter may move is the model's choice (log entry 2). -/
def Obligations.ResetReleaseAndAcknowledge : Prop :=
  ∀ s : State, s.block.Inv →
    exec .rstr s = .next { s with block := { s.block with inReset := false }, pc := s.pc + 1 } ∧
    exec .rstw s = .next (if s.block.rstDone = true then { s with pc := s.pc + 1 } else s) ∧
    (s.faults = [] → s.checked = true → s.nextMover = .resetCtl →
      step s = .next (if s.block.inReset = false ∧ s.block.rstDone = false then
        { s.afterTurn with block := { s.block with rstDone := true } } else s.afterTurn))

/-- `SELL` and `SELH` drive the pin low and high. With the pin a general-purpose output a fall selects the device afresh and a
rise turns it off; with the pin the peripheral's the device sees nothing. `SELFN` sets the pin's function and the device
follows the line it then sees (41_platform_ports.md R87, R88, R89, 60_exceptions.md R165). That the device field stays as
it is with no device on the bus is the model's choice (log entry 12). -/
def Obligations.SelectLineMoves : Prop :=
  ∀ (s : State) (f : SelFn),
    exec .sell s = .next { s with
      gpioCs := false, pc := s.pc + 1
      dev := if s.params.devicePresent = true ∧ s.selfn = .gpio ∧ s.gpioCs = true then .sel 0 none none [] none else s.dev } ∧
    exec .selh s = .next { s with
      gpioCs := true, pc := s.pc + 1
      dev := if s.params.devicePresent = true ∧ s.selfn = .gpio ∧ s.gpioCs = false then .off else s.dev } ∧
    exec (.selfn f) s = .next { s with
      selfn := f, pc := s.pc + 1
      dev := s.devAt (match f with
        | .gpio => s.gpioCs
        | .periph => !decide (s.block.inReset = false ∧ s.block.rstDone = true ∧ s.block.sse = true ∧ s.block.frf = 1)) }

/-- `DELAY` changes `pc` only, whatever its count, and `HALT` halts the host with `pc` at its own word (41_platform_ports.md
R90, R92). -/
def Obligations.DelayAndHalt : Prop :=
  ∀ (s : State) (n : BitVec 16),
    exec (.delay n) s = .next { s with pc := s.pc + 1 } ∧ exec .halt s = .next { s with halted := true }

/-! ### Codec -/

/-- `ENCW` and `ENCN` write the command word of the channel's low 3 bits, `DECW` and `DECN` the 12-bit sample of the received words, all in
any block state (43_codec.md R124 to R127). -/
def Obligations.CodecOperations : Prop :=
  ∀ (s : State) (d a b : HIdx) (x y : Word), s.h[a] = .holds x → s.h[b] = .holds y →
    exec (.encw d a) s = .next { s with h := s.h.set d (.holds (0x180 ||| ((x &&& 7) <<< 4))), pc := s.pc + 1 } ∧
    exec (.encn d a) s = .next { s with h := s.h.set d (.holds (((x &&& 7) <<< 1) ||| 0x30)), pc := s.pc + 1 } ∧
    exec (.decw d a b) s = .next { s with h := s.h.set d (.holds (((x <<< 10) + y) &&& 0xFFF)), pc := s.pc + 1 } ∧
    exec (.decn d a) s = .next { s with h := s.h.set d (.holds (x &&& 0xFFF)), pc := s.pc + 1 }

/-- The codec's arithmetic: the commands depend on the channel's low 3 bits only and take the values listed, every sample is
at most 4095, and the wide sample depends on bits 1:0 of the first word and 11:0 of the second (43_codec.md R124 to
R129). -/
def Obligations.CodecProperties : Prop :=
  ∀ x y : Word,
    wideCommand x = wideCommand (x &&& 7) ∧ narrowCommand x = narrowCommand (x &&& 7) ∧
    wideCommand x = BitVec.ofNat 32 (0x180 + 16 * (x.toNat % 8)) ∧
    narrowCommand x = BitVec.ofNat 32 (0x30 + 2 * (x.toNat % 8)) ∧
    (wideSample x y).toNat = (1024 * (x.toNat % 4) + y.toNat % 4096) % 4096 ∧
    (narrowSample x).toNat = x.toNat % 4096

/-! ### Composite operations -/

/-- `CONFIG`'s step 0, when every check passes: the divider pair is found, the micro-cursor stands at step 1 and nothing else
has changed (44_operations.md R133, R134). -/
def Obligations.ConfigStarts : Prop :=
  ∀ (s : State) (d a : HIdx) (bus mode : BitVec 2) (wid : BitVec 5) (b : Word) (r : DividerSetting),
    s.h[a] = .holds b → bus.toNat < 2 → 4 ≤ wid.toNat → wid.toNat ≤ 16 → mode ≠ 3 →
    (s.params.variant = .base → mode = 0) → dividerSearch s.params b.toNat = some r → bus = s.params.busId →
    (s.block.inReset = false → s.block.rstDone = true → s.block.txq = [] ∧ s.block.rxq = []) →
    exec (.config d a bus mode .msbFirst wid) s = .next { s with
      cursor := some {
        op := .config d mode wid { prescale := r.prescale, postdiv := r.postdiv, achieved := r.achieved, enable := false }
        step := 1 } }

/-- `CONFIG`'s contract checks raise the first that fails, in their order, with the block untouched (44_operations.md R134,
R137). -/
def Obligations.ConfigContractFaults : Prop :=
  ∀ (s : State) (d a : HIdx) (bus mode : BitVec 2) (ord : BitOrder) (wid : BitVec 5) (b : Word), s.h[a] = .holds b →
    let raises (k : FaultKind) := exec (.config d a bus mode ord wid) s = .next (s.recorded .host k)
    if 2 ≤ bus.toNat then raises (.contractViolation .bus)
    else if wid.toNat < 4 ∨ 16 < wid.toNat then raises (.contractViolation .width)
    else if ord = .lsbFirst then raises (.contractViolation .order)
    else if mode = 3 ∨ (mode ≠ 0 ∧ s.params.variant = .base) then raises (.contractViolation .mode)
    else if dividerSearch s.params b.toNat = none then raises (.contractViolation .baud)
    else if bus ≠ s.params.busId then raises (.refused .otherInstance)
    else (s.block.inReset = false ∧ s.block.rstDone = true ∧ (s.block.txq ≠ [] ∨ s.block.rxq ≠ [])) →
      raises .inFlightReconfigure

/-- A `CONFIG` whose checks pass, run to its end: eleven host steps with the reset acknowledged after the third leave exactly
the end state of 44_operations.md R136, whatever the block's state before; `H[D]` is the achieved rate. The device is as it
was with the pin a general-purpose output; with the pin the peripheral's it is freshly selected in the TI format, and
otherwise turned off if the select line was low before (70_reset_and_hazards.md R181). That the device field stays as it is
with no device on the bus is the model's choice (log entry 12). -/
def Obligations.ConfigReachesEndState : Prop :=
  ∀ (s : State) (d a : HIdx) (bus mode : BitVec 2) (wid : BitVec 5) (b : Word) (r : DividerSetting) (ms : List Mover)
    (ws : List Word),
    s.Ready (hosts 3 ++ [.resetCtl] ++ hosts 8 ++ ms) →
    decode (s.prog.drop s.pc) = .ok (.config d a bus mode .msbFirst wid, ws) →
    s.h[a] = .holds b → bus.toNat < 2 → 4 ≤ wid.toNat → wid.toNat ≤ 16 → mode ≠ 3 →
    (s.params.variant = .base → mode = 0) → dividerSearch s.params b.toNat = some r → bus = s.params.busId →
    s.block.inFlight = false →
    Host.Core.run Sys2Proof.core 12 s = .next { s with
      h := s.h.set d (.holds (BitVec.ofNat 32 r.achieved))
      pc := s.pc + 1
      block := {
        cr0 := (BitVec.ofNat 16 (r.postdiv - 1) <<< 8) ||| (mode.setWidth 16 <<< 4) ||| BitVec.ofNat 16 (wid.toNat - 1)
        cr1 := 0x2, cpsdvsr := BitVec.ofNat 8 r.prescale, imsc := 0, dmacr := 0x3, txq := [], rxq := []
        rtLatch := false, rorLatch := false, inReset := false, rstDone := true }
      dev :=
        if s.params.devicePresent = false ∨ s.selfn = .gpio then s.dev
        else if mode = 1 then .sel 0 none none [] none
        else if s.deviceCs = false then .off
        else s.dev
      env := { s.env with sched := ms, draws := s.env.draws + 12 } }

/-- After its step 0 a `CONFIG` never faults: from every state the invariants admit, its next step adds no record
(44_operations.md R133). -/
def Obligations.ConfigFaultsOnlyAtStart : Prop :=
  ∀ (s t : State) (d : HIdx) (mode : BitVec 2) (wid : BitVec 5) (tmp : ConfigTemps) (k : Nat),
    s.CursorInv → s.cursor = some { op := .config d mode wid tmp, step := k } →
    s.hostStep = .next t → t.faults = s.faults

/-- `XFER`'s step 0 snapshots the transmit words and changes nothing but the micro-cursor (44_operations.md R139,
30_encoding.md R62). -/
def Obligations.XferStarts : Prop :=
  ∀ (s : State) (d a : HIdx) (n : BitVec 4) (tx : List Word), xferLegal d a n = true → tx.length = n.toNat →
    (∀ (k : Nat) (w : Word) (i : HIdx), tx[k]? = some w → i.val = a.val + k → s.h[i] = .holds w) →
    exec (.xfer d a n) s = .next { s with cursor := some { op := .xfer d { tx := tx, rx := [] }, step := 1 } }

/-- `XFER`'s later steps: step `1 + i` writes the `i`-th transmit word to SSPDR; step `1 + N + i` holds while the receive FIFO is
empty, else takes its head; after the last the received words are in `H[D]`, `H[D + 1]`, ... A write with the block in reset
or unacknowledged raises `InResetAccess(0x008)`, as a read would, and one with the transmit FIFO full `TxOverflow`
(44_operations.md R139, R140). The model's choices and readings in it: a hold is a next state with nothing changed (log entry 2),
a FIFO of more than 8 words, which no run reaches, counts as full (log entry 20), a fault leaves the micro-cursor with its
temporaries (log entry 15), and a word read is zero-extended with `RESERVED_READ = ANY` too (log entry 14). -/
def Obligations.XferStepsMoveWords : Prop :=
  ∀ (s : State) (d : HIdx) (t : XferTemps) (k : Nat),
    s.halted = false → s.cursor = some { op := .xfer d t, step := k } → d.val + t.tx.length ≤ 8 → 1 ≤ k →
    (∀ w, t.tx[k - 1]? = some w →
      s.hostStep = .next (
        if s.block.inReset = true ∨ s.block.rstDone = false then s.recorded .host (.inResetAccess 0x008)
        else if 8 ≤ s.block.txq.length then s.recorded .host .txOverflow
        else { s with
          block := { s.block with txq := s.block.txq ++ [w.setWidth 16] }
          cursor := some { op := .xfer d t, step := k + 1 } })) ∧
    (t.tx.length < k → s.block.rxq = [] → s.hostStep = .next s) ∧
    (t.tx.length < k → s.block.rxq ≠ [] → (s.block.inReset = true ∨ s.block.rstDone = false) →
      s.hostStep = .next (s.recorded .host (.inResetAccess 0x008))) ∧
    (s.block.inReset = false → s.block.rstDone = true →
      (∀ w ws, t.tx.length < k → k < 2 * t.tx.length → s.block.rxq = w :: ws →
        s.hostStep = .next { s with
          block := { s.block with rxq := ws }
          cursor := some { op := .xfer d { t with rx := t.rx ++ [w.setWidth 32] }, step := k + 1 } }) ∧
      (∀ w ws, k = 2 * t.tx.length → t.rx.length + 1 = t.tx.length → s.block.rxq = w :: ws →
        ∃ h, s.hostStep = .next { s with h := h, pc := s.pc + 1, cursor := none, block := { s.block with rxq := ws } } ∧
          (∀ (j : Nat) (x : Word) (i : HIdx), (t.rx ++ [w.setWidth 32])[j]? = some x → i.val = d.val + j → h[i] = .holds x) ∧
          (∀ i : HIdx, i.val < d.val ∨ d.val + t.tx.length ≤ i.val → h[i] = s.h[i])))

/-- An `XFER` run to its end in loopback, with both FIFOs empty: `N + 1` host steps, `N` frames, `N` host steps. `H[D + k]` is the low
`DSS + 1` bits of what `H[A + k]` held, the other scratch registers are unchanged, and the block is as before
(44_operations.md R139, 42_serial_engine.md R103, R109). That a word read is zero-extended with `RESERVED_READ = ANY` too is the
model's reading (log entry 14). -/
def Obligations.XferLoopbackReturnsWords : Prop :=
  ∀ (s : State) (d a : HIdx) (n : BitVec 4) (tx : List Word) (ms : List Mover) (ws : List Word),
    s.Ready (hosts (n.toNat + 1) ++ List.replicate n.toNat .engineFrame ++ hosts n.toNat ++ ms) →
    decode (s.prog.drop s.pc) = .ok (.xfer d a n, ws) → tx.length = n.toNat →
    (∀ (k : Nat) (w : Word) (i : HIdx), tx[k]? = some w → i.val = a.val + k → s.h[i] = .holds w) →
    s.block.CanSend → s.block.lbm = true → s.block.txq = [] → s.block.rxq = [] →
    ∃ (h : Vector Scratch 8) (dev : Dev) (env : Env),
      Host.Core.run Sys2Proof.core (3 * n.toNat + 1) s = .next { s with h := h, pc := s.pc + 1, dev := dev, env := env } ∧
      (∀ (k : Nat) (w : Word) (i : HIdx), tx[k]? = some w → i.val = d.val + k →
        h[i] = .holds (BitVec.ofNat 32 (w.toNat % 2 ^ (s.block.dss.toNat + 1)))) ∧
      (∀ i : HIdx, i.val < d.val ∨ d.val + n.toNat ≤ i.val → h[i] = s.h[i])

/-- `READCH`'s steps, each whatever came between them. Step 0: a block in reset faults, then a configuration that matches no codec
variant; width 10 with the standard format starts the wide expansion, width 12 with an alternate one the narrow. Wide:
encode, delay, select low, delay, the five steps of a 2-word transfer, delay, select high, delay, decode; narrow: encode, the
three steps of a 1-word transfer, decode. The transfer's steps write, hold, read and fault as those of `XFER`
(44_operations.md R142, R143, R144, R145). The model's choices and readings in it: the device field stays as it is with no device
on the bus (log entry 12), a hold is a next state with nothing changed (log entry 2), a FIFO of more than 8 words, which no
run reaches, counts as full (log entry 20), a fault leaves the micro-cursor with its temporaries (log entry 15), and a word
read is zero-extended with `RESERVED_READ = ANY` too (log entry 14). -/
def Obligations.ReadchStarts : Prop :=
  (∀ (s : State) (d a : HIdx) (ch : Word), s.h[a] = .holds ch →
    let starts (v : CodecVariant) := exec (.readch d a) s = .next { s with
      cursor := some { op := .readch d v ch 0 { tx := [], rx := [] }, step := 1 } }
    if s.block.inReset = true ∨ s.block.rstDone = false then
      exec (.readch d a) s = .next (s.recorded .host (.inResetAccess 0x000))
    else if s.block.dss = 9 ∧ s.block.frf = 0 then starts .wide
    else if s.block.dss = 11 ∧ (s.block.frf = 1 ∨ s.block.frf = 2) then starts .narrow
    else exec (.readch d a) s = .next (s.recorded .host (.noCodecVariant s.block.cr0))) ∧
  ∀ (s : State) (d : HIdx) (ch cmd : Word) (tx rx : List Word), s.halted = false →
    let within (v : CodecVariant) (k : Nat) (cmd : Word) (tx rx : List Word) : State :=
      { s with cursor := some { op := .readch d v ch cmd { tx := tx, rx := rx }, step := k } }
    let goes (x y : State) := x.hostStep = .next y
    let inReset := s.block.inReset = true ∨ s.block.rstDone = false
    goes (within .wide 1 cmd tx rx) (within .wide 2 (0x180 ||| ((ch &&& 7) <<< 4)) tx rx) ∧
    (∀ k ∈ [2, 4, 10, 12], goes (within .wide k cmd tx rx) (within .wide (k + 1) cmd tx rx)) ∧
    goes (within .wide 3 cmd tx rx) { within .wide 4 cmd tx rx with gpioCs := false, dev := s.devDriven false } ∧
    goes (within .wide 5 cmd tx rx) (within .wide 6 cmd [cmd, 0] []) ∧
    goes (within .wide 11 cmd tx rx) { within .wide 12 cmd tx rx with gpioCs := true, dev := s.devDriven true } ∧
    (∀ x y : Word, goes (within .wide 13 cmd tx [x, y]) { s with
      h := s.h.set d (.holds (((x <<< 10) + y) &&& 0xFFF)), pc := s.pc + 1, cursor := none }) ∧
    goes (within .narrow 1 cmd tx rx) (within .narrow 2 (((ch &&& 7) <<< 1) ||| 0x30) tx rx) ∧
    goes (within .narrow 2 cmd tx rx) (within .narrow 3 cmd [cmd] []) ∧
    (∀ x : Word, goes (within .narrow 5 cmd tx [x]) { s with
      h := s.h.set d (.holds (x &&& 0xFFF)), pc := s.pc + 1, cursor := none }) ∧
    (∀ (v : CodecVariant) (k : Nat) (w : Word),
      (v = .wide ∧ tx.length = 2 ∧ (k = 6 ∧ tx[0]? = some w ∨ k = 7 ∧ tx[1]? = some w)) ∨
        (v = .narrow ∧ k = 3 ∧ tx = [w]) →
      (inReset → goes (within v k cmd tx rx) ((within v k cmd tx rx).recorded .host (.inResetAccess 0x008))) ∧
      (¬ inReset → 8 ≤ s.block.txq.length →
        goes (within v k cmd tx rx) ((within v k cmd tx rx).recorded .host .txOverflow)) ∧
      (¬ inReset → s.block.txq.length < 8 →
        goes (within v k cmd tx rx) { within v (k + 1) cmd tx rx with
          block := { s.block with txq := s.block.txq ++ [w.setWidth 16] } })) ∧
    (∀ (v : CodecVariant) (k : Nat),
      (v = .wide ∧ tx.length = 2 ∧ (k = 8 ∨ k = 9)) ∨ (v = .narrow ∧ tx.length = 1 ∧ k = 4) →
      (s.block.rxq = [] → goes (within v k cmd tx rx) (within v k cmd tx rx)) ∧
      (s.block.rxq ≠ [] → inReset →
        goes (within v k cmd tx rx) ((within v k cmd tx rx).recorded .host (.inResetAccess 0x008))) ∧
      (∀ (w : Half) (ws : List Half), ¬ inReset → s.block.rxq = w :: ws →
        goes (within v k cmd tx rx) { within v (k + 1) cmd tx (rx ++ [w.setWidth 32]) with
          block := { s.block with rxq := ws } }))

/-- A wide `READCH` run to its end with the select pin a general-purpose output at rest high, (SPO, SPH) = (0, 0), no loopback and
both FIFOs empty: the sample is the conversion value of the channel's low 3 bits in single-ended mode, the device ends
deselected and nothing else has changed (44_operations.md R144, R146, 43_codec.md R131). -/
def Obligations.ReadchWideReturnsConversion : Prop :=
  ∀ (s : State) (d a : HIdx) (ch : Word) (ms : List Mover) (ws : List Word),
    s.Ready (hosts 8 ++ [.engineFrame, .engineFrame] ++ hosts 6 ++ ms) →
    decode (s.prog.drop s.pc) = .ok (.readch d a, ws) → s.h[a] = .holds ch →
    s.block.CanSend → s.block.lbm = false → s.block.dss = 9 → s.block.frf = 0 → s.block.spo = false → s.block.sph = false →
    s.block.txq = [] → s.block.rxq = [] → s.params.devicePresent = true → s.selfn = .gpio → s.gpioCs = true →
    ∃ (v : BitVec 12) (env : Env), s.env.Converts (ch.setWidth 3) v ∧
      Host.Core.run Sys2Proof.core 16 s = .next { s with
        h := s.h.set d (.holds (v.setWidth 32)), pc := s.pc + 1, dev := .off, env := env }

/-- A narrow `READCH` run to its end in the Microwire format with the hardware select line, no loopback and both FIFOs empty:
the sample is the conversion value of the channel's low 3 bits in single-ended mode (44_operations.md R145, R146,
43_codec.md R131). -/
def Obligations.ReadchNarrowReturnsConversion : Prop :=
  ∀ (s : State) (d a : HIdx) (ch : Word) (ms : List Mover) (ws : List Word),
    s.Ready (hosts 4 ++ [.engineFrame] ++ hosts 2 ++ ms) →
    decode (s.prog.drop s.pc) = .ok (.readch d a, ws) → s.h[a] = .holds ch →
    s.block.CanSend → s.block.lbm = false → s.block.dss = 11 → s.block.frf = 2 →
    s.block.txq = [] → s.block.rxq = [] → s.params.devicePresent = true → s.selfn = .periph →
    ∃ (v : BitVec 12) (env : Env), s.env.Converts (ch.setWidth 3) v ∧
      Host.Core.run Sys2Proof.core 7 s = .next { s with
        h := s.h.set d (.holds (v.setWidth 32)), pc := s.pc + 1, dev := .off, env := env }

/-! ### The wire words, the Engine and the device -/

/-- The wide-word command sent as a 10-bit clean frame to a freshly selected device: the device has its start bit at edge 2, the
single-ended mode, the channel and the conversion value; the received word's bits 1:0 are the value's top two and bit 2 is
the null bit (30_encoding.md R202, 43_codec.md R131, 60_exceptions.md R164, R166). -/
def Obligations.WideCommandReachesDevice : Prop :=
  ∀ (s : State) (ch : BitVec 3), s.block.CanSend → s.block.lbm = false → s.block.dss = 9 → s.block.frf = 0 →
    s.block.spo = s.block.sph → s.block.rxq.length < 8 → s.params.devicePresent = true → s.selfn = .gpio →
    s.dev = .sel 0 none none [] none →
    ∃ (v : BitVec 12) (x : BitVec 7) (env : Env), s.env.Converts ch v ∧
      exec (.mcpCmdWide ch) s = .next { s with
        block := { s.block with
          rxq := s.block.rxq ++ [(x.setWidth 16 <<< 3) ||| (v.extractLsb' 10 2).setWidth 16] }
        dev := .sel 10 (some 2) (some true) [ch.getLsbD 2, ch.getLsbD 1, ch.getLsbD 0] (some v)
        env := env }

/-- The narrow-word command sent as a 12-bit Microwire frame with the hardware select line: the received word is the conversion
value, and the device ends deselected (30_encoding.md R203, 43_codec.md R131, 60_exceptions.md R169). -/
def Obligations.NarrowCommandReturnsConversion : Prop :=
  ∀ (s : State) (ch : BitVec 3), s.block.CanSend → s.block.lbm = false → s.block.dss = 11 → s.block.frf = 2 →
    s.block.rxq.length < 8 → s.params.devicePresent = true → s.selfn = .periph →
    ∃ (v : BitVec 12) (env : Env), s.env.Converts ch v ∧
      exec (.mcpCmdNarrow ch) s = .next { s with
        block := { s.block with rxq := s.block.rxq ++ [v.setWidth 16] }, dev := .off, env := env }

/-- A frame that may not start records the first reason that applies and leaves the word in the FIFO (42_serial_engine.md R104,
60_exceptions.md R161). -/
def Obligations.FrameCheckFaults : Prop :=
  ∀ s : State, s.faults = [] → s.checked = true → s.nextMover = .engineFrame →
    s.block.inReset = false → s.block.rstDone = true → s.block.sse = true → s.block.txq ≠ [] →
    let raises (r : FrameReason) := step s = .next (s.afterTurn.recorded .engine (.invalidFrameConfig r))
    if s.block.ms = true then raises .slave
    else if s.block.cpsdvsr.toNat < 2 then raises .prescale
    else if s.block.dss.toNat < 3 then raises .dss
    else if s.block.frf = 3 then raises .frf
    else s.block.lbm = true → s.block.frf = 2 → raises .loopback

/-- A frame in loopback, in the Motorola or TI format, takes the head of the transmit FIFO and receives its low `DSS + 1` bits; with
the receive FIFO full the word is lost and the overrun latched (42_serial_engine.md R102, R103, R109, R111). -/
def Obligations.LoopbackFrame : Prop :=
  ∀ (s : State) (w : Half) (ws : List Half), s.faults = [] → s.checked = true → s.nextMover = .engineFrame →
    s.block.CanSend → s.block.lbm = true → s.block.txq = w :: ws → s.block.rxq.length ≤ 8 →
    ∃ dev env, step s = .next { s with
      block := if s.block.rxq.length = 8 then { s.block with txq := ws, rorLatch := true }
        else { s.block with
          txq := ws, rxq := s.block.rxq ++ [BitVec.ofNat 16 (w.toNat % 2 ^ (s.block.dss.toNat + 1))] }
      dev := dev, env := env }

/-- Every frame that may start, in every format and with every wire, takes one word from the transmit FIFO and gives one word of
`DSS + 1` bits, or latches the overrun; the other registers are untouched (42_serial_engine.md R103, R110, R111). -/
def Obligations.FrameExchangesOneWord : Prop :=
  ∀ (s : State) (w : Half) (ws : List Half), s.faults = [] → s.checked = true → s.nextMover = .engineFrame →
    s.block.CanSend → s.block.txq = w :: ws → s.block.rxq.length ≤ 8 →
    ∃ (x : Half) (dev : Dev) (env : Env), x.toNat < 2 ^ (s.block.dss.toNat + 1) ∧ step s = .next { s with
      block := if s.block.rxq.length = 8 then { s.block with txq := ws, rorLatch := true }
        else { s.block with txq := ws, rxq := s.block.rxq ++ [x] }
      dev := dev, env := env }

/-- The Engine's steps write the two FIFOs, the two latches, the device and the model's draws, and no configuration register; a frame
check that fails adds its record (42_serial_engine.md R122). -/
def Obligations.EngineWritesOnlyFifosAndLatches : Prop :=
  ∀ (s t : State) (m : Mover), (m = .engineFrame ∨ m = .engineTimeout ∨ m = .engineTimeoutClear) →
    s.moverStep m = .next t →
    ∃ txq rxq rt ror dev env faults halted, t = { s with
      block := { s.block with txq := txq, rxq := rxq, rtLatch := rt, rorLatch := ror }
      dev := dev, env := env, faults := faults, halted := halted }

/-- The receive-timeout step sets the latch in its window and the timeout-clear step clears it once the receive FIFO is empty;
neither changes anything else (42_serial_engine.md R113, R114). That the turn of a step that is not enabled is a next state
in which nothing but schedule and counter has moved is the model's choice (log entry 2). -/
def Obligations.TimeoutLatch : Prop :=
  ∀ s : State, s.faults = [] → s.checked = true →
    (s.nextMover = .engineTimeout → step s = .next (
      if s.block.inReset = false ∧ s.block.rstDone = true ∧ s.block.rxq ≠ [] ∧ s.block.rtLatch = false
          ∧ (s.block.txq = [] ∨ s.block.sse = false) then
        { s.afterTurn with block := { s.block with rtLatch := true } } else s.afterTurn)) ∧
    (s.nextMover = .engineTimeoutClear → step s = .next (
      if s.block.rxq = [] ∧ s.block.rtLatch = true then
        { s.afterTurn with block := { s.block with rtLatch := false } } else s.afterTurn))

/-- The device's output: the null bit six edges after the start bit, then the conversion value's bits, most significant first, at the
twelve edges that follow (60_exceptions.md R166). -/
def Obligations.DeviceOutputsConversion : Prop :=
  ∀ (k0 : Nat) (v : BitVec 12) (e : Env) (sgl : Option Bool) (dch : List Bool) (x : Bool),
    (Dev.edge (.sel (k0 + 5) (some k0) sgl dch (some v)) x e).1 = false ∧
    ∀ j : Nat, j < 12 →
      (Dev.edge (.sel (k0 + 6 + j) (some k0) sgl dch (some v)) x e).1 = v.getLsbD (11 - j)

/-! ### The divider -/

/-- The `CLOSEST` search: it finds a legal pair whose exact rate does not exceed the request, no legal pair's exact rate is closer, a
tie goes to the smallest prescale, and it finds none exactly for a rate of 0 or below `F / 65024` (42_serial_engine.md
R118). -/
def Obligations.ClosestSearchIsClosest : Prop :=
  ∀ clk b : Nat,
    (closestSearch clk b = none ↔ b = 0 ∨ 65024 * b < clk) ∧
    ∀ r, closestSearch clk b = some r →
      r.prescale % 2 = 0 ∧ 2 ≤ r.prescale ∧ r.prescale ≤ 254 ∧ 1 ≤ r.postdiv ∧ r.postdiv ≤ 256 ∧
      r.achieved = clk / (r.prescale * r.postdiv) ∧ clk ≤ r.prescale * r.postdiv * b ∧
      ∀ p d : Nat, p % 2 = 0 → 2 ≤ p → p ≤ 254 → 1 ≤ d → d ≤ 256 → clk ≤ p * d * b →
        r.prescale * r.postdiv ≤ p * d ∧ (r.prescale * r.postdiv = p * d → r.prescale ≤ p)

/-- The `SDK` search: it finds a legal pair whose reported rate does not exceed the request, with the smallest prescale that can
reach the rate and then the smallest second divisor that keeps the reported rate within the request, and none exactly for a
rate of 0, above `F`, or out of reach (42_serial_engine.md R119). -/
def Obligations.SdkSearchNeverExceedsRequest : Prop :=
  ∀ clk b : Nat,
    (sdkSearch clk b = none ↔ b = 0 ∨ clk < b ∨ 65024 * b ≤ clk) ∧
    ∀ r, sdkSearch clk b = some r →
      r.prescale % 2 = 0 ∧ 2 ≤ r.prescale ∧ r.prescale ≤ 254 ∧ 1 ≤ r.postdiv ∧ r.postdiv ≤ 256 ∧
      r.achieved = clk / (r.prescale * r.postdiv) ∧ r.achieved ≤ b ∧ clk < r.prescale * 256 * b ∧
      (r.postdiv = 1 ∨ b < clk / (r.prescale * (r.postdiv - 1))) ∧
      ∀ p : Nat, p % 2 = 0 → 2 ≤ p → p < r.prescale → p * 256 * b ≤ clk

/-! ### Invariants -/

/-- The launch state meets every invariant. -/
def Obligations.LaunchMeetsInvariants : Prop :=
  State.reset.block.Inv ∧ State.reset.DevInv ∧ State.reset.CursorInv ∧ State.reset.HaltInv

/-- Every step keeps the block's invariant: the FIFOs within their depth, the prescale even, the acknowledgement after the release, and
the block at its reset values until it is acknowledged (10_state.md R24, R33, R37). -/
def Obligations.StepKeepsBlockInvariant : Prop :=
  ∀ s t : State, s.block.Inv → step s = .next t → t.block.Inv

/-- Every step keeps the device in agreement with the select line (60_exceptions.md R163, R165, R169). -/
def Obligations.StepKeepsDeviceInvariant : Prop :=
  ∀ s t : State, s.DevInv → step s = .next t → t.DevInv

/-- Every step keeps the micro-cursor inside its expansion, with the temporaries of that step (10_state.md R21, 44_operations.md R133,
R139, R144, R145). A step that faults leaves both as they were, which is the model's reading (log entry 15). -/
def Obligations.StepKeepsCursorInvariant : Prop :=
  ∀ s t : State, s.block.Inv → s.CursorInv → step s = .next t → t.CursorInv

/-- Every step keeps the program and the parameters as they are, adds at most one fault record, halts the host when it adds one, and
never takes a halt back (20_memory.md R55, 10_state.md R22, 60_exceptions.md R161). -/
def Obligations.StepKeepsProgramAndFaultRecord : Prop :=
  ∀ s t : State, step s = .next t →
    t.prog = s.prog ∧ t.params = s.params ∧ (s.HaltInv → t.HaltInv) ∧ (s.halted = true → t.halted = true) ∧
    ∃ rs, t.faults = s.faults ++ rs ∧ rs.length ≤ 1

/-- Only the host moves the host's state: a turn of any other agent leaves the scratch registers, `pc`, the micro-cursor, the select pin
and its function as they are (00_scope.md R15, 42_serial_engine.md R122). -/
def Obligations.OnlyHostMovesHostState : Prop :=
  ∀ s t : State, s.checked = true → s.nextMover ≠ .host → step s = .next t →
    t.h = s.h ∧ t.pc = s.pc ∧ t.cursor = s.cursor ∧ t.gpioCs = s.gpioCs ∧ t.selfn = s.selfn

/-- A program learns nothing of the block from the codec operations: they do the same to the host's registers and `pc` in two
states that agree on those, whatever the block, the device and the select line are (43_codec.md R132). -/
def Obligations.CodecIgnoresBlock : Prop :=
  ∀ (s : State) (b : Block) (dev : Dev) (cs : Bool) (f : SelFn) (d a c : HIdx) (i : Instr),
    (i = .encw d a ∨ i = .encn d a ∨ i = .decw d a c ∨ i = .decn d a) →
    ∃ t, exec i s = .next t ∧ t.block = s.block ∧ t.dev = s.dev ∧
      exec i { s with block := b, dev := dev, gpioCs := cs, selfn := f } =
        .next { t with block := b, dev := dev, gpioCs := cs, selfn := f }
end

