-- ==== Sys2Proof/Laws/LoadCheck.lean ====
section
/-! SUPPORT. What the load check's scan finds (60_exceptions.md R177): the words it recognises, and the first index that breaks
the select-edge settling. -/

namespace Sys2Proof.Machine

/-- The select words are the words of `SELL` and `SELH`. -/
theorem isSelectWord_iff (w : Word) : isSelectWord w = true ↔ w = Instr.sell.firstWord ∨ w = Instr.selh.firstWord := by
  have h1 : Instr.sell.firstWord = 0x2C000000 := by decide
  have h2 : Instr.selh.firstWord = 0x30000000 := by decide
  have h3 : w &&& 0xFFFFFFFF = w := by
    rw [show (0xFFFFFFFF : Word) = BitVec.allOnes 32 by decide, BitVec.and_allOnes]
  simp only [isSelectWord, Instr.row, Row.admits, h3, h1, h2, Bool.or_eq_true, beq_iff_eq]

/-- The settling words are the `DELAY` words with a large enough count. -/
theorem isSettlingDelay_iff (p : Params) (w : Word) :
    isSettlingDelay p w = true ↔ ∃ n : BitVec 16, p.selDelayCycles ≤ n.toNat ∧ w = (Instr.delay n).firstWord := by
  have hw (n : BitVec 16) : (Instr.delay n).firstWord = 0x38000000 ||| n.setWidth 32 := by
    simp [Instr.firstWord, encode, formatP, fieldAt]
  simp only [isSettlingDelay, Instr.row, Row.admits, Bool.and_eq_true, beq_iff_eq, decide_eq_true_eq, hw]
  constructor
  · rintro ⟨h, hn⟩
    refine ⟨_, hn, ?_⟩
    apply BitVec.eq_of_getLsbD_eq
    intro i hi
    have hb := congrArg (fun v : Word => v.getLsbD i) h
    interval_cases i <;> simp [imm16Field] at hb ⊢ <;> exact hb
  · rintro ⟨n, hn, rfl⟩
    refine ⟨?_, ?_⟩
    · apply BitVec.eq_of_getLsbD_eq
      intro i hi
      interval_cases i <;> simp
    · have : imm16Field (0x38000000 ||| n.setWidth 32 : Word) = n := by
        apply BitVec.eq_of_getLsbD_eq
        intro i hi
        interval_cases i <;> simp [imm16Field]
      rwa [this]

theorem settlesAt_iff {p : Params} {prog : List Word} {k : Nat} {w : Word} (h : prog[k]? = some w) :
    SettlesAt p prog k ↔ isImmediate prog k = false ∧ isSettlingDelay p w = true := by
  simp only [SettlesAt, isSettlingDelay_iff, h, Option.some.injEq]

/-- What the load check's scan of the words from `k` on finds: the first of them that breaks the settling. -/
theorem scanSelect_spec (p : Params) (prog : List Word) : ∀ (ws : List Word) (k : Nat) (settled : Bool),
    prog.drop k = ws → (settled = true ↔ 1 ≤ k ∧ SettlesAt p prog (k - 1)) →
    match scanSelect p (isImmediate prog k) settled k ws with
    | none => ∀ j, k ≤ j → ¬ BreaksSettling p prog j
    | some i => k ≤ i ∧ BreaksSettling p prog i ∧ ∀ j, k ≤ j → j < i → ¬ BreaksSettling p prog j := by
  intro ws
  induction ws with
  | nil =>
    intro k settled hd _ j hj hb
    have : prog[j]? = none := List.getElem?_eq_none (by have := List.drop_eq_nil_iff.mp hd; omega)
    rcases hb.2.1 with h | h <;> rw [this] at h <;> cases h
  | cons w ws ih =>
    intro k settled hd hs
    have hk : prog[k]? = some w := by rw [← List.head?_drop, hd]; rfl
    have hd' : prog.drop (k + 1) = ws := by rw [← List.drop_drop, hd]; rfl
    have hk1 : prog[k + 1]? = ws.head? := by rw [← List.head?_drop, hd']
    have himm : isImmediate prog (k + 1) = (!isImmediate prog k && opcField w == 0x06) := by
      simp [isImmediate, hk]
    -- what the rest finds, if this word does not break the settling
    have step (hnot : ¬ BreaksSettling p prog k) (settled' : Bool)
        (hs' : settled' = true ↔ 1 ≤ k + 1 ∧ SettlesAt p prog (k + 1 - 1)) :
        match scanSelect p (isImmediate prog (k + 1)) settled' (k + 1) ws with
        | none => ∀ j, k ≤ j → ¬ BreaksSettling p prog j
        | some i => k ≤ i ∧ BreaksSettling p prog i ∧ ∀ j, k ≤ j → j < i → ¬ BreaksSettling p prog j := by
      have := ih (k + 1) settled' hd' hs'
      split at this
      · intro j hj
        rcases Nat.eq_or_lt_of_le hj with rfl | hj
        · exact hnot
        · exact this j hj
      · obtain ⟨h1, h2, h3⟩ := this
        refine ⟨by omega, h2, fun j hj hji => ?_⟩
        rcases Nat.eq_or_lt_of_le hj with rfl | hj
        · exact hnot
        · exact h3 j hj hji
    unfold scanSelect
    by_cases hi : isImmediate prog k = true
    · have hn : ¬ BreaksSettling p prog k := fun hb => by rw [hb.1] at hi; cases hi
      have := step hn false (by simp [settlesAt_iff hk, hi])
      rw [himm, hi] at this
      simpa [hi] using this
    · have hi' : isImmediate prog k = false := by simpa using hi
      rw [if_neg hi]
      by_cases hsel : isSelectWord w = true
      · -- a select word: the next word is no immediate
        have hopc : (opcField w == 0x06) = false := by
          rcases (isSelectWord_iff w).mp hsel with rfl | rfl <;> decide
        have hnext : SettlesAt p prog (k + 1) ↔ (ws.head?.map (isSettlingDelay p)).getD false = true := by
          cases hh : ws.head? with
          | none => simp [SettlesAt, hk1, hh]
          | some v => rw [settlesAt_iff (hk1.trans hh), himm, hopc]; simp
        have hb : BreaksSettling p prog k ↔ ¬ (settled = true ∧ (ws.head?.map (isSettlingDelay p)).getD false = true) := by
          have : prog[k]? = some Instr.sell.firstWord ∨ prog[k]? = some Instr.selh.firstWord := by
            rcases (isSelectWord_iff w).mp hsel with rfl | rfl
            · exact .inl hk
            · exact .inr hk
          simp only [BreaksSettling, hi', this, true_and, hs, hnext, and_assoc]
        by_cases hok : settled = true ∧ (ws.head?.map (isSettlingDelay p)).getD false = true
        · have := step (by rw [hb]; simpa using hok) (isSettlingDelay p w) (by simp [settlesAt_iff hk, hi'])
          rw [himm, hi'] at this
          rw [if_neg (by simp [hsel, hok.1, hok.2])]
          simpa using this
        · rw [if_pos (by rw [hsel, Bool.true_and, Bool.not_eq_true', ← Bool.not_eq_true, Bool.and_eq_true]; exact hok)]
          exact ⟨Nat.le_refl k, hb.mpr hok, fun j h1 h2 => by omega⟩
      · have hn : ¬ BreaksSettling p prog k := by
          rintro ⟨-, h, -⟩
          apply hsel
          rw [isSelectWord_iff]
          simpa [hk] using h
        have := step hn (isSettlingDelay p w) (by simp [settlesAt_iff hk, hi'])
        rw [himm, hi'] at this
        rw [if_neg (by simp [hsel])]
        simpa using this

end Sys2Proof.Machine
end

