-- ==== Sys2Proof/Laws/State.lean ====
section
/-! SUPPORT. What each update of the state leaves in each field, one lemma a field, so that no later proof unfolds a
record update. -/

namespace Sys2Proof.Machine

variable (s : State)

/-! ### State.raise -/

@[simp] theorem State.raise_h (x : Agent) (k : FaultKind) : (s.raise x k).h = s.h := rfl
@[simp] theorem State.raise_pc (x : Agent) (k : FaultKind) : (s.raise x k).pc = s.pc := rfl
@[simp] theorem State.raise_cursor (x : Agent) (k : FaultKind) : (s.raise x k).cursor = s.cursor := rfl
@[simp] theorem State.raise_halted (x : Agent) (k : FaultKind) : (s.raise x k).halted = true := rfl
@[simp] theorem State.raise_faults (x : Agent) (k : FaultKind) : (s.raise x k).faults = s.faults ++ [{ kind := k, agent := x, pc := s.pc }] := rfl
@[simp] theorem State.raise_gpioCs (x : Agent) (k : FaultKind) : (s.raise x k).gpioCs = s.gpioCs := rfl
@[simp] theorem State.raise_selfn (x : Agent) (k : FaultKind) : (s.raise x k).selfn = s.selfn := rfl
@[simp] theorem State.raise_block (x : Agent) (k : FaultKind) : (s.raise x k).block = s.block := rfl
@[simp] theorem State.raise_dev (x : Agent) (k : FaultKind) : (s.raise x k).dev = s.dev := rfl
@[simp] theorem State.raise_prog (x : Agent) (k : FaultKind) : (s.raise x k).prog = s.prog := rfl
@[simp] theorem State.raise_checked (x : Agent) (k : FaultKind) : (s.raise x k).checked = s.checked := rfl
@[simp] theorem State.raise_params (x : Agent) (k : FaultKind) : (s.raise x k).params = s.params := rfl
@[simp] theorem State.raise_env (x : Agent) (k : FaultKind) : (s.raise x k).env = s.env := rfl

/-! ### State.advance -/

@[simp] theorem State.advance_h (n : Nat) : (s.advance n).h = s.h := rfl
@[simp] theorem State.advance_pc (n : Nat) : (s.advance n).pc = s.pc + n := rfl
@[simp] theorem State.advance_cursor (n : Nat) : (s.advance n).cursor = s.cursor := rfl
@[simp] theorem State.advance_halted (n : Nat) : (s.advance n).halted = s.halted := rfl
@[simp] theorem State.advance_faults (n : Nat) : (s.advance n).faults = s.faults := rfl
@[simp] theorem State.advance_gpioCs (n : Nat) : (s.advance n).gpioCs = s.gpioCs := rfl
@[simp] theorem State.advance_selfn (n : Nat) : (s.advance n).selfn = s.selfn := rfl
@[simp] theorem State.advance_block (n : Nat) : (s.advance n).block = s.block := rfl
@[simp] theorem State.advance_dev (n : Nat) : (s.advance n).dev = s.dev := rfl
@[simp] theorem State.advance_prog (n : Nat) : (s.advance n).prog = s.prog := rfl
@[simp] theorem State.advance_checked (n : Nat) : (s.advance n).checked = s.checked := rfl
@[simp] theorem State.advance_params (n : Nat) : (s.advance n).params = s.params := rfl
@[simp] theorem State.advance_env (n : Nat) : (s.advance n).env = s.env := rfl

/-! ### State.setH -/

@[simp] theorem State.setH_h (i : HIdx) (v : Word) : (s.setH i v).h = s.h.set i (.holds v) := rfl
@[simp] theorem State.setH_pc (i : HIdx) (v : Word) : (s.setH i v).pc = s.pc := rfl
@[simp] theorem State.setH_cursor (i : HIdx) (v : Word) : (s.setH i v).cursor = s.cursor := rfl
@[simp] theorem State.setH_halted (i : HIdx) (v : Word) : (s.setH i v).halted = s.halted := rfl
@[simp] theorem State.setH_faults (i : HIdx) (v : Word) : (s.setH i v).faults = s.faults := rfl
@[simp] theorem State.setH_gpioCs (i : HIdx) (v : Word) : (s.setH i v).gpioCs = s.gpioCs := rfl
@[simp] theorem State.setH_selfn (i : HIdx) (v : Word) : (s.setH i v).selfn = s.selfn := rfl
@[simp] theorem State.setH_block (i : HIdx) (v : Word) : (s.setH i v).block = s.block := rfl
@[simp] theorem State.setH_dev (i : HIdx) (v : Word) : (s.setH i v).dev = s.dev := rfl
@[simp] theorem State.setH_prog (i : HIdx) (v : Word) : (s.setH i v).prog = s.prog := rfl
@[simp] theorem State.setH_checked (i : HIdx) (v : Word) : (s.setH i v).checked = s.checked := rfl
@[simp] theorem State.setH_params (i : HIdx) (v : Word) : (s.setH i v).params = s.params := rfl
@[simp] theorem State.setH_env (i : HIdx) (v : Word) : (s.setH i v).env = s.env := rfl

/-! ### State.toStep -/

@[simp] theorem State.toStep_h (c : Composite) (k : Nat) : (s.toStep c k).h = s.h := rfl
@[simp] theorem State.toStep_pc (c : Composite) (k : Nat) : (s.toStep c k).pc = s.pc := rfl
@[simp] theorem State.toStep_cursor (c : Composite) (k : Nat) : (s.toStep c k).cursor = some { op := c, step := k } := rfl
@[simp] theorem State.toStep_halted (c : Composite) (k : Nat) : (s.toStep c k).halted = s.halted := rfl
@[simp] theorem State.toStep_faults (c : Composite) (k : Nat) : (s.toStep c k).faults = s.faults := rfl
@[simp] theorem State.toStep_gpioCs (c : Composite) (k : Nat) : (s.toStep c k).gpioCs = s.gpioCs := rfl
@[simp] theorem State.toStep_selfn (c : Composite) (k : Nat) : (s.toStep c k).selfn = s.selfn := rfl
@[simp] theorem State.toStep_block (c : Composite) (k : Nat) : (s.toStep c k).block = s.block := rfl
@[simp] theorem State.toStep_dev (c : Composite) (k : Nat) : (s.toStep c k).dev = s.dev := rfl
@[simp] theorem State.toStep_prog (c : Composite) (k : Nat) : (s.toStep c k).prog = s.prog := rfl
@[simp] theorem State.toStep_checked (c : Composite) (k : Nat) : (s.toStep c k).checked = s.checked := rfl
@[simp] theorem State.toStep_params (c : Composite) (k : Nat) : (s.toStep c k).params = s.params := rfl
@[simp] theorem State.toStep_env (c : Composite) (k : Nat) : (s.toStep c k).env = s.env := rfl

/-! ### State.endComposite -/

@[simp] theorem State.endComposite_h : (s.endComposite).h = s.h := rfl
@[simp] theorem State.endComposite_pc : (s.endComposite).pc = s.pc + 1 := rfl
@[simp] theorem State.endComposite_cursor : (s.endComposite).cursor = none := rfl
@[simp] theorem State.endComposite_halted : (s.endComposite).halted = s.halted := rfl
@[simp] theorem State.endComposite_faults : (s.endComposite).faults = s.faults := rfl
@[simp] theorem State.endComposite_gpioCs : (s.endComposite).gpioCs = s.gpioCs := rfl
@[simp] theorem State.endComposite_selfn : (s.endComposite).selfn = s.selfn := rfl
@[simp] theorem State.endComposite_block : (s.endComposite).block = s.block := rfl
@[simp] theorem State.endComposite_dev : (s.endComposite).dev = s.dev := rfl
@[simp] theorem State.endComposite_prog : (s.endComposite).prog = s.prog := rfl
@[simp] theorem State.endComposite_checked : (s.endComposite).checked = s.checked := rfl
@[simp] theorem State.endComposite_params : (s.endComposite).params = s.params := rfl
@[simp] theorem State.endComposite_env : (s.endComposite).env = s.env := rfl

/-! ### State.afterTurn -/

@[simp] theorem State.afterTurn_h : (s.afterTurn).h = s.h := rfl
@[simp] theorem State.afterTurn_pc : (s.afterTurn).pc = s.pc := rfl
@[simp] theorem State.afterTurn_cursor : (s.afterTurn).cursor = s.cursor := rfl
@[simp] theorem State.afterTurn_halted : (s.afterTurn).halted = s.halted := rfl
@[simp] theorem State.afterTurn_faults : (s.afterTurn).faults = s.faults := rfl
@[simp] theorem State.afterTurn_gpioCs : (s.afterTurn).gpioCs = s.gpioCs := rfl
@[simp] theorem State.afterTurn_selfn : (s.afterTurn).selfn = s.selfn := rfl
@[simp] theorem State.afterTurn_block : (s.afterTurn).block = s.block := rfl
@[simp] theorem State.afterTurn_dev : (s.afterTurn).dev = s.dev := rfl
@[simp] theorem State.afterTurn_prog : (s.afterTurn).prog = s.prog := rfl
@[simp] theorem State.afterTurn_checked : (s.afterTurn).checked = s.checked := rfl
@[simp] theorem State.afterTurn_params : (s.afterTurn).params = s.params := rfl
@[simp] theorem State.afterTurn_env : (s.afterTurn).env = { s.env with sched := s.env.sched.tail, draws := s.env.draws + 1 } := rfl

/-! ### State.recorded -/

@[simp] theorem State.recorded_h (x : Agent) (k : FaultKind) : (s.recorded x k).h = s.h := rfl
@[simp] theorem State.recorded_pc (x : Agent) (k : FaultKind) : (s.recorded x k).pc = s.pc := rfl
@[simp] theorem State.recorded_cursor (x : Agent) (k : FaultKind) : (s.recorded x k).cursor = s.cursor := rfl
@[simp] theorem State.recorded_halted (x : Agent) (k : FaultKind) : (s.recorded x k).halted = true := rfl
@[simp] theorem State.recorded_faults (x : Agent) (k : FaultKind) : (s.recorded x k).faults = s.faults ++ [{ kind := k, agent := x, pc := s.pc }] := rfl
@[simp] theorem State.recorded_gpioCs (x : Agent) (k : FaultKind) : (s.recorded x k).gpioCs = s.gpioCs := rfl
@[simp] theorem State.recorded_selfn (x : Agent) (k : FaultKind) : (s.recorded x k).selfn = s.selfn := rfl
@[simp] theorem State.recorded_block (x : Agent) (k : FaultKind) : (s.recorded x k).block = s.block := rfl
@[simp] theorem State.recorded_dev (x : Agent) (k : FaultKind) : (s.recorded x k).dev = s.dev := rfl
@[simp] theorem State.recorded_prog (x : Agent) (k : FaultKind) : (s.recorded x k).prog = s.prog := rfl
@[simp] theorem State.recorded_checked (x : Agent) (k : FaultKind) : (s.recorded x k).checked = s.checked := rfl
@[simp] theorem State.recorded_params (x : Agent) (k : FaultKind) : (s.recorded x k).params = s.params := rfl
@[simp] theorem State.recorded_env (x : Agent) (k : FaultKind) : (s.recorded x k).env = s.env := rfl

/-! ### The select line: every field but the device's is that of the state settled -/

@[simp] theorem State.settleSelect_h (t : State) : (s.settleSelect t).h = t.h := by
  unfold State.settleSelect; split <;> rfl
@[simp] theorem State.settleSelect_pc (t : State) : (s.settleSelect t).pc = t.pc := by
  unfold State.settleSelect; split <;> rfl
@[simp] theorem State.settleSelect_cursor (t : State) : (s.settleSelect t).cursor = t.cursor := by
  unfold State.settleSelect; split <;> rfl
@[simp] theorem State.settleSelect_halted (t : State) : (s.settleSelect t).halted = t.halted := by
  unfold State.settleSelect; split <;> rfl
@[simp] theorem State.settleSelect_faults (t : State) : (s.settleSelect t).faults = t.faults := by
  unfold State.settleSelect; split <;> rfl
@[simp] theorem State.settleSelect_gpioCs (t : State) : (s.settleSelect t).gpioCs = t.gpioCs := by
  unfold State.settleSelect; split <;> rfl
@[simp] theorem State.settleSelect_selfn (t : State) : (s.settleSelect t).selfn = t.selfn := by
  unfold State.settleSelect; split <;> rfl
@[simp] theorem State.settleSelect_block (t : State) : (s.settleSelect t).block = t.block := by
  unfold State.settleSelect; split <;> rfl
@[simp] theorem State.settleSelect_prog (t : State) : (s.settleSelect t).prog = t.prog := by
  unfold State.settleSelect; split <;> rfl
@[simp] theorem State.settleSelect_checked (t : State) : (s.settleSelect t).checked = t.checked := by
  unfold State.settleSelect; split <;> rfl
@[simp] theorem State.settleSelect_params (t : State) : (s.settleSelect t).params = t.params := by
  unfold State.settleSelect; split <;> rfl
@[simp] theorem State.settleSelect_env (t : State) : (s.settleSelect t).env = t.env := by
  unfold State.settleSelect; split <;> rfl

/-! ### State.driveSelect -/

@[simp] theorem State.driveSelect_h (l : Bool) : (s.driveSelect l).h = s.h := by simp [State.driveSelect]
@[simp] theorem State.driveSelect_pc (l : Bool) : (s.driveSelect l).pc = s.pc := by simp [State.driveSelect]
@[simp] theorem State.driveSelect_cursor (l : Bool) : (s.driveSelect l).cursor = s.cursor := by simp [State.driveSelect]
@[simp] theorem State.driveSelect_halted (l : Bool) : (s.driveSelect l).halted = s.halted := by simp [State.driveSelect]
@[simp] theorem State.driveSelect_faults (l : Bool) : (s.driveSelect l).faults = s.faults := by simp [State.driveSelect]
@[simp] theorem State.driveSelect_gpioCs (l : Bool) : (s.driveSelect l).gpioCs = l := by simp [State.driveSelect]
@[simp] theorem State.driveSelect_selfn (l : Bool) : (s.driveSelect l).selfn = s.selfn := by simp [State.driveSelect]
@[simp] theorem State.driveSelect_block (l : Bool) : (s.driveSelect l).block = s.block := by simp [State.driveSelect]
@[simp] theorem State.driveSelect_prog (l : Bool) : (s.driveSelect l).prog = s.prog := by simp [State.driveSelect]
@[simp] theorem State.driveSelect_checked (l : Bool) : (s.driveSelect l).checked = s.checked := by simp [State.driveSelect]
@[simp] theorem State.driveSelect_params (l : Bool) : (s.driveSelect l).params = s.params := by simp [State.driveSelect]
@[simp] theorem State.driveSelect_env (l : Bool) : (s.driveSelect l).env = s.env := by simp [State.driveSelect]

/-! ### State.setSelfn -/

@[simp] theorem State.setSelfn_h (f : SelFn) : (s.setSelfn f).h = s.h := by simp [State.setSelfn]
@[simp] theorem State.setSelfn_pc (f : SelFn) : (s.setSelfn f).pc = s.pc := by simp [State.setSelfn]
@[simp] theorem State.setSelfn_cursor (f : SelFn) : (s.setSelfn f).cursor = s.cursor := by simp [State.setSelfn]
@[simp] theorem State.setSelfn_halted (f : SelFn) : (s.setSelfn f).halted = s.halted := by simp [State.setSelfn]
@[simp] theorem State.setSelfn_faults (f : SelFn) : (s.setSelfn f).faults = s.faults := by simp [State.setSelfn]
@[simp] theorem State.setSelfn_gpioCs (f : SelFn) : (s.setSelfn f).gpioCs = s.gpioCs := by simp [State.setSelfn]
@[simp] theorem State.setSelfn_selfn (f : SelFn) : (s.setSelfn f).selfn = f := by simp [State.setSelfn]
@[simp] theorem State.setSelfn_block (f : SelFn) : (s.setSelfn f).block = s.block := by simp [State.setSelfn]
@[simp] theorem State.setSelfn_prog (f : SelFn) : (s.setSelfn f).prog = s.prog := by simp [State.setSelfn]
@[simp] theorem State.setSelfn_checked (f : SelFn) : (s.setSelfn f).checked = s.checked := by simp [State.setSelfn]
@[simp] theorem State.setSelfn_params (f : SelFn) : (s.setSelfn f).params = s.params := by simp [State.setSelfn]
@[simp] theorem State.setSelfn_env (f : SelFn) : (s.setSelfn f).env = s.env := by simp [State.setSelfn]

/-! ### State.assertReset -/

@[simp] theorem State.assertReset_h : (s.assertReset).h = s.h := by simp [State.assertReset]
@[simp] theorem State.assertReset_pc : (s.assertReset).pc = s.pc := by simp [State.assertReset]
@[simp] theorem State.assertReset_cursor : (s.assertReset).cursor = s.cursor := by simp [State.assertReset]
@[simp] theorem State.assertReset_halted : (s.assertReset).halted = s.halted := by simp [State.assertReset]
@[simp] theorem State.assertReset_faults : (s.assertReset).faults = s.faults := by simp [State.assertReset]
@[simp] theorem State.assertReset_gpioCs : (s.assertReset).gpioCs = s.gpioCs := by simp [State.assertReset]
@[simp] theorem State.assertReset_selfn : (s.assertReset).selfn = s.selfn := by simp [State.assertReset]
@[simp] theorem State.assertReset_block : (s.assertReset).block = Block.reset := by simp [State.assertReset]
@[simp] theorem State.assertReset_prog : (s.assertReset).prog = s.prog := by simp [State.assertReset]
@[simp] theorem State.assertReset_checked : (s.assertReset).checked = s.checked := by simp [State.assertReset]
@[simp] theorem State.assertReset_params : (s.assertReset).params = s.params := by simp [State.assertReset]
@[simp] theorem State.assertReset_env : (s.assertReset).env = s.env := by simp [State.assertReset]

/-! ### State.releaseReset -/

@[simp] theorem State.releaseReset_h : (s.releaseReset).h = s.h := by simp [State.releaseReset]
@[simp] theorem State.releaseReset_pc : (s.releaseReset).pc = s.pc := by simp [State.releaseReset]
@[simp] theorem State.releaseReset_cursor : (s.releaseReset).cursor = s.cursor := by simp [State.releaseReset]
@[simp] theorem State.releaseReset_halted : (s.releaseReset).halted = s.halted := by simp [State.releaseReset]
@[simp] theorem State.releaseReset_faults : (s.releaseReset).faults = s.faults := by simp [State.releaseReset]
@[simp] theorem State.releaseReset_gpioCs : (s.releaseReset).gpioCs = s.gpioCs := by simp [State.releaseReset]
@[simp] theorem State.releaseReset_selfn : (s.releaseReset).selfn = s.selfn := by simp [State.releaseReset]
@[simp] theorem State.releaseReset_block : (s.releaseReset).block = { s.block with inReset := false } := by simp [State.releaseReset]
@[simp] theorem State.releaseReset_prog : (s.releaseReset).prog = s.prog := by simp [State.releaseReset]
@[simp] theorem State.releaseReset_checked : (s.releaseReset).checked = s.checked := by simp [State.releaseReset]
@[simp] theorem State.releaseReset_params : (s.releaseReset).params = s.params := by simp [State.releaseReset]
@[simp] theorem State.releaseReset_env : (s.releaseReset).env = s.env := by simp [State.releaseReset]

/-- The device once the select line has settled is `State.devAt` of the line's new level. -/
theorem State.settleSelect_dev (t : State) (hd : t.dev = s.dev) (hp : t.params = s.params) :
    (s.settleSelect t).dev = s.devAt t.deviceCs := by
  unfold State.settleSelect State.devAt
  rw [hp, hd]
  cases s.params.devicePresent <;> cases s.deviceCs <;> cases t.deviceCs <;> simp [Dev.follow, Dev.fresh, hd]

/-- Settling the select line is the device update and nothing else. -/
theorem State.settleSelect_eq (t : State) (hd : t.dev = s.dev) (hp : t.params = s.params) :
    s.settleSelect t = { t with dev := s.devAt t.deviceCs } := by
  have h := State.settleSelect_dev s t hd hp
  unfold State.settleSelect at h ⊢
  split at h <;> rename_i hc
  · rw [if_pos hc]; rw [← h]
  · rw [if_neg hc]; rw [← h]

/-- A select line that does not move leaves the device alone. -/
theorem State.devAt_same : s.devAt s.deviceCs = s.dev := by
  unfold State.devAt; cases s.params.devicePresent <;> cases s.deviceCs <;> simp

end Sys2Proof.Machine
end

