-- ==== Sys2Proof/Laws/Ops.lean ====
section
/-! SUPPORT. One lemma for each shared operation that says once what it can do: the end of a host step, operands, the
access check, register reads and writes, settling. Later proofs cite these and do not unfold the operations. -/

namespace Sys2Proof.Machine

/-! ### The end of a host step -/

theorem finish_ok (s t : State) : finish s (.ok t) = .next t := rfl

theorem finish_hold (s : State) : finish s (.error .hold) = .next s := rfl

theorem finish_fault (s : State) (k : FaultKind) : finish s (.error (.fault k)) = .next (s.recorded .host k) := rfl

/-- A host step always ends in a next state: its effect's, or its own where it holds, or the recorded fault. -/
theorem finish_next {s t : State} {e : Eff State} (h : finish s e = .next t) :
    e = .ok t ∨ (e = .error .hold ∧ t = s) ∨ ∃ k, e = .error (.fault k) ∧ t = s.recorded .host k := by
  unfold finish at h
  split at h <;> cases h
  · exact .inl rfl
  · exact .inr (.inl ⟨rfl, rfl⟩)
  · exact .inr (.inr ⟨_, rfl, rfl⟩)

/-- An `Eff` bind that answers: its first part did. -/
theorem bind_ok {α β : Type} {e : Eff α} {f : α → Eff β} {b : β} (h : (e >>= f) = .ok b) : ∃ a, e = .ok a ∧ f a = .ok b := by
  cases e with
  | error x => cases h
  | ok a => exact ⟨a, rfl, h⟩

/-! ### Operands -/

theorem readH_holds {s : State} {i : HIdx} {v : Word} (h : s.h[i] = .holds v) : s.readH i = .ok v := by
  simp only [State.readH, h]

theorem readH_unwritten {s : State} {i : HIdx} (h : s.h[i] = .unwritten) : s.readH i = .error (.fault (.unwrittenRegister i)) := by
  simp only [State.readH, h]

theorem readH2_holds {s : State} {a b : HIdx} {v m : Word} (ha : s.h[a] = .holds v) (hb : s.h[b] = .holds m) :
    s.readH2 a b = .ok (v, m) := by
  unfold State.readH2
  rw [readH_holds ha, readH_holds hb]
  split <;> rfl

/-! ### The access check -/

/-- What the access check answers: the register at an aligned, mapped offset, in the direction of the access, without a refused
side effect, out of reset. -/
theorem accessCheck_ok {s : State} {off : Offset} {k : Access} {r : Reg} (h : s.accessCheck off k = .ok r) :
    regAt off = some r ∧ k.directionOk r = true ∧ (k.noSide = true → r.hasSideEffect = false) ∧ s.block.outOfReset = true := by
  unfold State.accessCheck at h
  split at h
  · cases h
  · split at h
    · cases h
    · split at h
      · cases h
      · split at h
        · cases h
        · split at h
          · cases h
          · cases h
            simp_all

/-- Every mapped offset is aligned (10_state.md R25). -/
theorem regAt_aligned {off : Offset} {r : Reg} (h : regAt off = some r) : off.toNat % 4 = 0 := by
  unfold regAt at h
  split at h <;> simp_all

theorem accessCheck_of {s : State} {off : Offset} {k : Access} {r : Reg} (h : s.Accessible off r) (hd : k.directionOk r = true)
    (hs : k.noSide = true → r.hasSideEffect = false) : s.accessCheck off k = .ok r := by
  obtain ⟨h1, h2, h3⟩ := h
  have ha := regAt_aligned h1
  have hn : (k.noSide && r.hasSideEffect) = false := by
    cases hk : k.noSide
    · rfl
    · simp [hs hk]
  simp [State.accessCheck, ha, h1, hd, hn, Block.outOfReset, h2, h3]

/-! ### What an effect leaves alone -/

/-- `t` has the program, the parameters, the fault record, the load-check mark and the halt of `s`. -/
structure Keeps (s t : State) : Prop where
  prog : t.prog = s.prog
  params : t.params = s.params
  faults : t.faults = s.faults
  checked : t.checked = s.checked
  halted : t.halted = s.halted

theorem Keeps.rfl {s : State} : Keeps s s := ⟨.refl _, .refl _, .refl _, .refl _, .refl _⟩

theorem Keeps.trans {s t u : State} (h : Keeps s t) (g : Keeps t u) : Keeps s u :=
  ⟨g.prog.trans h.prog, g.params.trans h.params, g.faults.trans h.faults, g.checked.trans h.checked, g.halted.trans h.halted⟩

theorem readData_keeps (s : State) : Keeps s s.readData.2 := by
  unfold State.readData; split <;> exact ⟨rfl, rfl, rfl, rfl, rfl⟩

theorem readPlain_keeps (s : State) (r : Reg) : Keeps s (s.readPlain r).2 := by
  unfold State.readPlain; split <;> exact ⟨rfl, rfl, rfl, rfl, rfl⟩

theorem regRead_keeps (s : State) (r : Reg) : Keeps s (s.regRead r).2 := by
  unfold State.regRead
  split
  · exact readData_keeps s
  · exact readPlain_keeps s r

theorem settleSelect_keeps (s t : State) : Keeps t (s.settleSelect t) := by
  constructor <;> simp

theorem regWrite_keeps {s t : State} {r : Reg} {v : Word} (h : s.regWrite r v = .ok t) : Keeps s t := by
  unfold State.regWrite at h
  split at h
  case h_1 => split at h <;> cases h; exact ⟨by simp, by simp, by simp, by simp, by simp⟩
  case h_2 => split at h <;> cases h; exact ⟨by simp, by simp, by simp, by simp, by simp⟩
  case h_3 => split at h <;> cases h; exact ⟨rfl, rfl, rfl, rfl, rfl⟩
  case h_4 => split at h <;> cases h; exact ⟨rfl, rfl, rfl, rfl, rfl⟩
  all_goals first | (cases h; done) | (cases h; exact ⟨rfl, rfl, rfl, rfl, rfl⟩)

theorem readEffect_keeps {s : State} {off : Offset} {p : Word × State} (h : s.readEffect off = .ok p) : Keeps s p.2 := by
  obtain ⟨r, -, h2⟩ := bind_ok h
  cases h2; exact regRead_keeps s r

theorem maskedReadEffect_keeps {s : State} {off : Offset} {m : Word} {p : Word × State} (h : s.maskedReadEffect off m = .ok p) :
    Keeps s p.2 := by
  obtain ⟨r, -, h2⟩ := bind_ok h
  cases h2; exact regRead_keeps s r

theorem writeEffect_keeps {s t : State} {off : Offset} {v : Word} (h : s.writeEffect off v = .ok t) : Keeps s t := by
  obtain ⟨r, -, h2⟩ := bind_ok h
  exact regWrite_keeps h2

theorem maskedWriteEffect_keeps {s t : State} {off : Offset} {v m : Word} (h : s.maskedWriteEffect off v m = .ok t) : Keeps s t := by
  obtain ⟨r, -, h2⟩ := bind_ok h
  exact regWrite_keeps h2

/-! ### The Engine -/

/-- What one frame changes: the block's receive FIFO or its overrun latch, the device and the environment. -/
theorem sendFrame_eq (s : State) (hd : Half) : ∃ r dev env,
    s.sendFrame hd = { s with block := s.block.receive r, dev := dev, env := env } := ⟨_, _, _, rfl⟩

/-- What the frame step can be: nothing where it is not enabled, a recorded fault, or one frame. -/
theorem frameStep_cases (s : State) : s.frameStep = s ∨
    (∃ r, s.block.frameCheck = some r ∧ s.frameStep = s.recorded .engine (.invalidFrameConfig r)) ∨
    ∃ hd rest, s.block.txq = hd :: rest ∧ s.block.frameCheck = none ∧ s.block.outOfReset = true ∧ s.block.sse = true ∧
      s.frameStep = State.sendFrame { s with block := { s.block with txq := rest } } hd := by
  unfold State.frameStep
  by_cases h : (s.block.outOfReset && s.block.sse) = true
  · rw [if_pos h]
    simp only [Bool.and_eq_true] at h
    split
    · exact .inl rfl
    · split
      · exact .inr (.inl ⟨_, ‹_›, rfl⟩)
      · exact .inr (.inr ⟨_, _, ‹_›, ‹_›, h.1, h.2, rfl⟩)
  · rw [if_neg h]; exact .inl rfl

/-- A word received of a full or not full FIFO. -/
theorem receive_eq (b : Block) (r : Half) :
    b.receive r = if b.rxq.length < 8 then { b with rxq := b.rxq ++ [r] } else { b with rorLatch := true } := rfl

/-! ### Ranges of scratch registers -/

/-- Reading a range of scratch registers that all hold a value. -/
theorem readRange_holds (s : State) : ∀ (tx : List Word) (a : Nat), a + tx.length ≤ 8 →
    (∀ (k : Nat) (w : Word) (i : HIdx), tx[k]? = some w → i.val = a + k → s.h[i] = .holds w) →
    s.readRange a tx.length = .ok tx := by
  intro tx
  induction tx with
  | nil => intro a _ _; rfl
  | cons v vs ih =>
    intro a ha h
    simp only [List.length_cons] at ha
    have hv : (Fin.ofNat 8 a).val = a := Nat.mod_eq_of_lt (by omega)
    have h0 := readH_holds (h 0 v (Fin.ofNat 8 a) rfl hv)
    have ht := ih (a + 1) (by omega) fun k w i hk hi => h (k + 1) w i hk (by omega)
    rw [List.length_cons, State.readRange, h0]
    change (s.readRange (a + 1) vs.length >>= fun ys => pure (v :: ys)) = _
    rw [ht]; rfl

/-- Reading a range of scratch registers faults at the first unwritten one. -/
theorem readRange_unwritten {s : State} {i : HIdx} (hi : s.h[i] = .unwritten) : ∀ n a : Nat, a ≤ i.val → i.val < a + n →
    (∀ j : HIdx, a ≤ j.val → j < i → s.h[j] ≠ .unwritten) →
    s.readRange a n = .error (.fault (.unwrittenRegister i)) := by
  intro n
  induction n with
  | zero => intro a h1 h2; omega
  | succ n ih =>
    intro a h1 h2 h4
    have hv : (Fin.ofNat 8 a).val = a := Nat.mod_eq_of_lt (by omega)
    by_cases he : a = i.val
    · have : Fin.ofNat 8 a = i := Fin.ext (hv.trans he)
      rw [State.readRange, this, State.readH, hi]; rfl
    · have hn := h4 (Fin.ofNat 8 a) (by omega) (Fin.lt_def.mpr (by omega))
      rw [State.readRange, State.readH]
      split
      · rw [ih (a + 1) (by omega) (by omega) fun j hj => h4 j (by omega)]; rfl
      · exact absurd ‹_› hn

/-- Writing a range of scratch registers: each gets its word, and no other changes. -/
theorem setRange_spec : ∀ (l : List Word) (h : Vector Scratch 8) (d : Nat), d + l.length ≤ 8 →
    (∀ (j : Nat) (x : Word) (i : HIdx), l[j]? = some x → i.val = d + j → (setRange h d l)[i] = .holds x) ∧
    (∀ i : HIdx, i.val < d ∨ d + l.length ≤ i.val → (setRange h d l)[i] = h[i]) := by
  intro l
  induction l with
  | nil => intro h d _; exact ⟨by simp, fun i _ => rfl⟩
  | cons v vs ih =>
    intro h d hd
    simp only [List.length_cons] at hd
    have hv : (Fin.ofNat 8 d).val = d := Nat.mod_eq_of_lt (by omega)
    obtain ⟨h1, h2⟩ := ih (h.set (Fin.ofNat 8 d) (.holds v)) (d + 1) (by omega)
    have hset (i : HIdx) : (h.set (Fin.ofNat 8 d) (.holds v))[i] = if d = i.val then .holds v else h[i] := by
      rw [Fin.getElem_fin, Vector.getElem_set, hv, Fin.getElem_fin]
    refine ⟨fun j x i hj hi => ?_, fun i hi => ?_⟩
    · cases j with
      | zero =>
        obtain rfl := Option.some.inj hj
        rw [setRange, h2 i (by omega), hset, if_pos (by omega)]
      | succ j => exact h1 j x i hj (by omega)
    · simp only [List.length_cons] at hi
      rw [setRange, h2 i (by omega), hset, if_neg (by omega)]

/-! ### SSPDR, the transfer and the select pin -/

/-- A write of SSPDR: refused in reset, then with the FIFO full, else the word's low half is queued. -/
theorem writeEffect_data (s : State) (w : Word) : s.writeEffect 0x008 w =
    if s.block.inReset = true ∨ s.block.rstDone = false then .error (.fault (.inResetAccess 0x008))
    else if Config.fifoDepth ≤ s.block.txq.length then .error (.fault .txOverflow)
    else .ok { s with block := { s.block with txq := s.block.txq ++ [w.setWidth 16] } } := by
  have hr : regAt 0x008 = some .dr := by decide
  simp only [State.writeEffect, State.accessCheck, regAt_aligned hr, hr, Access.directionOk, Access.reads, Reg.writable,
    Access.noSide, Block.outOfReset]
  by_cases h1 : s.block.inReset = true <;> by_cases h2 : s.block.rstDone = true <;>
    simp [h1, h2, bind, Except.bind, State.regWrite]

/-- A read of SSPDR: refused in reset, else what `readData` gives. -/
theorem readEffect_data (s : State) : s.readEffect 0x008 =
    if s.block.inReset = true ∨ s.block.rstDone = false then .error (.fault (.inResetAccess 0x008))
    else .ok s.readData := by
  have hr : regAt 0x008 = some .dr := by decide
  simp only [State.readEffect, State.accessCheck, regAt_aligned hr, hr, Access.directionOk, Access.reads, Reg.readable,
    Access.noSide, Block.outOfReset]
  by_cases h1 : s.block.inReset = true <;> by_cases h2 : s.block.rstDone = true <;>
    simp [h1, h2, bind, Except.bind, pure, Except.pure, State.regRead]

/-- A writing step of a transfer. -/
theorem transferStep_write {t : XferTemps} (s : State) {k : Nat} {w : Word} (hk : 1 ≤ k) (h : t.tx[k - 1]? = some w) :
    transferStep t s k =
      if s.block.inReset = true ∨ s.block.rstDone = false then .error (.fault (.inResetAccess 0x008))
      else if Config.fifoDepth ≤ s.block.txq.length then .error (.fault .txOverflow)
      else .ok (t, { s with block := { s.block with txq := s.block.txq ++ [w.setWidth 16] } }) := by
  have hl : k ≤ t.tx.length := by have := (List.getElem?_eq_some_iff.mp h).1; omega
  simp only [transferStep, if_pos hl, List.getD_eq_getElem?_getD, h, Option.getD_some, writeEffect_data]
  split_ifs <;> rfl

/-- A reading step of a transfer holds while the receive FIFO is empty. -/
theorem transferStep_hold {t : XferTemps} {s : State} {k : Nat} (hk : t.tx.length < k) (h : s.block.rxq = []) :
    transferStep t s k = .error .hold := by
  simp [transferStep, Nat.not_le.mpr hk, h]

/-- A reading step of a transfer takes the head of the receive FIFO. -/
theorem transferStep_read {t : XferTemps} {s : State} {k : Nat} {w : Half} {ws : List Half} (hk : t.tx.length < k)
    (h : s.block.rxq = w :: ws) :
    transferStep t s k =
      if s.block.inReset = true ∨ s.block.rstDone = false then .error (.fault (.inResetAccess 0x008))
      else .ok ({ t with rx := t.rx ++ [w.setWidth 32] }, { s with block := { s.block with rxq := ws } }) := by
  rw [transferStep, if_neg (Nat.not_le.mpr hk), h, List.isEmpty_cons, if_neg Bool.false_ne_true, readEffect_data, State.readData, h]
  split_ifs <;> rfl

/-- Driving the select pin moves the pin and, where the device sees it, the device. -/
theorem driveSelect_eq (s : State) (level : Bool) :
    s.driveSelect level = { s with gpioCs := level, dev := s.devDriven level } := by
  have same (a : Bool) (d : Dev) : d.follow a a = d := by cases a <;> rfl
  unfold State.driveSelect State.settleSelect State.devDriven
  by_cases hp : s.params.devicePresent = true
  · cases hs : s.selfn with
    | periph => simp [State.deviceCs, hs, hp, same]
    | gpio => by_cases hg : s.gpioCs = true <;> cases level <;> simp [State.deviceCs, hs, hp, hg, Dev.follow, Dev.fresh]
  · simp [hp]

end Sys2Proof.Machine
end

