-- ==== Sys2Proof/Laws/PerInstr.lean ====
section
/-! SUPPORT. The statement made of every instruction as syntax: its first word is one its row of the opcode map admits, and it
takes as many words as its length says (30_encoding.md R57, R60, R61, R202, R203). -/

namespace Sys2Proof.Laws.EncodingRow

/-- The first word of the instruction matches its row, and its words are as many as its length. -/
def Statement (i : Instr) : Prop := i.row.admits i.firstWord = true ∧ (encode i).length = i.length

/-- The bits of a word made of placed fields agree with a row's mask and value. -/
theorem row_admits_of_bits {r : Row} {w : Word} (h : ∀ i, i < 32 → (w.getLsbD i && r.mask.getLsbD i) = r.value.getLsbD i) :
    r.admits w = true := by
  simp only [Row.admits, beq_iff_eq]
  apply BitVec.eq_of_getLsbD_eq
  intro i hi
  rw [BitVec.getLsbD_and, h i hi]

theorem rd (d : HIdx) (off : Offset) : Statement (.rd d off) := by
  refine ⟨row_admits_of_bits fun i hi => ?_, rfl⟩
  simp only [Instr.row, Instr.firstWord, encode, List.headD, formatR, fieldAt]
  interval_cases i <;> simp

theorem wr (off : Offset) (a : HIdx) : Statement (.wr off a) := by
  refine ⟨row_admits_of_bits fun i hi => ?_, rfl⟩
  simp only [Instr.row, Instr.firstWord, encode, List.headD, formatR, fieldAt]
  interval_cases i <;> simp

theorem rdm (d : HIdx) (off : Offset) (b : HIdx) : Statement (.rdm d off b) := by
  refine ⟨row_admits_of_bits fun i hi => ?_, rfl⟩
  simp only [Instr.row, Instr.firstWord, encode, List.headD, formatR, fieldAt]
  interval_cases i <;> simp

theorem wrm (off : Offset) (a : HIdx) (b : HIdx) : Statement (.wrm off a b) := by
  refine ⟨row_admits_of_bits fun i hi => ?_, rfl⟩
  simp only [Instr.row, Instr.firstWord, encode, List.headD, formatR, fieldAt]
  interval_cases i <;> simp

theorem wait (off : Offset) (a : HIdx) (b : HIdx) : Statement (.wait off a b) := by
  refine ⟨row_admits_of_bits fun i hi => ?_, rfl⟩
  simp only [Instr.row, Instr.firstWord, encode, List.headD, formatR, fieldAt]
  interval_cases i <;> simp

theorem li (d : HIdx) (imm : Word) : Statement (.li d imm) := by
  refine ⟨row_admits_of_bits fun i hi => ?_, rfl⟩
  simp only [Instr.row, Instr.firstWord, encode, List.headD, formatI, fieldAt]
  interval_cases i <;> simp

theorem rsta : Statement (.rsta) := by
  exact ⟨by decide, rfl⟩

theorem rstr : Statement (.rstr) := by
  exact ⟨by decide, rfl⟩

theorem rstw : Statement (.rstw) := by
  exact ⟨by decide, rfl⟩

theorem sell : Statement (.sell) := by
  exact ⟨by decide, rfl⟩

theorem selh : Statement (.selh) := by
  exact ⟨by decide, rfl⟩

theorem selfn (f : SelFn) : Statement (.selfn f) := by
  cases f <;> exact ⟨by decide, rfl⟩

theorem delay (n : BitVec 16) : Statement (.delay n) := by
  refine ⟨row_admits_of_bits fun i hi => ?_, rfl⟩
  simp only [Instr.row, Instr.firstWord, encode, List.headD, formatP, fieldAt]
  interval_cases i <;> simp

theorem halt : Statement (.halt) := by
  exact ⟨by decide, rfl⟩

theorem encw (d : HIdx) (a : HIdx) : Statement (.encw d a) := by
  refine ⟨row_admits_of_bits fun i hi => ?_, rfl⟩
  simp only [Instr.row, Instr.firstWord, encode, List.headD, formatC, fieldAt]
  interval_cases i <;> simp

theorem encn (d : HIdx) (a : HIdx) : Statement (.encn d a) := by
  refine ⟨row_admits_of_bits fun i hi => ?_, rfl⟩
  simp only [Instr.row, Instr.firstWord, encode, List.headD, formatC, fieldAt]
  interval_cases i <;> simp

theorem decw (d : HIdx) (a : HIdx) (b : HIdx) : Statement (.decw d a b) := by
  refine ⟨row_admits_of_bits fun i hi => ?_, rfl⟩
  simp only [Instr.row, Instr.firstWord, encode, List.headD, formatC, fieldAt]
  interval_cases i <;> simp

theorem decn (d : HIdx) (a : HIdx) : Statement (.decn d a) := by
  refine ⟨row_admits_of_bits fun i hi => ?_, rfl⟩
  simp only [Instr.row, Instr.firstWord, encode, List.headD, formatC, fieldAt]
  interval_cases i <;> simp

theorem config (d : HIdx) (a : HIdx) (bus : BitVec 2) (mode : BitVec 2) (ord : BitOrder) (wid : BitVec 5) : Statement (.config d a bus mode ord wid) := by
  refine ⟨row_admits_of_bits fun i hi => ?_, rfl⟩
  simp only [Instr.row, Instr.firstWord, encode, List.headD, formatG, fieldAt]
  interval_cases i <;> simp

theorem xfer (d : HIdx) (a : HIdx) (n : BitVec 4) : Statement (.xfer d a n) := by
  refine ⟨row_admits_of_bits fun i hi => ?_, rfl⟩
  simp only [Instr.row, Instr.firstWord, encode, List.headD, formatX, fieldAt]
  interval_cases i <;> simp

theorem readch (d : HIdx) (a : HIdx) : Statement (.readch d a) := by
  refine ⟨row_admits_of_bits fun i hi => ?_, rfl⟩
  simp only [Instr.row, Instr.firstWord, encode, List.headD, formatQ, fieldAt]
  interval_cases i <;> simp

theorem mcpCmdWide (ch : BitVec 3) : Statement (.mcpCmdWide ch) := by
  refine ⟨row_admits_of_bits fun i hi => ?_, rfl⟩
  simp only [Instr.row, Instr.firstWord, encode, List.headD, formatWide, fieldAt]
  interval_cases i <;> simp

theorem mcpCmdNarrow (ch : BitVec 3) : Statement (.mcpCmdNarrow ch) := by
  refine ⟨row_admits_of_bits fun i hi => ?_, rfl⟩
  simp only [Instr.row, Instr.firstWord, encode, List.headD, formatNarrow, fieldAt]
  interval_cases i <;> simp

end Sys2Proof.Laws.EncodingRow
end

