-- ==== Sys2Proof/Laws/Safety.lean ====
section
/-! SUPPORT. How a run ends (41_platform_ports.md R94): what has ended well or deadlocked stays so, and is no hang; and a run
in which the host's turn always comes again is a hang unless it deadlocks or the host halts. -/

namespace Sys2Proof.Machine

/-- A step of a machine with no fault and a checked program is the turn of the agent that moves next. -/
theorem step_eq_moverStep {s : State} (hf : s.faults = []) (hc : s.checked = true) :
    step s = s.afterTurn.moverStep s.nextMover := by
  simp [step, State.turn, hf, hc]

/-- An agent's turn with no enabled step changes nothing. -/
theorem moverStep_of_disabled {s : State} {m : Mover} (hh : m = .host → s.hostStep = .next s)
    (h : s.otherEnabled = false) : s.moverStep m = .next s := by
  simp only [State.otherEnabled, Bool.or_eq_false_iff] at h
  obtain ⟨⟨⟨hf, ha⟩, ht⟩, hc⟩ := h
  cases m with
  | host => exact hh rfl
  | resetCtl => simp [State.moverStep, State.resetCtlStep, ha]
  | engineTimeout => simp [State.moverStep, State.timeoutStep, ht]
  | engineTimeoutClear => simp [State.moverStep, State.timeoutClearStep, hc]
  | engineFrame =>
    simp only [State.moverStep, State.frameStep]
    split
    · rename_i ho
      split
      · rfl
      · rename_i hq; simp [Block.frameEnabled, ho, hq] at hf
    · rfl

/-- A deadlocked machine only lets turns pass. -/
theorem State.Deadlock.step_eq {s : State} (h : s.Deadlock) : step s = .next s.afterTurn := by
  obtain ⟨hf, hc, hs, ho⟩ := h
  rw [step_eq_moverStep hf hc]
  exact moverStep_of_disabled (fun _ => (hs _).2) ho

theorem State.Deadlock.afterTurn {s : State} (h : s.Deadlock) : s.afterTurn.Deadlock :=
  ⟨h.1, h.2.1, fun e => h.2.2.1 e, h.2.2.2⟩

theorem State.Deadlock.not_agentSteps {s : State} (h : s.Deadlock) : ¬ s.AgentSteps := by
  obtain ⟨-, -, hs, ho⟩ := h
  simp only [State.otherEnabled, Bool.or_eq_false_iff] at ho
  rintro ⟨-, -, h⟩
  split at h
  · exact h.2 (hs _)
  · simp [ho] at h
  · simp [ho] at h
  · simp [ho] at h
  · simp [ho] at h

/-- A run that has deadlocked stays deadlocked. -/
theorem deadlock_stays {run : Nat → State} (hr : IsRun run) {n m : Nat} (hnm : n ≤ m) (h : (run n).Deadlock) :
    (run m).Deadlock := by
  induction m, hnm using Nat.le_induction with
  | base => exact h
  | succ m _ ih =>
    have := hr m
    rw [ih.step_eq] at this
    injection this with this
    exact this ▸ ih.afterTurn

/-- A run that has deadlocked is no hang (41_platform_ports.md R94). -/
theorem Hang.not_deadlock {run : Nat → State} (h : Hang run) (n : Nat) : ¬ (run n).Deadlock := by
  intro hd
  obtain ⟨hr, hs | ⟨k, hw, -⟩⟩ := h
  · obtain ⟨m, hm, ha⟩ := hs n
    exact (deadlock_stays hr hm hd).not_agentSteps ha
  · exact (hw (max n k) (le_max_right n k)).2 (deadlock_stays hr (le_max_left n k) hd)

/-- Whether a timeout step is enabled: the only steps left once a run has ended well. -/
def State.timeoutPending (s : State) : Bool := s.block.timeoutEnabled || s.block.timeoutClearEnabled

/-- Once a run has ended well, a step leaves it so; a timeout step may still come, and no other after it. -/
theorem endedWell_step {s t : State} (h : s.endedWell = true) (hs : step s = .next t) :
    t.endedWell = true ∧ (s.AgentSteps → s.timeoutPending = true ∧ t.timeoutPending = false) ∧
      (s.timeoutPending = false → t.timeoutPending = false) := by
  simp only [State.endedWell, Bool.and_eq_true, Bool.not_eq_true', List.isEmpty_iff] at h
  obtain ⟨⟨⟨⟨hc, hh⟩, hf⟩, hfr⟩, ha⟩ := h
  rw [step_eq_moverStep hf hc] at hs
  have same : t = s.afterTurn → t.endedWell = true ∧ t.timeoutPending = s.timeoutPending := by
    rintro rfl
    exact ⟨by simp [State.endedWell, State.afterTurn, hc, hh, hf, hfr, ha], rfl⟩
  have frame : s.afterTurn.frameStep = s.afterTurn := by
    unfold State.frameStep
    split
    · rename_i ho
      split
      · rfl
      · rename_i hq
        have ho' : (s.block.outOfReset && s.block.sse) = true := ho
        have hq' : s.block.txq = _ :: _ := hq
        simp [Block.frameEnabled, ho', hq'] at hfr
    · rfl
  cases hm : s.nextMover <;> rw [hm] at hs <;> simp only [State.moverStep] at hs
  · have : t = s.afterTurn := by
      simp only [State.hostStep, show s.afterTurn.halted = true from hh, if_true] at hs
      injection hs with hs; exact hs.symm
    obtain ⟨h1, h2⟩ := same this
    exact ⟨h1, fun ⟨_, _, h⟩ => by simp [hm, hh] at h, fun h => h2.trans h⟩
  · have : t = s.afterTurn := by
      injection hs with hs
      rw [← hs, State.resetCtlStep, show s.afterTurn.block.ackEnabled = false from ha]; rfl
    obtain ⟨h1, h2⟩ := same this
    exact ⟨h1, fun ⟨_, _, h⟩ => by simp [hm, ha] at h, fun h => h2.trans h⟩
  · have : t = s.afterTurn := by injection hs with hs; rw [← hs, frame]
    obtain ⟨h1, h2⟩ := same this
    exact ⟨h1, fun ⟨_, _, h⟩ => by simp [hm, hfr] at h, fun h => h2.trans h⟩
  · injection hs with hs
    by_cases hp : s.block.timeoutEnabled = true
    · have : t = { s.afterTurn with block := { s.block with rtLatch := true } } := by
        rw [← hs, State.timeoutStep, show s.afterTurn.block.timeoutEnabled = true from hp]; rfl
      subst this
      have hq : s.block.rxq.isEmpty = false := by
        simp only [Block.timeoutEnabled, Bool.and_eq_true, Bool.not_eq_true'] at hp; exact hp.1.1.2
      have hpend : State.timeoutPending { s.afterTurn with block := { s.block with rtLatch := true } } = false := by
        simp [State.timeoutPending, Block.timeoutEnabled, Block.timeoutClearEnabled, hq]
      refine ⟨?_, fun _ => ⟨by simp [State.timeoutPending, hp], hpend⟩, fun _ => hpend⟩
      have e1 : Block.frameEnabled { s.block with rtLatch := true } = false := hfr
      have e2 : Block.ackEnabled { s.block with rtLatch := true } = false := ha
      simp [State.endedWell, State.afterTurn, hc, hh, hf, e1, e2]
    · have : t = s.afterTurn := by
        rw [← hs, State.timeoutStep, show s.afterTurn.block.timeoutEnabled = false from Bool.eq_false_iff.mpr hp]; rfl
      obtain ⟨h1, h2⟩ := same this
      exact ⟨h1, fun ⟨_, _, h⟩ => by simp [hm, hp] at h, fun h => h2.trans h⟩
  · injection hs with hs
    by_cases hp : s.block.timeoutClearEnabled = true
    · have : t = { s.afterTurn with block := { s.block with rtLatch := false } } := by
        rw [← hs, State.timeoutClearStep, show s.afterTurn.block.timeoutClearEnabled = true from hp]; rfl
      subst this
      have hq : s.block.rxq.isEmpty = true := by
        simp only [Block.timeoutClearEnabled, Bool.and_eq_true] at hp; exact hp.1
      have hpend : State.timeoutPending { s.afterTurn with block := { s.block with rtLatch := false } } = false := by
        simp [State.timeoutPending, Block.timeoutEnabled, Block.timeoutClearEnabled, hq]
      refine ⟨?_, fun _ => ⟨by simp [State.timeoutPending, hp], hpend⟩, fun _ => hpend⟩
      have e1 : Block.frameEnabled { s.block with rtLatch := false } = false := hfr
      have e2 : Block.ackEnabled { s.block with rtLatch := false } = false := ha
      simp [State.endedWell, State.afterTurn, hc, hh, hf, e1, e2]
    · have : t = s.afterTurn := by
        rw [← hs, State.timeoutClearStep, show s.afterTurn.block.timeoutClearEnabled = false from Bool.eq_false_iff.mpr hp]; rfl
      obtain ⟨h1, h2⟩ := same this
      exact ⟨h1, fun ⟨_, _, h⟩ => by simp [hm, hp] at h, fun h => h2.trans h⟩

/-- A run that has ended well stays so, and with no timeout pending none comes. -/
theorem endedWell_stays {run : Nat → State} (hr : IsRun run) {n m : Nat} (hnm : n ≤ m) (h : (run n).endedWell = true) :
    (run m).endedWell = true ∧ ((run n).timeoutPending = false → (run m).timeoutPending = false) := by
  induction m, hnm using Nat.le_induction with
  | base => exact ⟨h, id⟩
  | succ m _ ih =>
    obtain ⟨h1, -, h3⟩ := endedWell_step ih.1 (hr m)
    exact ⟨h1, fun hp => h3 (ih.2 hp)⟩

/-- A run that has ended well is no hang (41_platform_ports.md R94). -/
theorem Hang.not_endedWell {run : Nat → State} (h : Hang run) (n : Nat) : (run n).endedWell = false := by
  rw [← Bool.not_eq_true]
  intro he
  obtain ⟨hr, hs | ⟨k, hw, ht⟩⟩ := h
  · obtain ⟨m, hm, ha⟩ := hs n
    have em := (endedWell_stays hr hm he).1
    obtain ⟨e1, hstep, -⟩ := endedWell_step em (hr m)
    obtain ⟨m', hm', ha'⟩ := hs (m + 1)
    obtain ⟨e2, hno⟩ := endedWell_stays hr hm' e1
    have := ((endedWell_step e2 (hr m')).2.1 ha').1
    rw [hno (hstep ha).2] at this
    cases this
  · obtain ⟨m, hm, hhost⟩ := ht (max n k)
    have hh : (run m).halted = false := ((hw m (le_trans (le_max_right n k) hm)).1 hhost).1
    have em := (endedWell_stays hr (le_trans (le_max_left n k) hm) he).1
    simp [State.endedWell, hh] at em

/-! ### The load-check mark -/

/-- A host step leaves the load-check mark alone if its effect does. -/
theorem finish_checked {s t : State} {e : Eff State} (he : ∀ u, e = .ok u → u.checked = s.checked)
    (h : finish s e = .next t) : t.checked = s.checked := by
  obtain h | ⟨-, rfl⟩ | ⟨k, -, rfl⟩ := finish_next h
  · exact he t h
  · rfl
  · rfl

theorem transferStep_checked {t : XferTemps} {s : State} {k : Nat} {p : XferTemps × State} (h : transferStep t s k = .ok p) :
    p.2.checked = s.checked := by
  unfold transferStep at h
  split at h
  · obtain ⟨u, hu, h⟩ := bind_ok h; cases h; exact (writeEffect_keeps hu).checked
  · split at h
    · cases h
    · obtain ⟨u, hu, h⟩ := bind_ok h; cases h; exact (readEffect_keeps hu).checked

theorem compositeStep_checked {c : Cursor} {s t : State} (h : compositeStep c s = .ok t) : t.checked = s.checked := by
  have masked {o : Composite} {k : Nat} {off : Offset} {v m : Word}
      (h : thenStep o k (s.maskedWriteEffect off v m) = .ok t) : t.checked = s.checked := by
    obtain ⟨u, hu, h⟩ := bind_ok h; cases h; exact (maskedWriteEffect_keeps hu).checked
  have transfer {d : HIdx} {v : CodecVariant} {ch cmd : Word} {tmp : XferTemps} {b k : Nat}
      (h : readchTransfer d v ch cmd tmp b s k = .ok t) : t.checked = s.checked := by
    obtain ⟨u, hu, h⟩ := bind_ok h; cases h; exact transferStep_checked hu
  unfold compositeStep at h
  split at h
  · unfold configStep at h
    split at h
    case h_4 => obtain ⟨u, hu, h⟩ := bind_ok h; cases h; exact (writeEffect_keeps hu).checked
    case h_10 => obtain ⟨u, hu, h⟩ := bind_ok h; cases h; exact (maskedWriteEffect_keeps hu).checked
    case h_3 => split at h <;> cases h; rfl
    case h_1 | h_2 => cases h; exact (settleSelect_keeps _ _).checked
    all_goals first | exact masked h | cases h
  · obtain ⟨u, hu, h⟩ := bind_ok h
    dsimp only at h
    split at h <;> cases h <;> exact transferStep_checked hu
  · unfold readchWideStep at h
    split at h
    case h_3 | h_11 => cases h; exact (settleSelect_keeps _ _).checked
    all_goals first | exact transfer h | (cases h <;> rfl)
  · unfold readchNarrowStep at h
    split at h
    all_goals first | exact transfer h | (cases h <;> rfl)

theorem frameStep_checked (s : State) : s.frameStep.checked = s.checked := by
  obtain h | ⟨r, -, h⟩ | ⟨hd, rest, -, -, -, -, h⟩ := frameStep_cases s
  · rw [h]
  · rw [h]; rfl
  · rw [h]; rfl

theorem exec_checked {i : Instr} {s t : State} (h : exec i s = .next t) : t.checked = s.checked := by
  cases i
  case mcpCmdWide ch => cases h; exact frameStep_checked _
  case mcpCmdNarrow ch => cases h; exact frameStep_checked _
  case li | delay | halt => cases h; rfl
  case rsta | rstr | sell | selh | selfn => cases h; exact (settleSelect_keeps _ _).checked
  all_goals refine finish_checked (fun u hu => ?_) h
  case rd => obtain ⟨p, hp, hu⟩ := bind_ok hu; cases hu; exact (readEffect_keeps hp).checked
  case wr =>
    obtain ⟨v, -, hu⟩ := bind_ok hu
    obtain ⟨p, hp, hu⟩ := bind_ok hu; cases hu; exact (writeEffect_keeps hp).checked
  case rdm =>
    obtain ⟨v, -, hu⟩ := bind_ok hu
    obtain ⟨p, hp, hu⟩ := bind_ok hu; cases hu; exact (maskedReadEffect_keeps hp).checked
  case wrm =>
    obtain ⟨v, -, hu⟩ := bind_ok hu
    obtain ⟨p, hp, hu⟩ := bind_ok hu; cases hu; exact (maskedWriteEffect_keeps hp).checked
  case wait =>
    obtain ⟨v, -, hu⟩ := bind_ok hu
    obtain ⟨p, hp, hu⟩ := bind_ok hu
    dsimp only at hu
    split at hu <;> cases hu; exact (maskedReadEffect_keeps hp).checked
  case rstw => split at hu <;> cases hu; rfl
  case encw | encn | decn | decw => obtain ⟨v, -, hu⟩ := bind_ok hu; cases hu; rfl
  case config =>
    obtain ⟨v, -, hu⟩ := bind_ok hu
    obtain ⟨r, -, hu⟩ := bind_ok hu; cases hu; rfl
  case xfer =>
    unfold xferStart at hu
    split at hu
    · obtain ⟨v, -, hu⟩ := bind_ok hu; cases hu; rfl
    · cases hu
  case readch =>
    obtain ⟨v, -, hu⟩ := bind_ok hu
    split at hu
    · cases hu
    · split at hu <;> cases hu; rfl

theorem moverStep_checked {s t : State} {m : Mover} (h : s.moverStep m = .next t) : t.checked = s.checked := by
  cases m with
  | host =>
    simp only [State.moverStep, State.hostStep] at h
    split at h
    · cases h; rfl
    · split at h
      · exact finish_checked (fun u hu => compositeStep_checked hu) h
      · split at h
        · cases h; rfl
        · exact exec_checked h
  | resetCtl =>
    cases h; unfold State.resetCtlStep
    split
    · exact (settleSelect_keeps _ _).checked
    · rfl
  | engineFrame => cases h; exact frameStep_checked s
  | engineTimeout => cases h; unfold State.timeoutStep; split <;> rfl
  | engineTimeoutClear => cases h; unfold State.timeoutClearStep; split <;> rfl

/-- A turn comes from a state with no fault on record, and after it the program is checked. -/
theorem step_next {s t : State} (h : step s = .next t) : s.faults = [] ∧ t.checked = true := by
  unfold step State.turn at h
  split at h
  · cases h
  · refine ⟨‹_›, ?_⟩
    split at h
    · rw [moverStep_checked h]; assumption
    · cases h; unfold State.loadCheck; split <;> rfl

/-! ### Every fair run -/

/-- A run in which the host's turn always comes again is a hang, unless it deadlocks or the host halts
(41_platform_ports.md R94). -/
theorem hang_or_deadlock_or_halt {run : Nat → State} (hr : IsRun run)
    (hturn : ∀ k, ∃ m, k ≤ m ∧ (run m).nextMover = .host) :
    Hang run ∨ ∃ n, (run n).Deadlock ∨ (run n).halted = true := by
  by_cases hs : StepsForever run
  · exact .inl ⟨hr, .inl hs⟩
  by_cases hd : ∃ n, (run n).Deadlock ∨ (run n).halted = true
  · exact .inr hd
  simp only [StepsForever, not_forall, not_exists, not_and] at hs
  obtain ⟨n, hn⟩ := hs
  simp only [not_exists, not_or, Bool.not_eq_true] at hd
  refine .inl ⟨hr, .inr ⟨n + 1, fun m hm => ⟨fun hhost => ?_, (hd m).1⟩, hturn⟩⟩
  by_contra hold
  obtain ⟨k, rfl⟩ : ∃ k, m = k + 1 := ⟨m - 1, by omega⟩
  have := hn (k + 1) (by omega)
  refine this ⟨(step_next (hr _)).1, (step_next (hr k)).2, ?_⟩
  rw [hhost]
  exact ⟨(hd _).2, hold⟩

end Sys2Proof.Machine
end

