-- ==== Sys2Proof/Tests/Slice0.lean ====
section
/-! SUPPORT. The model's own tests: ill-formed operations refused, words of the spec's encoding decoded, the vectors of
95_test_vectors.md on single steps, and for each statement with hypotheses a witness that meets them. Expected values are
the spec's or computed by hand from the rule named. -/

open Sys2Proof Sys2Proof.Machine

namespace Sys2Proof.Tests

/-! ### Ill-formed operations (30_encoding.md R62) -/

theorem test_xfer_no_words_ill_formed : ¬ (Instr.xfer 0 0 0).WellFormed := by decide
theorem test_xfer_nine_words_ill_formed : ¬ (Instr.xfer 0 0 9).WellFormed := by decide
theorem test_xfer_transmit_range_ill_formed : ¬ (Instr.xfer 0 7 2).WellFormed := by decide
theorem test_xfer_receive_range_ill_formed : ¬ (Instr.xfer 7 0 2).WellFormed := by decide
theorem test_xfer_full_range_well_formed : (Instr.xfer 0 0 8).WellFormed := by decide

/-! ### Words written out from the format table (30_encoding.md R57, R60): `OPC D A B ...` -/

theorem test_decode_rd : decode [0b000001_101_000_000_00000_000000001000] = .ok (.rd 5 0x008, []) := rfl
theorem test_decode_wr : decode [0b000010_000_011_000_00000_000000010000] = .ok (.wr 0x010 3, []) := rfl
theorem test_decode_rdm : decode [0b000011_011_000_010_00000_000000000100] = .ok (.rdm 3 0x004 2, []) := rfl
theorem test_decode_wrm : decode [0b000100_000_001_110_00000_000000100100] = .ok (.wrm 0x024 1 6, []) := rfl
theorem test_decode_wait : decode [0b000101_000_100_101_00000_000000001100] = .ok (.wait 0x00C 4 5, []) := rfl
theorem test_decode_li :
    decode [0b000110_111_00000000000000000000000, 0xFFFFFFFF, 0x3C000000] = .ok (.li 7 0xFFFFFFFF, [0x3C000000]) := rfl
theorem test_decode_rsta : decode [0b001000_0000000000_0000000000000000] = .ok (.rsta, []) := rfl
theorem test_decode_rstr : decode [0b001001_0000000000_0000000000000000] = .ok (.rstr, []) := rfl
theorem test_decode_rstw : decode [0b001010_0000000000_0000000000000000] = .ok (.rstw, []) := rfl
theorem test_decode_sell : decode [0b001011_0000000000_0000000000000000] = .ok (.sell, []) := rfl
theorem test_decode_selh : decode [0b001100_0000000000_0000000000000000] = .ok (.selh, []) := rfl
theorem test_decode_selfn : decode [0b001101_0000000000_0000000000000001] = .ok (.selfn .periph, []) := rfl
theorem test_decode_delay : decode [0b001110_0000000000_1000000000000011] = .ok (.delay 0x8003, []) := rfl
theorem test_decode_halt : decode [0b001111_0000000000_0000000000000000] = .ok (.halt, []) := rfl
theorem test_decode_encw : decode [0b010000_001_110_000_00000000000000000] = .ok (.encw 1 6, []) := rfl
theorem test_decode_encn : decode [0b010001_110_001_000_00000000000000000] = .ok (.encn 6 1, []) := rfl
theorem test_decode_decw : decode [0b010010_101_011_100_00000000000000000] = .ok (.decw 5 3 4, []) := rfl
theorem test_decode_decn : decode [0b010011_110_001_000_00000000000000000] = .ok (.decn 6 1, []) := rfl
theorem test_decode_config :
    decode [0b011000_001_010_01_10_1_01100_0000000000] = .ok (.config 1 2 1 2 .lsbFirst 12, []) := rfl
theorem test_decode_xfer : decode [0b011001_010_000_0010_0000000000000000] = .ok (.xfer 2 0 2, []) := rfl
theorem test_decode_readch : decode [0b011010_011_010_00000000000000000000] = .ok (.readch 3 2, []) := rfl
theorem test_decode_mcp_cmd_wide : decodeTableWord 32 0b0111010000 = some (.mcpCmdWide 5) := rfl
theorem test_decode_mcp_cmd_narrow : decodeTableWord 32 0b000000111010 = some (.mcpCmdNarrow 5) := rfl

theorem test_decode_reserved_opcode : decode [0x1C000000] = .error .reservedOpcode := rfl
theorem test_decode_must_be_zero : decode [0x60802801] = .error .mustBeZero := rfl
theorem test_decode_illegal_xfer : decode [0x67820000] = .error .illegalXferCount := rfl
theorem test_decode_li_at_end : decode [0x18000000] = .error .missingImmediate := rfl

/-! ### Small states -/

/-- A block out of reset, at its reset values otherwise: `RSTR; RSTW` completed. -/
def released : Block := { Block.reset with inReset := false, rstDone := true }

/-- A block enabled as `cr0` and `cr1` say, with the prescale 2. -/
def enabled (cr0 : BitVec 16) (cr1 : BitVec 4) : Block := { released with cr0 := cr0, cr1 := cr1, cpsdvsr := 2 }

/-- A checked machine at the beginning of `prog` with the block `b` and the scratch registers 5, 3, 0x1D0, 0xFF and
four unwritten ones. -/
def machine (b : Block) (prog : List Word) : State := { State.reset with
  h := #v[.holds 5, .holds 3, .holds 0x1D0, .holds 0xFF, .unwritten, .unwritten, .unwritten, .unwritten]
  block := b
  prog := prog
  checked := true
  env := { sched := [.host], samples := [], draws := 0 } }

/-- What a next state shows, and nothing for the other outcomes. -/
def nextShows {α : Type} (x : Host.Outcome State Fault Refusal) (f : State → α) : Option α :=
  match x with
  | .next t => some (f t)
  | .fault _ => none
  | .refused _ => none

/-- A state whose next turn is that of `m`. -/
def turnOf (m : Mover) (s : State) : State := s.withSchedule [m]

/-! ### The vectors of 95_test_vectors.md, one step each -/

/-- V-R1. -/
theorem test_rd_status : nextShows (exec (.rd 4 0x00C) (machine released [])) (·.h[4]) = some (.holds 0x3) := by decide
/-- V-R12: misalignment is checked first. -/
theorem test_rd_misaligned : nextShows (exec (.rd 0 0x022) (machine released [])) (·.faults) =
    some [{ kind := .busError 0x022 .misaligned, agent := .host, pc := 0 }] := by decide
/-- V-R5: bit 0 is not stored. -/
theorem test_wr_prescale : nextShows (exec (.wr 0x010 1) (machine released [])) (·.block.cpsdvsr) = some 2 := by decide
/-- V-R9: a change of MS while enabled. -/
theorem test_wr_master_select_enabled :
    nextShows (exec (.wr 0x004 0) (machine (enabled 7 2) [])) (·.faults) =
      some [{ kind := .configWhileEnabled 0x004, agent := .host, pc := 0 }] := by decide
/-- R66's example: the mask selects bit 1 of SSPCR1; here the mask is 3. -/
theorem test_rdm_control1 : nextShows (exec (.rdm 1 0x004 1) (machine (enabled 7 0xE) [])) (·.h[1]) = some (.holds 2) := by
  decide
/-- V-R16. -/
theorem test_rdm_data_refused : nextShows (exec (.rdm 0 0x008 2) (machine released [])) (·.faults) =
    some [{ kind := .busError 0x008 .sideEffect, agent := .host, pc := 0 }] := by decide
/-- V-R7 with value 5: the byte under the mask is replaced, the other kept. -/
theorem test_wrm_format : nextShows (exec (.wrm 0x000 0 3) (machine { released with cr0 := 0x4A99 } []))
    (·.block.cr0) = some 0x4A05 := by decide
/-- V-R8. -/
theorem test_wrm_format_enabled : nextShows (exec (.wrm 0x000 0 3) (machine (enabled 7 2) [])) (·.faults) =
    some [{ kind := .configWhileEnabled 0x000, agent := .host, pc := 0 }] := by decide
/-- V-R23 with the mask and value 3 of SSPSR's reset value: it completes at once. -/
theorem test_wait_matches : nextShows (exec (.wait 0x00C 1 1) (machine released [])) (·.pc) = some 1 := by decide
/-- V-R22 with value 5 outside the mask 3: it holds. -/
theorem test_wait_holds : nextShows (exec (.wait 0x00C 0 1) (machine released [])) (·.pc) = some 0 := by decide
/-- V-R24. -/
theorem test_li_in_reset : nextShows (exec (.li 7 1000000) State.reset) (fun t => (t.h[7], t.pc)) =
    some (.holds 0x000F4240, 2) := by decide
/-- V-P1. -/
theorem test_rsta_clears : nextShows (exec .rsta (machine { enabled 7 2 with txq := [1], rxq := [2] } []))
    (·.block) = some Block.reset := by decide
/-- V-P2. -/
theorem test_rstr_out_of_reset : nextShows (exec .rstr (machine (enabled 7 2) [])) (·.block) = some (enabled 7 2) := by decide
/-- V-P3. -/
theorem test_rstw_holds : nextShows (exec .rstw State.reset) (·.pc) = some 0 := by decide
/-- V-P5. -/
theorem test_sell_selects : nextShows (exec .sell (machine released [])) (·.dev) = some (.sel 0 none none [] none) := by
  decide
/-- V-P6: with the pin the peripheral's the device is not touched. -/
theorem test_sell_peripheral : nextShows (exec .sell { machine released [] with selfn := .periph })
    (fun t => (t.gpioCs, t.dev)) = some (false, .off) := by decide
/-- R165: the rise turns the device off. -/
theorem test_selh_deselects :
    nextShows (exec .selh { machine released [] with gpioCs := false, dev := .sel 3 (some 2) none [] none })
      (fun t => (t.gpioCs, t.dev)) = some (true, .off) := by decide
/-- V-P7. -/
theorem test_selfn_selects : nextShows (exec (.selfn .gpio) { machine released [] with selfn := .periph, gpioCs := false })
    (·.dev) = some (.sel 0 none none [] none) := by decide
/-- R90: no state change but `pc`. -/
theorem test_delay : exec (.delay 0xFFFF) (machine released []) = .next { machine released [] with pc := 1 } := rfl
/-- V-P11. -/
theorem test_halt : nextShows (exec .halt { machine released [] with pc := 4 }) (fun t => (t.halted, t.pc)) =
    some (true, 4) := by decide
/-- S1. -/
theorem test_encw : nextShows (exec (.encw 0 0) State.reset) (·.faults) =
    some [{ kind := .unwrittenRegister 0, agent := .host, pc := 0 }] ∧
    nextShows (exec (.encw 0 0) (machine Block.reset [])) (·.h[0]) = some (.holds 0x1D0) := by decide
/-- S2. -/
theorem test_encn : nextShows (exec (.encn 6 0) (machine Block.reset [])) (·.h[6]) = some (.holds 0x3A) := by decide
/-- S3: first word 3, second 0xFF. -/
theorem test_decw : nextShows (exec (.decw 1 1 3) (machine released [])) (·.h[1]) = some (.holds 3327) := by decide
/-- V-C4: the carry into bit 12 is dropped. -/
theorem test_decw_all_ones : wideSample 0xFFFF 0xFFFF = 3071 := by decide
/-- V-C5. -/
theorem test_decn : narrowSample 0xFABC = 0xABC ∧ narrowSample 0x1000 = 0 := by decide
/-- V-O12: the bus is checked first. -/
theorem test_config_bus_first : nextShows (exec (.config 1 0 2 0 .lsbFirst 10) (machine released [])) (·.faults) =
    some [{ kind := .contractViolation .bus, agent := .host, pc := 0 }] := by decide
/-- V-D10, V-O1: 1 MHz from 150 MHz is the pair (2, 75). -/
theorem test_config_divider : dividerSearch Params.default 1000000 =
    some { prescale := 2, postdiv := 75, achieved := 1000000 } := by decide +kernel
/-- V-D5: the two searches differ. -/
theorem test_divider_searches_differ :
    closestSearch 150000000 2391 = some { prescale := 254, postdiv := 247, achieved := 2390 } ∧
    sdkSearch 150000000 2391 = some { prescale := 246, postdiv := 255, achieved := 2391 } := by decide +kernel
/-- V-D3, V-D16, V-D17. -/
theorem test_divider_limits : closestSearch 150000000 2306 = none ∧ sdkSearch 150000000 2306 = none ∧
    closestSearch 150000000 200000000 = some { prescale := 2, postdiv := 1, achieved := 75000000 } ∧
    sdkSearch 150000000 200000000 = none := by decide +kernel
/-- R139 step 0: the transmit words are snapshotted. -/
theorem test_xfer_snapshot : nextShows (exec (.xfer 0 2 2) (machine (enabled 9 3) [])) (·.cursor) =
    some (some { op := .xfer 0 { tx := [0x1D0, 0xFF], rx := [] }, step := 1 }) := by decide
/-- V-O20: the width 8 matches no codec variant. -/
theorem test_readch_no_variant : nextShows (exec (.readch 1 0) (machine (enabled 0x4A07 2) [])) (·.faults) =
    some [{ kind := .noCodecVariant 0x4A07, agent := .host, pc := 0 }] := by decide
/-- V-M1, first frame: channel 5, conversion value 0xCFF, device deselected before. -/
theorem test_mcp_cmd_wide :
    nextShows (exec (.mcpCmdWide 5) { machine (enabled 9 2) [] with
        gpioCs := false, dev := .sel 0 none none [] none, env := { sched := [], samples := [0xCFF], draws := 0 } })
      (fun t => (t.dev, t.block.rxq.length)) =
    some (.sel 10 (some 2) (some true) [true, false, true] (some 0xCFF), 1) := by rfl
/-- V-M1, second frame: bits B9 to B0. -/
theorem test_wide_second_word :
    nextShows (step (turnOf .engineFrame { machine { enabled 9 2 with txq := [0] } [] with
        gpioCs := false, dev := .sel 10 (some 2) (some true) [true, false, true] (some 0xCFF) }))
      (·.block.rxq) = some [0x0FF] := by rfl
/-- V-M2: channel 3, conversion value 0x5A5. -/
theorem test_mcp_cmd_narrow :
    nextShows (exec (.mcpCmdNarrow 3) { machine (enabled 0x2B 2) [] with
        selfn := .periph, env := { sched := [], samples := [0x5A5], draws := 0 } })
      (fun t => (t.dev, t.block.rxq)) = some (.off, [0x5A5]) := by rfl

/-- V-F1: eight bits in loopback. -/
theorem test_frame_loopback : nextShows (step (turnOf .engineFrame (machine { enabled 7 3 with txq := [0x00A5] } [])))
    (·.block.rxq) = some [0x00A5] := by rfl
/-- V-F2: only the low four bits are sent. -/
theorem test_frame_loopback_narrow : nextShows (step (turnOf .engineFrame (machine { enabled 3 3 with txq := [0xFFFF] } [])))
    (·.block.rxq) = some [0x000F] := by rfl
/-- V-F8, V-M4. -/
theorem test_frame_prescale :
    nextShows (step (turnOf .engineFrame (machine { enabled 7 2 with cpsdvsr := 0, txq := [1] } [])))
      (fun t => (t.faults, t.block.txq)) =
    some ([{ kind := .invalidFrameConfig .prescale, agent := .engine, pc := 0 }], [1]) := by rfl
/-- V-P4. -/
theorem test_reset_acknowledged :
    nextShows (step (turnOf .resetCtl (machine { Block.reset with inReset := false } []))) (·.block) = some released := by rfl
/-- V-P8. -/
theorem test_select_timing_refused : nextShows (step { State.reset with prog := [0x2C000000, 0x3C000000] })
    (fun t => (t.faults, t.halted)) = some ([{ kind := .refused .selectTiming, agent := .host, pc := 0 }], true) := by rfl
/-- R177: an `LI` immediate is not scanned as an operation. -/
theorem test_select_timing_immediate : nextShows (step { State.reset with prog := [0x18000000, 0x2C000000] })
    (fun t => (t.faults, t.checked)) = some ([], true) := by rfl
/-- V-O18, its last step: overlapping ranges, and R140's order of the received words. -/
theorem test_xfer_writes_back :
    nextShows (step { machine { enabled 9 3 with rxq := [0x022] } [] with
        cursor := some { op := .xfer 0 { tx := [0x111, 0x022], rx := [0x111] }, step := 4 } })
      (fun t => (t.h[0], t.h[1], t.pc, t.cursor)) = some (.holds 0x111, .holds 0x022, 1, none) := by rfl
/-- V-R25: the data requests follow at once. -/
theorem test_data_requests : nextShows (exec (.wr 0x024 1) (machine released [])) (fun t => (t.block.dreqTx, t.block.dreqRx)) =
    some (true, false) := by decide
/-- R39 after V-O1. -/
theorem test_bus_handle : (machine { enabled 0x4A09 2 with dmacr := 3 } []).busHandle =
    { bus := 0, baud := some 1000000, width := 10, cpol := false, cpha := false, order := .msbFirst, mode := 0,
      enabled := true } := by decide

/-- V-P3: `RSTW` with no `RSTR` before it deadlocks. -/
theorem test_deadlock : (machine Block.reset [0x28000000]).Deadlock :=
  ⟨rfl, rfl, fun _ => ⟨rfl, rfl⟩, rfl⟩
/-- R85, R86: after `RSTR` the same wait is no deadlock, since the acknowledgement can come. -/
theorem test_wait_for_acknowledgement :
    let s := machine { Block.reset with inReset := false } [0x28000000]
    s.HostHolds ∧ s.otherEnabled = true ∧ ¬ s.AgentSteps ∧ (turnOf .resetCtl s).AgentSteps :=
  ⟨⟨rfl, rfl⟩, rfl, fun h => h.2.2.2 ⟨rfl, rfl⟩, ⟨rfl, rfl, rfl⟩⟩
/-- R94 after P-programs' `HALT`. -/
theorem test_ended_well : ({ machine (enabled 7 2) [] with halted := true } : State).endedWell = true ∧
    ({ machine { enabled 7 2 with txq := [1] } [] with halted := true } : State).endedWell = false := by decide
/-- V-P9: the `DELAY` before is too short; of the two words that break the settling the first is named. -/
theorem test_select_timing_first : nextShows (step { State.reset with
    prog := [0x38000002, 0x2C000000, 0x38000003, 0x30000000, 0x3C000000] }) (·.faults) =
    some [{ kind := .refused .selectTiming, agent := .host, pc := 1 }] := by rfl

/-! ### The host's two questions -/

theorem test_fetch_word_runs : nextShows (step (State.reset.withFetchWord 64 0x000F424018000000))
    (fun t => (t.h[0], t.pc)) = some (.holds 1000000, 2) := by rfl
theorem test_wire_word_runs : nextShows (step (State.reset.withFetchWord 32 0x1D0)) (·.block.txq) = some [] := by rfl

/-! ### Witnesses: for each statement with hypotheses, inputs that meet them -/

theorem witness_DecodeOfEncode : (Instr.xfer 0 0 8).isHostOp = true ∧ (Instr.xfer 0 0 8).WellFormed := by decide
theorem witness_EncodeOfDecode : decode [0x18000000, 7, 8] = .ok (.li 0 7, [8]) := rfl
theorem witness_AdmittedWordsDecode :
    (Instr.rd 0 0).isHostOp = true ∧ (Instr.rd 0 0).row.admits 0x07800FFF = true ∧
    (Instr.xfer 0 0 1).isHostOp = true ∧ (Instr.xfer 0 0 1).row.admits 0x64080000 = true ∧
    (0x64080000#32 : Word).extractLsb' 16 4 = 8 ∧ (Instr.xfer 0 0 1).row.admits 0x64090000 = true ∧
    (0x64090000#32 : Word).extractLsb' 16 4 = 9 := by decide
theorem witness_OpcodeRowsDisjoint :
    (Instr.selfn .gpio).row.admits 0x34000001 = true ∧ (Instr.selfn .periph).row.admits 0x34000001 = true := by decide
theorem witness_StepRunsDecodedOperation :
    let s := machine released [0x3C000000]
    let c : Cursor := { op := .xfer 0 { tx := [1], rx := [] }, step := 1 }
    (s.faults = [] ∧ s.checked = true ∧ s.nextMover = .host ∧ s.halted = false ∧ s.cursor = none ∧
      decode (s.prog.drop s.pc) = .ok (.halt, [])) ∧
    ({ s with halted := true } : State).halted = true ∧ ({ s with cursor := some c } : State).cursor = some c :=
  ⟨⟨rfl, rfl, rfl, rfl, rfl, rfl⟩, rfl, rfl⟩
theorem witness_LiLoadsImmediate :
    let s := machine released [0x1B800000]
    s.faults = [] ∧ s.checked = true ∧ s.nextMover = .host ∧ s.halted = false ∧ s.cursor = none ∧
      s.prog.drop s.pc = [(Instr.li 7 0).firstWord] := ⟨rfl, rfl, rfl, rfl, rfl, rfl⟩
theorem witness_StepSendsWireWord :
    let s := turnOf .engineFrame (machine { enabled 9 2 with txq := [0x1F0, 0] } [])
    let t := turnOf .engineFrame (machine { enabled 0x2B 2 with txq := [0x3E] } [])
    (s.faults = [] ∧ s.checked = true ∧ s.nextMover = .engineFrame ∧
      s.block.txq = (0x180 ||| ((7 : BitVec 3).setWidth 16 <<< 4)) :: [0]) ∧
    (t.faults = [] ∧ t.checked = true ∧ t.nextMover = .engineFrame ∧
      t.block.txq = (((7 : BitVec 3).setWidth 16 <<< 1) ||| 0x30) :: []) := by decide
theorem witness_IllegalWordFaults :
    let s (p : List Word) := machine released p
    (∀ p, (s p).faults = [] ∧ (s p).checked = true ∧ (s p).nextMover = .host ∧ (s p).halted = false ∧ (s p).cursor = none) ∧
    (s []).prog.length ≤ (s []).pc ∧
    (s [0]).prog.drop (s [0]).pc = [0] ∧ decode [0] = .error .reservedOpcode ∧ Reject.reservedOpcode ≠ .missingImmediate :=
  ⟨fun _ => ⟨rfl, rfl, rfl, rfl, rfl⟩, by decide, rfl, rfl, by decide⟩
theorem witness_FaultStopsMachine : ((machine released []).recorded .host .txOverflow).faults ≠ [] := by decide
/-- A refused program: word 1 looks like a `SELL` and is an immediate, word 3 is a `SELH` with a short `DELAY` after it. -/
def refusedProgram : List Word := [0x18000000, 0x2C000000, 0x38000003, 0x30000000, 0x38000002]

theorem witness_SelectTimingRefused :
    let s (ws : List Word) := { State.reset with prog := ws }
    (∀ ws, (s ws).faults = [] ∧ (s ws).checked = false) ∧
    (BreaksSettling Params.default refusedProgram 3 ∧ ∀ j, j < 3 → ¬ BreaksSettling Params.default refusedProgram j) ∧
    (BreaksSettling Params.default [0x2C000000] 0 ∧ ∀ j, j < 0 → ¬ BreaksSettling Params.default [0x2C000000] j) ∧
    (∀ k, ¬ BreaksSettling Params.default [0x38000003, 0x30000000, 0x38000003] k) := by
  refine ⟨fun _ => ⟨rfl, rfl⟩, ?_, ?_, ?_⟩
  · have h := scanSelect_spec Params.default refusedProgram refusedProgram 0 false rfl (by simp)
    rw [show scanSelect Params.default (isImmediate refusedProgram 0) false 0 refusedProgram = some 3 by decide] at h
    exact ⟨h.2.1, fun j hj => h.2.2 j (Nat.zero_le j) hj⟩
  · have h := scanSelect_spec Params.default [0x2C000000] [0x2C000000] 0 false rfl (by simp)
    rw [show scanSelect Params.default (isImmediate [0x2C000000] 0) false 0 [0x2C000000] = some 0 by decide] at h
    exact ⟨h.2.1, fun j hj => absurd hj (Nat.not_lt_zero j)⟩
  · have h := scanSelect_spec Params.default [0x38000003, 0x30000000, 0x38000003]
      [0x38000003, 0x30000000, 0x38000003] 0 false rfl (by simp)
    rw [show scanSelect Params.default (isImmediate [0x38000003, 0x30000000, 0x38000003] 0) false 0
      [0x38000003, 0x30000000, 0x38000003] = none by decide] at h
    exact fun k => h k (Nat.zero_le k)
theorem witness_FaultsArePrecise :
    Instr.halt.isHostOp = true ∧ (∃ t, exec .halt (machine released []) = .next t) ∧
    (∃ t, exec (.rd 0 2) (machine released []) = .next t ∧ t.faults ≠ []) ∧
    (∃ t, continueComposite { op := .xfer 0 { tx := [1], rx := [] }, step := 1 } (machine Block.reset []) = .next t
      ∧ t.faults ≠ []) :=
  ⟨rfl, ⟨_, rfl⟩, ⟨_, rfl, by decide⟩, ⟨_, rfl, by decide⟩⟩
theorem witness_Accessible :
    (machine released []).Accessible 0x000 .cr0 ∧ (machine released []).Accessible 0xFFC .pcellId3 := by
  unfold State.Accessible; decide
theorem witness_RdReturnsRegister :
    let s := machine released []
    let t := { s with params := { s.params with reservedRead := .any } }
    (s.Accessible 0x000 .cr0 ∧ Reg.cr0 ≠ .icr ∧ Reg.cr0 ≠ .dr ∧ s.params.reservedRead = .zero) ∧
    (t.Accessible 0x01C .mis ∧ Reg.mis ≠ .icr ∧ Reg.mis ≠ .dr ∧ t.params.reservedRead = .any) := by
  unfold State.Accessible; decide
theorem witness_StoredAndComputedRegisterValues :
    let s := machine released []
    s.params.reservedRead = .zero ∧ s.block.inReset = false ∧ s.block.rstDone = true := by decide
theorem witness_DataReadPopsReceiveFifo :
    let s := machine { released with rxq := [1, 2] } []
    let t := machine released []
    (s.block.inReset = false ∧ s.block.rstDone = true ∧ s.block.rxq = 1 :: [2]) ∧
    (t.block.inReset = false ∧ t.block.rstDone = true ∧ t.block.rxq = []) := by decide
theorem witness_WriteOperands :
    let s := machine released []
    let t := machine (enabled 7 2) []
    (s.block.inReset = false ∧ s.block.rstDone = true ∧ s.h[0] = .holds 5 ∧ s.block.sse = false) ∧
    (t.block.inReset = false ∧ t.block.rstDone = true ∧ t.h[0] = .holds 5 ∧ t.h[2] = .holds 0x1D0 ∧ t.block.sse = true ∧
      (5 : Word).getLsbD 2 ≠ t.block.ms ∧ (0x1D0 : Word).getLsbD 2 = t.block.ms) := by decide
theorem witness_WriteDataPushesTransmitFifo :
    let s (n : Nat) := machine { released with txq := List.replicate n 1 } []
    ((s 7).block.inReset = false ∧ (s 7).block.rstDone = true ∧ (s 7).h[0] = .holds 5 ∧ (s 7).block.txq.length ≤ 8 ∧
      (s 7).block.txq.length ≠ 8) ∧
    ((s 8).block.inReset = false ∧ (s 8).block.rstDone = true ∧ (s 8).h[0] = .holds 5 ∧ (s 8).block.txq.length ≤ 8 ∧
      (s 8).block.txq.length = 8) := by decide
theorem witness_MaskedReadAndWait :
    let s := machine released []
    let t := { s with params := { s.params with reservedRead := .any } }
    (s.Accessible 0x00C .sr ∧ Reg.sr ≠ .icr ∧ Reg.sr ≠ .dr ∧ s.h[1] = .holds 3 ∧ s.params.reservedRead = .zero ∧
      s.regState .sr &&& 3 = 3) ∧
    (t.Accessible 0x018 .ris ∧ Reg.ris ≠ .icr ∧ Reg.ris ≠ .dr ∧ t.h[1] = .holds 3 ∧ t.params.reservedRead = .any) := by
  unfold State.Accessible; decide
theorem witness_WrmUpdatesUnderMask :
    let s := machine released []
    let t := machine (enabled 7 2) []
    (s.block.inReset = false ∧ s.block.rstDone = true ∧ s.h[0] = .holds 5 ∧ s.h[3] = .holds 0xFF ∧ s.block.sse = false) ∧
    (t.block.inReset = false ∧ t.block.rstDone = true ∧ t.h[0] = .holds 5 ∧ t.h[3] = .holds 0xFF ∧ t.block.sse = true ∧
      (((t.block.cr1 &&& ~~~((0xFF : Word).setWidth 4)) ||| (((5 : Word) &&& 0xFF).setWidth 4)).getLsbD 2 ≠ t.block.ms)) := by
  decide
theorem witness_AccessCheckFaults :
    let s := machine Block.reset []
    s.h[0] = .holds 5 ∧ s.h[1] = .holds 3 ∧ (0x001#12).toNat % 4 ≠ 0 ∧ (0xFFF#12).toNat % 4 ≠ 0 ∧
    ((0x028#12).toNat % 4 = 0 ∧ regAt 0x028 = none) ∧ ((0xFDC#12).toNat % 4 = 0 ∧ regAt 0xFDC = none) ∧
    regAt 0x020 = some .icr ∧ regAt 0x00C = some .sr ∧ regAt 0xFFC = some .pcellId3 ∧ regAt 0x008 = some .dr ∧
    s.block.inReset = true ∧ (machine { Block.reset with inReset := false } []).block.rstDone = false ∧
    regAt 0x024 = some .dmacr ∧ Reg.dmacr ≠ .icr ∧ Reg.dmacr ≠ .dr := by decide
theorem witness_UnwrittenOperandFaults :
    let s := machine released []
    s.h[4] = .unwritten ∧ xferLegal 0 0 8 = true ∧ (0 : HIdx) ≤ 4 ∧ (4 : HIdx).val < (0 : HIdx).val + (8 : BitVec 4).toNat ∧
    (∀ j : HIdx, 0 ≤ j → j < 4 → s.h[j] ≠ .unwritten) ∧ s.h[7] = .unwritten ∧ xferLegal 0 7 1 = true ∧
    (s.h[0] ≠ .unwritten ∨ (4 : HIdx) ≤ 0) ∧ (s.h[5] ≠ .unwritten ∨ (4 : HIdx) ≤ 5) := by decide
theorem witness_BlockInv (b : Block) (h : b = Block.reset ∨ b = released ∨ b = enabled 7 2) : b.Inv := by
  obtain rfl | rfl | rfl := h <;> exact ⟨by decide, by decide, by decide, by decide, by decide⟩
theorem witness_ResetReleaseAndAcknowledge :
    let s := turnOf .resetCtl (machine { Block.reset with inReset := false } [])
    s.block.Inv ∧ s.faults = [] ∧ s.checked = true ∧ s.nextMover = .resetCtl ∧ s.block.inReset = false ∧
      s.block.rstDone = false :=
  ⟨⟨by decide, by decide, by decide, by decide, by decide⟩, rfl, rfl, rfl, rfl, rfl⟩
theorem witness_CodecOperations : (machine Block.reset []).h[0] = .holds 5 ∧ (machine Block.reset []).h[1] = .holds 3 := by
  decide

/-- A machine whose first scratch register asks for 1 MHz. -/
def askRate (b : Block) (sched : List Mover) (prog : List Word) : State := { State.reset with
  h := #v[.holds 1000000, .unwritten, .unwritten, .unwritten, .unwritten, .unwritten, .unwritten, .unwritten]
  block := b
  prog := prog
  checked := true
  env := { sched := sched, samples := [], draws := 0 } }

theorem witness_ConfigStarts :
    let s := askRate Block.reset [] []
    s.h[0] = .holds 1000000 ∧ (0 : BitVec 2).toNat < 2 ∧ 4 ≤ (16 : BitVec 5).toNat ∧ (16 : BitVec 5).toNat ≤ 16 ∧
    (2 : BitVec 2) ≠ 3 ∧ (s.params.variant = .base → (2 : BitVec 2) = 0) ∧
    dividerSearch s.params (1000000 : Word).toNat = some { prescale := 2, postdiv := 75, achieved := 1000000 } ∧
    0 = s.params.busId ∧ (s.block.inReset = false → s.block.rstDone = true → s.block.txq = [] ∧ s.block.rxq = []) := by
  decide +kernel
theorem witness_ConfigContractFaults :
    let s := askRate { released with rxq := [1] } [] []
    s.h[0] = .holds 1000000 ∧ 2 ≤ (2 : BitVec 2).toNat ∧ (3 : BitVec 5).toNat < 4 ∧ 16 < (17 : BitVec 5).toNat ∧
    ({ s.params with variant := .base } : Params).variant = .base ∧ dividerSearch s.params 2306 = none ∧
    dividerSearch s.params (1000000 : Word).toNat ≠ none ∧ (1 : BitVec 2) ≠ s.params.busId ∧ 0 = s.params.busId ∧
    s.block.inReset = false ∧ s.block.rstDone = true ∧ s.block.rxq ≠ [] := by decide +kernel
theorem witness_ConfigReachesEndState :
    let s := askRate (enabled 7 2) (hosts 3 ++ [.resetCtl] ++ hosts 8 ++ []) [0x60802800]
    s.Ready (hosts 3 ++ [.resetCtl] ++ hosts 8 ++ []) ∧ decode (s.prog.drop s.pc) = .ok (.config 1 0 0 0 .msbFirst 10, []) ∧
    s.h[0] = .holds 1000000 ∧ s.block.inFlight = false ∧ 0 = s.params.busId ∧
    (s.selfn = .gpio ∨ s.params.devicePresent = false) :=
  ⟨⟨rfl, rfl, rfl, rfl, rfl⟩, rfl, rfl, rfl, rfl, .inl rfl⟩
theorem witness_ConfigReachesEndState_peripheral :
    let s := { askRate Block.reset (hosts 3 ++ [.resetCtl] ++ hosts 8 ++ []) [0x60812800] with selfn := .periph }
    s.Ready (hosts 3 ++ [.resetCtl] ++ hosts 8 ++ []) ∧ decode (s.prog.drop s.pc) = .ok (.config 1 0 0 1 .msbFirst 10, []) ∧
    s.h[0] = .holds 1000000 ∧ s.block.inFlight = false ∧ s.selfn = .periph ∧ s.params.devicePresent = true :=
  ⟨⟨rfl, rfl, rfl, rfl, rfl⟩, rfl, rfl, rfl, rfl, rfl⟩

theorem witness_ConfigReachesEndState_lineLow :
    let s := { askRate (enabled 0x17 2) (hosts 3 ++ [.resetCtl] ++ hosts 8 ++ []) [0x60802800] with
      selfn := .periph, dev := .unknown }
    s.Ready (hosts 3 ++ [.resetCtl] ++ hosts 8 ++ []) ∧ decode (s.prog.drop s.pc) = .ok (.config 1 0 0 0 .msbFirst 10, []) ∧
    s.h[0] = .holds 1000000 ∧ s.block.inFlight = false ∧ ¬ (s.params.devicePresent = false ∨ s.selfn = .gpio) ∧
    (0 : BitVec 2) ≠ 1 ∧ s.deviceCs = false :=
  ⟨⟨rfl, rfl, rfl, rfl, rfl⟩, rfl, rfl, rfl, by decide, by decide, rfl⟩

/-- The micro-cursor of a `CONFIG` at its second step. -/
def configCursor : Cursor :=
  { op := .config 1 0 10 { prescale := 2, postdiv := 75, achieved := 1000000, enable := false }, step := 2 }

theorem witness_ConfigFaultsOnlyAtStart :
    let s := { machine Block.reset [0x60802800] with cursor := some configCursor }
    s.CursorInv ∧ s.cursor = some configCursor ∧ ∃ t, s.hostStep = .next t := by
  refine ⟨?_, rfl, ⟨_, rfl⟩⟩
  intro c h
  cases h
  decide
theorem witness_XferStarts :
    let s := machine (enabled 9 3) []
    xferLegal 2 0 2 = true ∧ [(5 : Word), 3].length = (2 : BitVec 4).toNat ∧
    (∀ (k : Nat) (w : Word) (i : HIdx), [(5 : Word), 3][k]? = some w → i.val = (0 : HIdx).val + k → s.h[i] = .holds w) := by
  refine ⟨by decide, by decide, ?_⟩
  intro k w i hk hi
  have hk2 : k < 2 := by simpa using (List.getElem?_eq_some_iff.mp hk).1
  interval_cases k <;> obtain rfl := Option.some.inj hk
  · obtain rfl : i = 0 := Fin.ext hi
    rfl
  · obtain rfl : i = 1 := Fin.ext hi
    rfl
theorem witness_XferStepsMoveWords :
    let t (rx : List Word) : XferTemps := { tx := [1, 2], rx := rx }
    let s (b : Block) (rx : List Word) (k : Nat) (q : List Half) :=
      { machine { b with rxq := q } [] with cursor := some { op := .xfer 6 (t rx), step := k } }
    (∀ b rx k q, (s b rx k q).halted = false ∧ (s b rx k q).cursor = some { op := .xfer 6 (t rx), step := k } ∧
      (6 : HIdx).val + (t rx).tx.length ≤ 8) ∧
    ((t []).tx[1 - 1]? = some 1 ∧ (t []).tx[2 - 1]? = some 2) ∧
    ((enabled 9 3).inReset = false ∧ (enabled 9 3).rstDone = true ∧ ¬ 8 ≤ (enabled 9 3).txq.length) ∧
    (Block.reset.inReset = true ∧ (s Block.reset [] 3 [7]).block.rxq ≠ []) ∧
    8 ≤ ({ enabled 9 3 with txq := List.replicate 8 0 } : Block).txq.length ∧
    ((t []).tx.length < 3 ∧ (s (enabled 9 3) [] 3 []).block.rxq = []) ∧
    ((t []).tx.length < 3 ∧ 3 < 2 * (t []).tx.length ∧ (s (enabled 9 3) [] 3 [7]).block.rxq = 7 :: []) ∧
    (4 = 2 * (t [7]).tx.length ∧ (t [7]).rx.length + 1 = (t [7]).tx.length ∧ (s (enabled 9 3) [7] 4 [8]).block.rxq = 8 :: []) :=
  ⟨fun _ _ _ _ => ⟨rfl, rfl, Nat.le_refl 8⟩, by decide, by decide, by decide, by decide, by decide, by decide, by decide⟩
theorem witness_CanSend :
    (enabled 9 2).CanSend ∧ (enabled 0x2B 2).CanSend ∧ (enabled 7 3).CanSend ∧ (enabled 3 3).CanSend := by
  unfold Block.CanSend; decide
theorem witness_XferLoopbackReturnsWords :
    let s := { machine (enabled 9 3) [0x65010000] with
      env := { sched := hosts 2 ++ List.replicate 1 Mover.engineFrame ++ hosts 1 ++ [], samples := [], draws := 0 } }
    s.Ready (hosts ((1 : BitVec 4).toNat + 1) ++ List.replicate (1 : BitVec 4).toNat Mover.engineFrame
      ++ hosts (1 : BitVec 4).toNat ++ []) ∧
    decode (s.prog.drop s.pc) = .ok (.xfer 2 0 1, []) ∧ [(5 : Word)].length = (1 : BitVec 4).toNat ∧
    (∀ (k : Nat) (w : Word) (i : HIdx), [(5 : Word)][k]? = some w → i.val = (0 : HIdx).val + k → s.h[i] = .holds w) ∧
    s.block.CanSend ∧ s.block.lbm = true ∧ s.block.txq = [] ∧ s.block.rxq = [] := by
  refine ⟨⟨rfl, rfl, rfl, rfl, rfl⟩, rfl, by decide, ?_, by unfold Block.CanSend; decide, by decide, rfl, rfl⟩
  intro k w i hk hi
  have hk1 : k < 1 := by simpa using (List.getElem?_eq_some_iff.mp hk).1
  interval_cases k
  obtain rfl := Option.some.inj hk
  obtain rfl : i = 0 := Fin.ext hi
  rfl
theorem witness_ReadchStarts :
    (machine Block.reset []).h[0] = .holds 5 ∧ (machine Block.reset []).block.inReset = true ∧
    (enabled 9 2).dss = 9 ∧ (enabled 9 2).frf = 0 ∧ (enabled 0x1B 2).dss = 11 ∧ (enabled 0x1B 2).frf = 1 ∧
    (enabled 0x2B 2).frf = 2 ∧ (enabled 0x0B 2).frf = 0 := by decide
theorem witness_ReadchLaterSteps :
    let s (b : Block) := machine b []
    (∀ b, (s b).halted = false) ∧ ([(0x1D0 : Word), 0].length = 2 ∧ [(0x1D0 : Word), 0][0]? = some 0x1D0 ∧
      [(0x1D0 : Word), 0][1]? = some 0) ∧
    (Block.reset.inReset = true ∧ ({ Block.reset with rxq := [1] } : Block).rxq ≠ []) ∧
    (¬ ((enabled 9 2).inReset = true ∨ (enabled 9 2).rstDone = false) ∧ (enabled 9 2).txq.length < 8 ∧
      8 ≤ ({ enabled 9 2 with txq := List.replicate 8 0 } : Block).txq.length ∧ (enabled 9 2).rxq = [] ∧
      ({ enabled 9 2 with rxq := [1] } : Block).rxq = 1 :: []) :=
  ⟨fun _ => rfl, by decide, by decide, by decide⟩
theorem witness_ReadchWideReturnsConversion :
    let s := { machine (enabled 9 2) [0x69000000] with
      env := { sched := hosts 8 ++ [Mover.engineFrame, Mover.engineFrame] ++ hosts 6 ++ [], samples := [], draws := 0 } }
    s.Ready (hosts 8 ++ [Mover.engineFrame, Mover.engineFrame] ++ hosts 6 ++ []) ∧
    decode (s.prog.drop s.pc) = .ok (.readch 2 0, []) ∧ s.h[0] = .holds 5 ∧ s.block.CanSend ∧ s.block.lbm = false ∧
    s.block.dss = 9 ∧ s.block.frf = 0 ∧ s.block.spo = false ∧ s.block.sph = false ∧ s.block.txq = [] ∧ s.block.rxq = [] ∧
    s.params.devicePresent = true ∧ s.selfn = .gpio ∧ s.gpioCs = true :=
  ⟨⟨rfl, rfl, rfl, rfl, rfl⟩, rfl, rfl, by unfold Block.CanSend; decide, rfl, rfl, rfl, rfl, rfl, rfl, rfl, rfl, rfl, rfl⟩
theorem witness_ReadchNarrowReturnsConversion :
    let s := { machine (enabled 0x2B 2) [0x69000000] with
      selfn := .periph
      env := { sched := hosts 4 ++ [Mover.engineFrame] ++ hosts 2 ++ [], samples := [], draws := 0 } }
    s.Ready (hosts 4 ++ [Mover.engineFrame] ++ hosts 2 ++ []) ∧
    decode (s.prog.drop s.pc) = .ok (.readch 2 0, []) ∧ s.h[0] = .holds 5 ∧ s.block.CanSend ∧ s.block.lbm = false ∧
    s.block.dss = 11 ∧ s.block.frf = 2 ∧ s.block.txq = [] ∧ s.block.rxq = [] ∧ s.params.devicePresent = true ∧
    s.selfn = .periph :=
  ⟨⟨rfl, rfl, rfl, rfl, rfl⟩, rfl, rfl, by unfold Block.CanSend; decide, rfl, rfl, rfl, rfl, rfl, rfl, rfl⟩
theorem witness_WideCommandReachesDevice :
    let s := { machine { enabled 9 2 with rxq := List.replicate 7 0 } [] with gpioCs := false, dev := .sel 0 none none [] none }
    s.block.CanSend ∧ s.block.lbm = false ∧ s.block.dss = 9 ∧ s.block.frf = 0 ∧ s.block.spo = s.block.sph ∧
    s.block.rxq.length < 8 ∧ s.params.devicePresent = true ∧ s.selfn = .gpio ∧ s.dev = .sel 0 none none [] none := by
  unfold Block.CanSend; decide
theorem witness_NarrowCommandReturnsConversion :
    let s := { machine { enabled 0x2B 2 with rxq := List.replicate 7 0 } [] with selfn := .periph }
    s.block.CanSend ∧ s.block.lbm = false ∧ s.block.dss = 11 ∧ s.block.frf = 2 ∧ s.block.rxq.length < 8 ∧
    s.params.devicePresent = true ∧ s.selfn = .periph := by
  unfold Block.CanSend; decide
theorem witness_FrameCheckFaults :
    let s (b : Block) := turnOf .engineFrame (machine { b with txq := [1] } [])
    (∀ b, (s b).faults = [] ∧ (s b).checked = true ∧ (s b).nextMover = .engineFrame) ∧
    ((enabled 7 2).inReset = false ∧ (enabled 7 2).rstDone = true ∧ (enabled 7 2).sse = true) ∧ (enabled 7 6).ms = true ∧
    ({ enabled 7 2 with cpsdvsr := 1 } : Block).cpsdvsr.toNat < 2 ∧ (enabled 2 2).dss.toNat < 3 ∧ (enabled 0x33 2).frf = 3 ∧
    ((enabled 0x2B 3).lbm = true ∧ (enabled 0x2B 3).frf = 2) :=
  ⟨fun _ => ⟨rfl, rfl, rfl⟩, by decide, by decide, by decide, by decide, by decide, by decide⟩
theorem witness_Frames :
    let s (n : Nat) := turnOf .engineFrame (machine { enabled 7 3 with txq := [1], rxq := List.replicate n 0 } [])
    ∀ n : Fin 9, (s n).faults = [] ∧ (s n).checked = true ∧ (s n).nextMover = .engineFrame ∧ (s n).block.CanSend ∧
      (s n).block.lbm = true ∧ (s n).block.txq = 1 :: [] ∧ (s n).block.rxq.length ≤ 8 := by
  unfold Block.CanSend; decide
theorem witness_EngineWritesOnlyFifosAndLatches :
    let s := machine { enabled 7 3 with txq := [1] } []
    (∃ t, s.moverStep .engineFrame = .next t) ∧ (∃ t, s.moverStep .engineTimeout = .next t) ∧
    (∃ t, s.moverStep .engineTimeoutClear = .next t) := ⟨⟨_, rfl⟩, ⟨_, rfl⟩, ⟨_, rfl⟩⟩
theorem witness_TimeoutLatch :
    let s := turnOf .engineTimeout (machine { released with rxq := [1] } [])
    let t := turnOf .engineTimeoutClear (machine { released with rtLatch := true } [])
    (s.faults = [] ∧ s.checked = true ∧ s.nextMover = .engineTimeout ∧ s.block.rxq ≠ [] ∧ s.block.rtLatch = false ∧
      s.block.txq = []) ∧
    (t.faults = [] ∧ t.checked = true ∧ t.nextMover = .engineTimeoutClear ∧ t.block.rxq = [] ∧ t.block.rtLatch = true) := by
  decide
theorem witness_ClosestSearchIsClosest :
    closestSearch 150000000 2400 = some { prescale := 250, postdiv := 250, achieved := 2400 } ∧
    (254 % 2 = 0 ∧ 2 ≤ 254 ∧ 254 ≤ 254 ∧ 1 ≤ 256 ∧ 150000000 ≤ 254 * 256 * 2400) := by decide +kernel
theorem witness_SdkSearchNeverExceedsRequest :
    sdkSearch 150000000 2400 = some { prescale := 246, postdiv := 254, achieved := 2400 } ∧
    (244 % 2 = 0 ∧ 2 ≤ 244 ∧ 244 < 246) := by decide +kernel
theorem witness_StepKeepsInvariants :
    let s := machine released [0x3C000000]
    s.block.Inv ∧ s.DevInv ∧ s.CursorInv ∧ s.HaltInv ∧ ∃ t, step s = .next t :=
  ⟨⟨by decide, by decide, by decide, by decide, by decide⟩, fun _ => ⟨fun _ => rfl, fun h => absurd h (by decide)⟩, fun _ h => (by cases h),
    fun h => absurd rfl h,
    ⟨_, rfl⟩⟩
theorem witness_OnlyHostMovesHostState :
    let s := turnOf .engineFrame (machine { enabled 7 3 with txq := [1] } [])
    s.checked = true ∧ s.nextMover ≠ .host ∧ ∃ t, step s = .next t := ⟨rfl, by decide, ⟨_, rfl⟩⟩
theorem witness_CodecIgnoresBlock : (Instr.encw 1 0 = .encw 1 0) ∧ ∃ t, exec (.encw 1 0) (machine released []) = .next t :=
  ⟨rfl, ⟨_, rfl⟩⟩

end Sys2Proof.Tests
end

section
/-! What the agents other than the host leave alone (00_scope.md R15, 42_serial_engine.md R122): each one's step keeps the
host's state, so every turn of theirs does. -/

namespace Sys2Proof.Machine

/-- `t` has the host's state of `s`: the scratch registers, `pc`, the micro-cursor, the select pin and its function. -/
structure KeepsHostState (s t : State) : Prop where
  h : t.h = s.h
  pc : t.pc = s.pc
  cursor : t.cursor = s.cursor
  gpioCs : t.gpioCs = s.gpioCs
  selfn : t.selfn = s.selfn

theorem KeepsHostState.rfl {s : State} : KeepsHostState s s := ⟨.refl _, .refl _, .refl _, .refl _, .refl _⟩

theorem KeepsHostState.trans {s t u : State} (h : KeepsHostState s t) (g : KeepsHostState t u) : KeepsHostState s u :=
  ⟨g.h.trans h.h, g.pc.trans h.pc, g.cursor.trans h.cursor, g.gpioCs.trans h.gpioCs, g.selfn.trans h.selfn⟩

theorem afterTurn_keepsHostState (s : State) : KeepsHostState s s.afterTurn := by
  constructor <;> simp

theorem withBlock_keepsHostState (s : State) (b : Block) : KeepsHostState s { s with block := b } :=
  ⟨rfl, rfl, rfl, rfl, rfl⟩

theorem recorded_keepsHostState (s : State) (x : Agent) (k : FaultKind) : KeepsHostState s (s.recorded x k) := by
  constructor <;> simp

/-- Settling the select line moves the device only. -/
theorem settleSelect_keepsHostState (s t : State) : KeepsHostState t (s.settleSelect t) := by
  constructor <;> simp

theorem resetCtlStep_keepsHostState (s : State) : KeepsHostState s s.resetCtlStep := by
  unfold State.resetCtlStep
  split
  · exact (withBlock_keepsHostState s _).trans (settleSelect_keepsHostState s _)
  · exact .rfl

theorem sendFrame_keepsHostState (s : State) (hd : Half) : KeepsHostState s (s.sendFrame hd) := by
  obtain ⟨r, dev, env, heq⟩ := sendFrame_eq s hd
  rw [heq]
  exact ⟨rfl, rfl, rfl, rfl, rfl⟩

theorem frameStep_keepsHostState (s : State) : KeepsHostState s s.frameStep := by
  obtain heq | ⟨r, -, heq⟩ | ⟨hd, rest, -, -, -, -, heq⟩ := frameStep_cases s <;> rw [heq]
  · exact .rfl
  · exact recorded_keepsHostState s _ _
  · exact (withBlock_keepsHostState s _).trans (sendFrame_keepsHostState _ hd)

theorem timeoutStep_keepsHostState (s : State) : KeepsHostState s s.timeoutStep := by
  unfold State.timeoutStep
  split
  · exact withBlock_keepsHostState s _
  · exact .rfl

theorem timeoutClearStep_keepsHostState (s : State) : KeepsHostState s s.timeoutClearStep := by
  unfold State.timeoutClearStep
  split
  · exact withBlock_keepsHostState s _
  · exact .rfl

/-- The step of any agent but the host keeps the host's state. -/
theorem moverStep_keepsHostState {s t : State} {m : Mover} (hm : m ≠ .host) (h : s.moverStep m = .next t) :
    KeepsHostState s t := by
  cases m with
  | host => exact absurd rfl hm
  | resetCtl => cases h; exact resetCtlStep_keepsHostState s
  | engineFrame => cases h; exact frameStep_keepsHostState s
  | engineTimeout => cases h; exact timeoutStep_keepsHostState s
  | engineTimeoutClear => cases h; exact timeoutClearStep_keepsHostState s

/-- Settles O59: a turn of a checked program is the named agent's step, and each agent but the host keeps the host's state. -/
theorem onlyHostMovesHostState : Obligations.OnlyHostMovesHostState := by
  intro s t hchecked hmover hstep
  rw [step_eq_moverStep (step_next hstep).1 hchecked] at hstep
  obtain ⟨hh, hpc, hcursor, hgpio, hselfn⟩ :=
    (afterTurn_keepsHostState s).trans (moverStep_keepsHostState hmover hstep)
  exact ⟨hh, hpc, hcursor, hgpio, hselfn⟩

end Sys2Proof.Machine
end

section
/-! The block's invariant and the micro-cursor's well-formedness along every step (10_state.md R21, R24, R33, R37): what one
register access, one agent's step and one step of an expansion do to them. -/

namespace Sys2Proof.Machine

/-! ### The block's invariant under each update of the block -/

theorem Block.reset_inv : Block.reset.Inv :=
  ⟨by decide, by decide, by decide, by decide, fun _ => rfl⟩

/-- Once the block is out of reset, its invariant is the FIFO bounds and the even prescale. -/
theorem Block.Inv.of_outOfReset {b : Block} (ho : b.outOfReset = true) (htx : b.txq.length ≤ Config.fifoDepth)
    (hrx : b.rxq.length ≤ Config.fifoDepth) (heven : b.cpsdvsr.getLsbD 0 = false) : b.Inv where
  txBound := htx
  rxBound := hrx
  prescaleEven := heven
  ackAfterRelease hin := by simp [Block.outOfReset, hin] at ho
  quietInReset hq := by simp [ho] at hq

theorem Block.Inv.release {b : Block} (hb : b.Inv) : Block.Inv { b with inReset := false } where
  txBound := hb.txBound
  rxBound := hb.rxBound
  prescaleEven := hb.prescaleEven
  ackAfterRelease := nofun
  quietInReset hq := by
    have hdone : b.rstDone = false := by simpa [Block.outOfReset] using hq
    have hreset := hb.quietInReset (by simp [Block.outOfReset, hdone])
    rw [hreset]

theorem Block.Inv.acknowledge {b : Block} (hb : b.Inv) (hack : b.ackEnabled = true) : Block.Inv { b with rstDone := true } := by
  simp only [Block.ackEnabled, Bool.and_eq_true, Bool.not_eq_true'] at hack
  exact Block.Inv.of_outOfReset (by simp [Block.outOfReset, hack.1]) hb.txBound hb.rxBound hb.prescaleEven

/-- The block once the oldest received word has been read, if there is one. -/
def Block.popped (b : Block) : Block := { b with rxq := b.rxq.tail }

theorem Block.Inv.popped {b : Block} (hb : b.Inv) (ho : b.outOfReset = true) : b.popped.Inv := by
  have hle : b.rxq.tail.length ≤ Config.fifoDepth := by
    rw [List.length_tail]; exact (Nat.sub_le _ _).trans hb.rxBound
  exact Block.Inv.of_outOfReset ho hb.txBound hle hb.prescaleEven

/-- The block once a write of `v` to the register `r` has been taken (40_register_access.md R75 to R81). -/
def Block.written (b : Block) (r : Reg) (v : Word) : Block :=
  match r with
  | .cr0 => { b with cr0 := v.setWidth 16 }
  | .cr1 => { b with cr1 := v.setWidth 4 }
  | .dr => { b with txq := b.txq ++ [v.setWidth 16] }
  | .cpsr => { b with cpsdvsr := v.setWidth 8 &&& 0xFE }
  | .imsc => { b with imsc := v.setWidth 4 }
  | .icr => b.clearLatches v
  | .dmacr => { b with dmacr := v.setWidth 2 }
  | _ => b

theorem Block.Inv.written {b : Block} {r : Reg} (hb : b.Inv) (ho : b.outOfReset = true)
    (hroom : r = .dr → b.txq.length < Config.fifoDepth) (v : Word) : (b.written r v).Inv := by
  have same {b' : Block} (ho' : b'.outOfReset = b.outOfReset) (htx : b'.txq = b.txq) (hrx : b'.rxq = b.rxq)
      (hp : b'.cpsdvsr = b.cpsdvsr) : b'.Inv :=
    Block.Inv.of_outOfReset (ho'.trans ho) (htx ▸ hb.txBound) (hrx ▸ hb.rxBound) (hp ▸ hb.prescaleEven)
  cases r
  case dr =>
    have hle : (b.txq ++ [v.setWidth 16]).length ≤ Config.fifoDepth := by
      simpa using hroom rfl
    exact Block.Inv.of_outOfReset ho hle hb.rxBound hb.prescaleEven
  case cpsr => exact Block.Inv.of_outOfReset ho hb.txBound hb.rxBound (by simp [Block.written])
  all_goals exact same rfl rfl rfl rfl

theorem Block.Inv.receive {b : Block} (hb : b.Inv) (ho : b.outOfReset = true) (r : Half) : (b.receive r).Inv := by
  rw [receive_eq]
  split
  case isTrue hroom =>
    have hle : (b.rxq ++ [r]).length ≤ Config.fifoDepth := by simpa using hroom
    exact Block.Inv.of_outOfReset ho hb.txBound hle hb.prescaleEven
  case isFalse => exact Block.Inv.of_outOfReset ho hb.txBound hb.rxBound hb.prescaleEven

theorem Block.Inv.sent {b : Block} {hd : Half} {rest : List Half} (hb : b.Inv) (ho : b.outOfReset = true)
    (htx : b.txq = hd :: rest) : Block.Inv { b with txq := rest } := by
  have hle : rest.length ≤ Config.fifoDepth := by
    have := hb.txBound; rw [htx, List.length_cons] at this; omega
  exact Block.Inv.of_outOfReset ho hle hb.rxBound hb.prescaleEven

/-- A block that is not out of reset has no receive timeout latched. -/
theorem Block.Inv.outOfReset_of_rtLatch {b : Block} (hb : b.Inv) (hrt : b.rtLatch = true) : b.outOfReset = true := by
  by_contra ho
  rw [hb.quietInReset (by simpa using ho)] at hrt
  cases hrt

/-! ### What a running CONFIG relies on -/

/-- What the steps of a `CONFIG` establish and rely on is still so in `b'` where it was so in `b`: the block disabled with
empty FIFOs, released from reset, and acknowledged (44_operations.md R133). -/
structure Block.KeepsSetup (b b' : Block) : Prop where
  quiet : b.sse = false → b.txq = [] → b.rxq = [] → b'.sse = false ∧ b'.txq = [] ∧ b'.rxq = []
  released : b.inReset = false → b'.inReset = false
  acknowledged : b.rstDone = true → b'.rstDone = true

theorem Block.KeepsSetup.rfl {b : Block} : b.KeepsSetup b := ⟨fun hs ht hr => ⟨hs, ht, hr⟩, id, id⟩

/-- A write that queues no word to send and does not enable the block keeps the setup. -/
theorem Block.written_keepsSetup {b : Block} {r : Reg} {v : Word} (hdr : r ≠ .dr) (hcr1 : r = .cr1 → v.getLsbD 1 = false) :
    b.KeepsSetup (b.written r v) := by
  cases r
  case dr => exact absurd rfl hdr
  case cr1 =>
    have hsse : Block.sse { b with cr1 := v.setWidth 4 } = false := by
      simpa [Block.sse, BitVec.getLsbD_setWidth] using hcr1 rfl
    exact ⟨fun _ ht hr => ⟨hsse, ht, hr⟩, id, id⟩
  all_goals exact ⟨fun hs ht hr => ⟨hs, ht, hr⟩, id, id⟩

theorem Cursor.config_wf_iff {d : HIdx} {mode : BitVec 2} {wid : BitVec 5} {t : ConfigTemps} {k : Nat} {b : Block} :
    Cursor.wf ⟨.config d mode wid t, k⟩ b = true ↔
      1 ≤ k ∧ k ≤ 10 ∧ t.enable = false ∧ (2 ≤ k → b.sse = false ∧ b.txq = [] ∧ b.rxq = []) ∧
        (3 ≤ k → b.inReset = false) ∧ (4 ≤ k → b.rstDone = true) := by
  simp only [Cursor.wf, Bool.and_eq_true, Bool.or_eq_true, decide_eq_true_eq, Bool.not_eq_true', List.isEmpty_iff,
    ← Nat.not_le, ← imp_iff_not_or]
  tauto

theorem Cursor.xfer_wf_iff {d : HIdx} {t : XferTemps} {k : Nat} {b : Block} :
    Cursor.wf ⟨.xfer d t, k⟩ b = true ↔
      1 ≤ k ∧ k ≤ 2 * t.tx.length ∧ t.tx.length ≤ 8 ∧ d.val + t.tx.length ≤ 8 ∧ t.rx.length = k - 1 - t.tx.length := by
  simp [Cursor.wf, and_assoc]

theorem Cursor.readchWide_wf_iff {d : HIdx} {ch cmd : Word} {t : XferTemps} {k : Nat} {b : Block} :
    Cursor.wf ⟨.readch d .wide ch cmd t, k⟩ b = true ↔
      1 ≤ k ∧ k ≤ 13 ∧ (k < 6 ∨ t.tx.length = 2) ∧ t.rx.length = min 2 (k - 8) := by
  simp [Cursor.wf, and_assoc]

theorem Cursor.readchNarrow_wf_iff {d : HIdx} {ch cmd : Word} {t : XferTemps} {k : Nat} {b : Block} :
    Cursor.wf ⟨.readch d .narrow ch cmd t, k⟩ b = true ↔
      1 ≤ k ∧ k ≤ 5 ∧ (k < 3 ∨ t.tx.length = 1) ∧ t.rx.length = min 1 (k - 4) := by
  simp [Cursor.wf, and_assoc]

/-- Of the block, a micro-cursor's well-formedness rests on the setup of a `CONFIG` only. -/
theorem Cursor.wf_of_keepsSetup {c : Cursor} {b b' : Block} (hb : b.KeepsSetup b') (hwf : c.wf b = true) : c.wf b' = true := by
  obtain ⟨op, k⟩ := c
  cases op with
  | config d mode wid t =>
    rw [Cursor.config_wf_iff] at hwf ⊢
    obtain ⟨h1, h10, hen, hquiet, hrel, hack⟩ := hwf
    refine ⟨h1, h10, hen, fun hk => ?_, fun hk => hb.released (hrel hk), fun hk => hb.acknowledged (hack hk)⟩
    obtain ⟨hs, ht, hr⟩ := hquiet hk
    exact hb.quiet hs ht hr
  | xfer => exact hwf
  | readch _ v => cases v <;> exact hwf

/-! ### Register accesses -/

/-- A part of a host step keeps the block's invariant and leaves the micro-cursor alone. -/
structure EffectKeeps (s t : State) : Prop where
  block : s.block.Inv → t.block.Inv
  cursor : t.cursor = s.cursor

theorem EffectKeeps.rfl {s : State} : EffectKeeps s s := ⟨id, .refl _⟩

/-- Writing scratch registers and moving `pc` changes neither the block nor the micro-cursor. -/
theorem EffectKeeps.advance {s t : State} (h : EffectKeeps s t) (n : Nat) : EffectKeeps s (t.advance n) :=
  ⟨h.block, h.cursor⟩

theorem EffectKeeps.setH {s t : State} (h : EffectKeeps s t) (i : HIdx) (v : Word) : EffectKeeps s (t.setH i v) :=
  ⟨h.block, h.cursor⟩

theorem regRead_block (s : State) (r : Reg) :
    (s.regRead r).2.block = if r = .dr then s.block.popped else s.block := by
  unfold State.regRead
  split
  · unfold State.readData Block.popped
    split
    case h_1 hq => rw [hq]; rfl
    case h_2 hq => rw [hq, List.tail_nil, ← hq]
  · unfold State.readPlain
    split <;> rfl

theorem regRead_cursor (s : State) (r : Reg) : (s.regRead r).2.cursor = s.cursor := by
  unfold State.regRead
  split
  · unfold State.readData; split <;> rfl
  · unfold State.readPlain; split <;> rfl

theorem regRead_effectKeeps {s : State} (r : Reg) (ho : s.block.outOfReset = true) : EffectKeeps s (s.regRead r).2 where
  block hb := by
    rw [regRead_block]
    split
    · exact hb.popped ho
    · exact hb
  cursor := regRead_cursor s r

/-- A register write that is taken writes the block and leaves the micro-cursor alone; SSPDR takes one only with room for it. -/
theorem regWrite_ok {s t : State} {r : Reg} {v : Word} (h : s.regWrite r v = .ok t) :
    t.cursor = s.cursor ∧ t.block = s.block.written r v ∧ (r = .dr → s.block.txq.length < Config.fifoDepth) := by
  cases r <;> simp only [State.regWrite] at h
  case cr0 | cr1 => split at h <;> cases h; exact ⟨by simp, by simp [Block.written], nofun⟩
  case dr =>
    split at h
    · cases h
    · cases h; exact ⟨rfl, rfl, fun _ => Nat.lt_of_not_le ‹_›⟩
  case cpsr => split at h <;> cases h; exact ⟨rfl, rfl, nofun⟩
  case imsc | icr | dmacr => cases h; exact ⟨rfl, rfl, nofun⟩
  all_goals cases h

theorem regWrite_effectKeeps {s t : State} {r : Reg} {v : Word} (ho : s.block.outOfReset = true)
    (h : s.regWrite r v = .ok t) : EffectKeeps s t := by
  obtain ⟨hcursor, hblock, hroom⟩ := regWrite_ok h
  exact ⟨fun hb => hblock ▸ hb.written ho hroom v, hcursor⟩

theorem readEffect_effectKeeps {s : State} {off : Offset} {p : Word × State} (h : s.readEffect off = .ok p) :
    EffectKeeps s p.2 := by
  obtain ⟨r, hr, h⟩ := bind_ok h
  obtain ⟨-, -, -, ho⟩ := accessCheck_ok hr
  cases h; exact regRead_effectKeeps r ho

theorem maskedReadEffect_effectKeeps {s : State} {off : Offset} {m : Word} {p : Word × State}
    (h : s.maskedReadEffect off m = .ok p) : EffectKeeps s p.2 := by
  obtain ⟨r, hr, h⟩ := bind_ok h
  obtain ⟨-, -, -, ho⟩ := accessCheck_ok hr
  cases h; exact regRead_effectKeeps r ho

theorem writeEffect_effectKeeps {s t : State} {off : Offset} {v : Word} (h : s.writeEffect off v = .ok t) :
    EffectKeeps s t := by
  obtain ⟨r, hr, h⟩ := bind_ok h
  obtain ⟨-, -, -, ho⟩ := accessCheck_ok hr
  exact regWrite_effectKeeps ho h

theorem maskedWriteEffect_effectKeeps {s t : State} {off : Offset} {v m : Word} (h : s.maskedWriteEffect off v m = .ok t) :
    EffectKeeps s t := by
  obtain ⟨r, hr, h⟩ := bind_ok h
  obtain ⟨-, -, -, ho⟩ := accessCheck_ok hr
  exact regWrite_effectKeeps ho h

theorem writeEffect_prescale_keepsSetup {s t : State} {v : Word} (h : s.writeEffect 0x010 v = .ok t) :
    s.block.KeepsSetup t.block := by
  obtain ⟨r, hr, h⟩ := bind_ok h
  obtain rfl : Reg.cpsr = r := Option.some.inj (accessCheck_ok hr).1
  rw [(regWrite_ok h).2.1]
  exact Block.written_keepsSetup nofun nofun

/-- A masked write that does not set SSE keeps the setup; no masked write reaches SSPDR (20_memory.md R50). -/
theorem maskedWriteEffect_keepsSetup {s t : State} {off : Offset} {v m : Word}
    (hsse : regAt off = some .cr1 → m.getLsbD 1 = true ∧ v.getLsbD 1 = false) (h : s.maskedWriteEffect off v m = .ok t) :
    s.block.KeepsSetup t.block := by
  obtain ⟨r, hr, h⟩ := bind_ok h
  obtain ⟨hat, -, hside, -⟩ := accessCheck_ok hr
  rw [(regWrite_ok h).2.1]
  refine Block.written_keepsSetup ?_ ?_
  · rintro rfl
    exact absurd (hside rfl) (by decide)
  · rintro rfl
    obtain ⟨hm, hv⟩ := hsse hat
    simp only [BitVec.getLsbD_or, BitVec.getLsbD_and, BitVec.getLsbD_not, hm, hv, Bool.not_true, Bool.and_false, Bool.false_and,
      Bool.or_false]

/-- A step of a transfer keeps the transmit words, and receives one word once they are all written. -/
theorem transferStep_ok {t : XferTemps} {s : State} {k : Nat} {p : XferTemps × State} (h : transferStep t s k = .ok p) :
    EffectKeeps s p.2 ∧ p.1.tx = t.tx ∧ p.1.rx.length = t.rx.length + if k ≤ t.tx.length then 0 else 1 := by
  unfold transferStep at h
  split at h
  case isTrue hk =>
    obtain ⟨u, hu, h⟩ := bind_ok h
    cases h; exact ⟨writeEffect_effectKeeps hu, rfl, (if_pos hk).symm ▸ rfl⟩
  case isFalse hk =>
    split at h
    · cases h
    · obtain ⟨u, hu, h⟩ := bind_ok h
      cases h; exact ⟨readEffect_effectKeeps hu, rfl, by rw [if_neg hk]; simp⟩

/-! ### Steps that keep both invariants -/

/-- `t` has the invariants of the block and of the micro-cursor if `s` has. -/
structure KeepsInvariants (s t : State) : Prop where
  block : s.block.Inv → t.block.Inv
  cursor : s.CursorInv → t.CursorInv

theorem KeepsInvariants.rfl {s : State} : KeepsInvariants s s := ⟨id, id⟩

theorem keepsInvariants_of_eq {s t : State} (hb : t.block = s.block) (hc : t.cursor = s.cursor) : KeepsInvariants s t :=
  ⟨fun h => hb ▸ h, fun h c hcur => hb ▸ h c (hc ▸ hcur)⟩

theorem keepsInvariants_of_setup {s t : State} (hb : s.block.Inv → t.block.Inv) (hs : s.block.KeepsSetup t.block)
    (hc : t.cursor = s.cursor) : KeepsInvariants s t :=
  ⟨hb, fun h c hcur => Cursor.wf_of_keepsSetup hs (h c (hc ▸ hcur))⟩

theorem cursorInv_of_none {s : State} (h : s.cursor = none) : s.CursorInv :=
  fun c hc => by rw [h] at hc; cases hc

theorem EffectKeeps.keepsInvariants {s t : State} (h : EffectKeeps s t) (hc : s.cursor = none) : KeepsInvariants s t :=
  ⟨h.block, fun _ => cursorInv_of_none (h.cursor.trans hc)⟩

theorem EffectKeeps.endComposite {s t : State} (h : EffectKeeps s t) : KeepsInvariants s t.endComposite :=
  ⟨h.block, fun _ => cursorInv_of_none t.endComposite_cursor⟩

/-- A step of an expansion that goes on to another step keeps the invariants if the micro-cursor it leaves is well-formed. -/
theorem keepsInvariants_toStep {s t : State} {c : Cursor} {o : Composite} {k : Nat} (hcur : s.cursor = some c)
    (hb : s.block.Inv → t.block.Inv) (hwf : c.wf s.block = true → Cursor.wf ⟨o, k⟩ t.block = true) :
    KeepsInvariants s (t.toStep o k) :=
  ⟨hb, fun h c' hc' => by cases hc'; exact hwf (h c hcur)⟩

theorem finish_keepsInvariants {s t : State} {e : Eff State} (he : ∀ u, e = .ok u → KeepsInvariants s u)
    (h : finish s e = .next t) : KeepsInvariants s t := by
  obtain h | ⟨-, rfl⟩ | ⟨k, -, rfl⟩ := finish_next h
  · exact he t h
  · exact .rfl
  · exact keepsInvariants_of_eq rfl rfl

/-! ### The steps of an expansion -/

theorem thenStep_ok {o : Composite} {k : Nat} {e : Eff State} {u : State} (h : thenStep o k e = .ok u) :
    ∃ v, e = .ok v ∧ u = v.toStep o k := by
  obtain ⟨v, hv, h⟩ := bind_ok h
  cases h; exact ⟨v, hv, rfl⟩

/-- A step of `CONFIG` from the fourth to the ninth keeps the invariants if, finding the block disabled, it keeps the setup. -/
theorem config_toStep_keepsInvariants {d : HIdx} {mode : BitVec 2} {wid : BitVec 5} {t t' : ConfigTemps} {k : Nat} {s v : State}
    (hcur : s.cursor = some ⟨.config d mode wid t, k⟩) (hk : 4 ≤ k ∧ k ≤ 9) (hv : EffectKeeps s v)
    (hs : t.enable = false → s.block.sse = false → s.block.KeepsSetup v.block ∧ t'.enable = false) :
    KeepsInvariants s (v.toStep (.config d mode wid t') (k + 1)) := by
  refine keepsInvariants_toStep hcur hv.block fun hwf => ?_
  rw [Cursor.config_wf_iff] at hwf ⊢
  obtain ⟨-, -, hen, hquiet, hrel, hack⟩ := hwf
  obtain ⟨hsse, htx, hrx⟩ := hquiet (by omega)
  obtain ⟨hset, hen'⟩ := hs hen hsse
  exact ⟨by omega, by omega, hen', fun _ => hset.quiet hsse htx hrx, fun _ => hset.released (hrel (by omega)),
    fun _ => hset.acknowledged (hack (by omega))⟩

theorem configStep_keepsInvariants {d : HIdx} {mode : BitVec 2} {wid : BitVec 5} {t : ConfigTemps} {k : Nat} {s u : State}
    (hcur : s.cursor = some ⟨.config d mode wid t, k⟩) (h : configStep d mode wid t s k = .ok u) : KeepsInvariants s u := by
  unfold configStep at h
  split at h
  case h_1 =>
    cases h
    refine keepsInvariants_toStep hcur (fun _ => by simpa using Block.reset_inv) fun hwf => ?_
    rw [Cursor.config_wf_iff] at hwf ⊢
    obtain ⟨-, -, hen, -⟩ := hwf
    simp [hen, Block.reset, Block.sse]
  case h_2 =>
    cases h
    refine keepsInvariants_toStep hcur (fun hb => by simpa using hb.release) fun hwf => ?_
    rw [Cursor.config_wf_iff] at hwf ⊢
    obtain ⟨-, -, hen, hquiet, -⟩ := hwf
    rw [State.releaseReset_block]
    exact ⟨by omega, by omega, hen, fun _ => hquiet le_rfl, fun _ => rfl, fun hk => absurd hk (by decide)⟩
  case h_3 =>
    split at h <;> cases h
    refine keepsInvariants_toStep hcur id fun hwf => ?_
    rw [Cursor.config_wf_iff] at hwf ⊢
    obtain ⟨-, -, hen, hquiet, hrel, -⟩ := hwf
    exact ⟨by omega, by omega, hen, fun _ => hquiet (by omega), fun _ => hrel le_rfl, fun _ => ‹_›⟩
  case h_4 =>
    obtain ⟨v, hv, rfl⟩ := thenStep_ok h
    exact config_toStep_keepsInvariants hcur (by omega) (writeEffect_effectKeeps hv) fun hen _ =>
      ⟨writeEffect_prescale_keepsSetup hv, hen⟩
  case h_6 =>
    obtain ⟨v, hv, rfl⟩ := thenStep_ok h
    exact config_toStep_keepsInvariants hcur (by omega) (maskedWriteEffect_effectKeeps hv) fun _ hsse =>
      ⟨maskedWriteEffect_keepsSetup (fun _ => by decide) hv, hsse⟩
  case h_8 =>
    obtain ⟨v, hv, rfl⟩ := thenStep_ok h
    exact config_toStep_keepsInvariants hcur (by omega) (maskedWriteEffect_effectKeeps hv) fun hen _ =>
      ⟨maskedWriteEffect_keepsSetup (fun _ => by rw [hen]; decide) hv, hen⟩
  case h_5 | h_7 | h_9 =>
    obtain ⟨v, hv, rfl⟩ := thenStep_ok h
    exact config_toStep_keepsInvariants hcur (by omega) (maskedWriteEffect_effectKeeps hv) fun hen _ =>
      ⟨maskedWriteEffect_keepsSetup (fun hat => absurd hat (by decide)) hv, hen⟩
  case h_10 =>
    obtain ⟨v, hv, h⟩ := bind_ok h
    cases h
    exact ((maskedWriteEffect_effectKeeps hv).setH _ _).endComposite
  case h_11 => cases h

theorem xferStep_keepsInvariants {d : HIdx} {t : XferTemps} {k : Nat} {s u : State} (hcur : s.cursor = some ⟨.xfer d t, k⟩)
    (h : xferStep d t s k = .ok u) : KeepsInvariants s u := by
  obtain ⟨⟨t1, v⟩, hv, h⟩ := bind_ok h
  obtain ⟨hkeeps, htx, hrx⟩ := transferStep_ok hv
  dsimp only at h hkeeps htx hrx
  split at h
  · cases h
    exact EffectKeeps.endComposite (t := { v with h := setRange v.h d.val t1.rx }) ⟨hkeeps.block, hkeeps.cursor⟩
  case isFalse hlast =>
    cases h
    refine keepsInvariants_toStep hcur hkeeps.block fun hwf => ?_
    have hk : k ≠ 2 * t.tx.length := by simpa [XferTemps.lastStep] using hlast
    rw [Cursor.xfer_wf_iff] at hwf ⊢
    rw [htx, hrx]
    split <;> omega

theorem readchTransfer_ok {d : HIdx} {var : CodecVariant} {ch cmd : Word} {t : XferTemps} {base k : Nat} {s u : State}
    (h : readchTransfer d var ch cmd t base s k = .ok u) :
    ∃ t1 v, u = v.toStep (.readch d var ch cmd t1) (k + 1) ∧ EffectKeeps s v ∧ t1.tx = t.tx ∧
      t1.rx.length = t.rx.length + if k - base ≤ t.tx.length then 0 else 1 := by
  obtain ⟨⟨t1, v⟩, hv, h⟩ := bind_ok h
  cases h
  exact ⟨t1, v, rfl, transferStep_ok hv⟩

theorem driveSelect_effectKeeps (s : State) (level : Bool) : EffectKeeps s (s.driveSelect level) :=
  ⟨by simp, by simp⟩

theorem readchWideStep_keepsInvariants {d : HIdx} {ch cmd : Word} {t : XferTemps} {k : Nat} {s u : State}
    (hcur : s.cursor = some ⟨.readch d .wide ch cmd t, k⟩) (h : readchWideStep d ch cmd t s k = .ok u) :
    KeepsInvariants s u := by
  have goesOn {v : State} {cmd' : Word} {t' : XferTemps} (hv : EffectKeeps s v)
      (hwf : 1 ≤ k ∧ k ≤ 13 ∧ (k < 6 ∨ t.tx.length = 2) ∧ t.rx.length = min 2 (k - 8) →
        k ≤ 12 ∧ (k < 5 ∨ t'.tx.length = 2) ∧ t'.rx.length = min 2 (k - 7)) :
      KeepsInvariants s (v.toStep (.readch d .wide ch cmd' t') (k + 1)) := by
    refine keepsInvariants_toStep hcur hv.block fun h => ?_
    rw [Cursor.readchWide_wf_iff] at h ⊢
    have := hwf h
    omega
  unfold readchWideStep at h
  split at h
  case h_1 | h_2 | h_4 | h_10 | h_12 => cases h; exact goesOn .rfl fun hwf => by omega
  case h_3 | h_11 => cases h; exact goesOn (driveSelect_effectKeeps s _) fun hwf => by omega
  case h_5 => cases h; exact goesOn .rfl fun _ => by simp
  case h_6 | h_7 | h_8 | h_9 =>
    obtain ⟨t1, v, rfl, hv, htx, hrx⟩ := readchTransfer_ok h
    refine goesOn hv fun hwf => ?_
    rw [htx, hrx]
    split <;> omega
  case h_13 => cases h; exact (EffectKeeps.rfl.setH d _).endComposite
  case h_14 => cases h

theorem readchNarrowStep_keepsInvariants {d : HIdx} {ch cmd : Word} {t : XferTemps} {k : Nat} {s u : State}
    (hcur : s.cursor = some ⟨.readch d .narrow ch cmd t, k⟩) (h : readchNarrowStep d ch cmd t s k = .ok u) :
    KeepsInvariants s u := by
  have goesOn {v : State} {cmd' : Word} {t' : XferTemps} (hv : EffectKeeps s v)
      (hwf : 1 ≤ k ∧ k ≤ 5 ∧ (k < 3 ∨ t.tx.length = 1) ∧ t.rx.length = min 1 (k - 4) →
        k ≤ 4 ∧ (k < 2 ∨ t'.tx.length = 1) ∧ t'.rx.length = min 1 (k - 3)) :
      KeepsInvariants s (v.toStep (.readch d .narrow ch cmd' t') (k + 1)) := by
    refine keepsInvariants_toStep hcur hv.block fun h => ?_
    rw [Cursor.readchNarrow_wf_iff] at h ⊢
    have := hwf h
    omega
  unfold readchNarrowStep at h
  split at h
  case h_1 => cases h; exact goesOn .rfl fun hwf => by omega
  case h_2 => cases h; exact goesOn .rfl fun _ => by simp
  case h_3 | h_4 =>
    obtain ⟨t1, v, rfl, hv, htx, hrx⟩ := readchTransfer_ok h
    refine goesOn hv fun hwf => ?_
    rw [htx, hrx]
    split <;> omega
  case h_5 => cases h; exact (EffectKeeps.rfl.setH d _).endComposite
  case h_6 => cases h

theorem continueComposite_keepsInvariants {c : Cursor} {s t : State} (hcur : s.cursor = some c)
    (h : continueComposite c s = .next t) : KeepsInvariants s t := by
  refine finish_keepsInvariants (fun u hu => ?_) h
  obtain ⟨op, k⟩ := c
  cases op with
  | config => exact configStep_keepsInvariants hcur hu
  | xfer => exact xferStep_keepsInvariants hcur hu
  | readch d var ch cmd t =>
    cases var with
    | wide => exact readchWideStep_keepsInvariants hcur hu
    | narrow => exact readchNarrowStep_keepsInvariants hcur hu

/-! ### The start of an expansion -/

/-- An operation that starts an expansion leaves the block alone and its micro-cursor well-formed whatever the block is. -/
theorem keepsInvariants_start {s : State} {o : Composite} (hwf : Cursor.wf ⟨o, 1⟩ s.block = true) :
    KeepsInvariants s (s.toStep o 1) :=
  ⟨id, fun _ c hc => by cases hc; exact hwf⟩

theorem configStart_keepsInvariants {d a : HIdx} {bus mode : BitVec 2} {ord : BitOrder} {wid : BitVec 5} {s u : State}
    (h : configStart d a bus mode ord wid s = .ok u) : KeepsInvariants s u := by
  obtain ⟨b, -, h⟩ := bind_ok h
  obtain ⟨r, -, h⟩ := bind_ok h
  cases h
  exact keepsInvariants_start (Cursor.config_wf_iff.mpr (by simp))

theorem readRange_length {s : State} : ∀ {n a : Nat} {tx : List Word}, s.readRange a n = .ok tx → tx.length = n := by
  intro n
  induction n with
  | zero => intro a tx h; cases h; rfl
  | succ n ih =>
    intro a tx h
    obtain ⟨v, -, h⟩ := bind_ok h
    obtain ⟨vs, hvs, h⟩ := bind_ok h
    cases h
    rw [List.length_cons, ih hvs]

theorem xferStart_keepsInvariants {d a : HIdx} {n : BitVec 4} {s u : State} (h : xferStart d a n s = .ok u) :
    KeepsInvariants s u := by
  unfold xferStart at h
  split at h
  case isFalse => cases h
  case isTrue hlegal =>
    obtain ⟨tx, htx, h⟩ := bind_ok h
    cases h
    simp only [xferLegal, Bool.and_eq_true, decide_eq_true_eq] at hlegal
    refine keepsInvariants_start (Cursor.xfer_wf_iff.mpr ?_)
    rw [readRange_length htx, List.length_nil]
    omega

theorem readchStart_keepsInvariants {d a : HIdx} {s u : State} (h : readchStart d a s = .ok u) : KeepsInvariants s u := by
  obtain ⟨ch, -, h⟩ := bind_ok h
  split at h
  · cases h
  · split at h
    · cases h
    case h_2 v _ => cases h; cases v <;> exact keepsInvariants_start rfl

/-! ### The operations -/

theorem assertReset_effectKeeps (s : State) : EffectKeeps s s.assertReset :=
  ⟨fun _ => by simpa using Block.reset_inv, by simp⟩

theorem releaseReset_effectKeeps (s : State) : EffectKeeps s s.releaseReset :=
  ⟨fun hb => by simpa using hb.release, by simp⟩

theorem setSelfn_effectKeeps (s : State) (f : SelFn) : EffectKeeps s (s.setSelfn f) :=
  ⟨by simp, by simp⟩

theorem exec_keepsInvariants {i : Instr} {s t : State} (hcur : s.cursor = none) (hhost : i.isHostOp = true)
    (h : exec i s = .next t) : KeepsInvariants s t := by
  have keeps {e : Eff State} (he : ∀ u, e = .ok u → EffectKeeps s u) (h : finish s e = .next t) : KeepsInvariants s t :=
    finish_keepsInvariants (fun u hu => (he u hu).keepsInvariants hcur) h
  cases i
  case mcpCmdWide | mcpCmdNarrow => cases hhost
  case config => exact finish_keepsInvariants (fun _ => configStart_keepsInvariants) h
  case xfer => exact finish_keepsInvariants (fun _ => xferStart_keepsInvariants) h
  case readch => exact finish_keepsInvariants (fun _ => readchStart_keepsInvariants) h
  case li => cases h; exact ((EffectKeeps.rfl.setH _ _).advance 2).keepsInvariants hcur
  case rsta => cases h; exact ((assertReset_effectKeeps s).advance 1).keepsInvariants hcur
  case rstr => cases h; exact ((releaseReset_effectKeeps s).advance 1).keepsInvariants hcur
  case sell | selh => cases h; exact ((driveSelect_effectKeeps s _).advance 1).keepsInvariants hcur
  case selfn => cases h; exact ((setSelfn_effectKeeps s _).advance 1).keepsInvariants hcur
  case delay => cases h; exact (EffectKeeps.rfl.advance 1).keepsInvariants hcur
  case halt => cases h; exact keepsInvariants_of_eq rfl rfl
  all_goals refine keeps (fun u hu => ?_) h
  case rd =>
    obtain ⟨p, hp, hu⟩ := bind_ok hu
    cases hu; exact ((readEffect_effectKeeps hp).setH _ _).advance 1
  case wr =>
    obtain ⟨v, -, hu⟩ := bind_ok hu
    obtain ⟨p, hp, hu⟩ := bind_ok hu
    cases hu; exact (writeEffect_effectKeeps hp).advance 1
  case rdm =>
    obtain ⟨m, -, hu⟩ := bind_ok hu
    obtain ⟨p, hp, hu⟩ := bind_ok hu
    cases hu; exact ((maskedReadEffect_effectKeeps hp).setH _ _).advance 1
  case wrm =>
    obtain ⟨vm, -, hu⟩ := bind_ok hu
    obtain ⟨p, hp, hu⟩ := bind_ok hu
    cases hu; exact (maskedWriteEffect_effectKeeps hp).advance 1
  case wait =>
    obtain ⟨vm, -, hu⟩ := bind_ok hu
    obtain ⟨p, hp, hu⟩ := bind_ok hu
    dsimp only at hu
    split at hu <;> cases hu
    exact (maskedReadEffect_effectKeeps hp).advance 1
  case encw | encn | decn | decw =>
    obtain ⟨v, -, hu⟩ := bind_ok hu
    cases hu; exact (EffectKeeps.rfl.setH _ _).advance 1
  case rstw => split at hu <;> cases hu; exact EffectKeeps.rfl.advance 1

/-! ### The fetch gives host operations only -/

theorem acceptRow_ok {w : Word} {i j : Instr} (h : acceptRow w i = .ok j) : j = i := by
  unfold acceptRow at h
  split at h <;> cases h
  rfl

theorem acceptXfer_ok {w : Word} {d a : HIdx} {n : BitVec 4} {j : Instr} (h : acceptXfer w d a n = .ok j) :
    j = .xfer d a n := by
  unfold acceptXfer at h
  split at h
  · cases h
  · split at h <;> cases h
    exact acceptRow_ok ‹_›

theorem decodeWord_isHostOp {w : Word} {i : Instr} (h : decodeWord w = .ok i) : i.isHostOp = true := by
  unfold decodeWord at h
  split at h
  case h_19 => rw [acceptXfer_ok h]; rfl
  case h_21 => cases h
  all_goals rw [acceptRow_ok h]; rfl

theorem decode_isHostOp {ws rest : List Word} {i : Instr} (h : decode ws = .ok (i, rest)) : i.isHostOp = true := by
  unfold decode at h
  split at h
  · cases h
  · split at h
    · split at h <;> cases h
      rfl
    · split at h <;> cases h
      exact decodeWord_isHostOp ‹_›

theorem fetch_isHostOp {s : State} {i : Instr} (h : s.fetch = .ok i) : i.isHostOp = true := by
  unfold State.fetch at h
  split at h <;> cases h
  exact decode_isHostOp ‹_›

/-! ### The agents' steps -/

theorem hostStep_keepsInvariants {s t : State} (h : s.hostStep = .next t) : KeepsInvariants s t := by
  unfold State.hostStep at h
  split at h
  · cases h; exact .rfl
  · split at h
    · exact continueComposite_keepsInvariants ‹_› h
    · split at h
      · cases h; exact keepsInvariants_of_eq rfl rfl
      · exact exec_keepsInvariants ‹_› (fetch_isHostOp ‹_›) h

theorem resetCtlStep_keepsInvariants (s : State) : KeepsInvariants s s.resetCtlStep := by
  refine keepsInvariants_of_setup ?_ ?_ (resetCtlStep_keepsHostState s).cursor <;> unfold State.resetCtlStep <;> split
  · exact fun hb => by simpa using hb.acknowledge ‹_›
  · exact id
  · rw [State.settleSelect_block]; exact ⟨fun hs ht hr => ⟨hs, ht, hr⟩, id, fun _ => rfl⟩
  · exact .rfl

/-- A frame goes out of an enabled block only, so a `CONFIG` that has disabled it sees none. -/
theorem frameStep_keepsInvariants (s : State) : KeepsInvariants s s.frameStep := by
  obtain heq | ⟨r, -, heq⟩ | ⟨hd, rest, htx, -, ho, hsse, heq⟩ := frameStep_cases s <;> rw [heq]
  · exact .rfl
  · exact keepsInvariants_of_eq rfl rfl
  · obtain ⟨r, dev, env, hsend⟩ := sendFrame_eq { s with block := { s.block with txq := rest } } hd
    rw [hsend]
    refine keepsInvariants_of_setup (fun hb => (hb.sent ho htx).receive ho r) ?_ rfl
    refine ⟨fun hs => by simp [hsse] at hs, ?_, ?_⟩ <;> dsimp only [Block.receive] <;> split <;> exact id

theorem timeoutStep_keepsInvariants (s : State) : KeepsInvariants s s.timeoutStep := by
  unfold State.timeoutStep
  split
  case isTrue hen =>
    simp only [Block.timeoutEnabled, Bool.and_eq_true] at hen
    obtain ⟨⟨⟨ho, -⟩, -⟩, -⟩ := hen
    exact keepsInvariants_of_setup (fun hb => Block.Inv.of_outOfReset ho hb.txBound hb.rxBound hb.prescaleEven)
      ⟨fun hs ht hr => ⟨hs, ht, hr⟩, id, id⟩ rfl
  case isFalse => exact .rfl

theorem timeoutClearStep_keepsInvariants (s : State) : KeepsInvariants s s.timeoutClearStep := by
  unfold State.timeoutClearStep
  split
  case isTrue hen =>
    simp only [Block.timeoutClearEnabled, Bool.and_eq_true] at hen
    obtain ⟨-, hrt⟩ := hen
    refine keepsInvariants_of_setup (fun hb => ?_) ⟨fun hs ht hr => ⟨hs, ht, hr⟩, id, id⟩ rfl
    have ho := hb.outOfReset_of_rtLatch hrt
    exact Block.Inv.of_outOfReset ho hb.txBound hb.rxBound hb.prescaleEven
  case isFalse => exact .rfl

theorem moverStep_keepsInvariants {s t : State} {m : Mover} (h : s.moverStep m = .next t) : KeepsInvariants s t := by
  cases m with
  | host => exact hostStep_keepsInvariants h
  | resetCtl => cases h; exact resetCtlStep_keepsInvariants s
  | engineFrame => cases h; exact frameStep_keepsInvariants s
  | engineTimeout => cases h; exact timeoutStep_keepsInvariants s
  | engineTimeoutClear => cases h; exact timeoutClearStep_keepsInvariants s

theorem loadCheck_keepsInvariants (s : State) : KeepsInvariants s s.loadCheck := by
  unfold State.loadCheck
  split <;> exact keepsInvariants_of_eq rfl rfl

/-- A step is the load check or one agent's step, and both keep the two invariants. -/
theorem step_keepsInvariants {s t : State} (h : step s = .next t) : KeepsInvariants s t := by
  have hf := (step_next h).1
  by_cases hc : s.checked = true
  · rw [step_eq_moverStep hf hc] at h
    obtain ⟨hblock, hcursor⟩ := moverStep_keepsInvariants h
    exact ⟨hblock, hcursor⟩
  · simp only [step, State.turn, hf, hc] at h
    cases h; exact loadCheck_keepsInvariants s

/-- Settles O55: every agent's step and the load check keep the block's invariant. -/
theorem stepKeepsBlockInvariant : Obligations.StepKeepsBlockInvariant :=
  fun _ _ hb h => (step_keepsInvariants h).block hb

/-- Settles O57: every agent's step and the load check keep the micro-cursor well-formed, whatever the block is. -/
theorem stepKeepsCursorInvariant : Obligations.StepKeepsCursorInvariant :=
  fun _ _ _ hcur h => (step_keepsInvariants h).cursor hcur

/-! ### Launch -/

/-- Settles O7: every field of the launch state is the value 10_state.md R40 lists. -/
theorem launchState : Obligations.LaunchState := by
  refine ⟨fun i => ?_, rfl, rfl, rfl, rfl, rfl, rfl, rfl, rfl, rfl, rfl, rfl, rfl, rfl, rfl, rfl, rfl, rfl, rfl⟩
  exact Vector.getElem_replicate i.isLt

/-- Settles O54: the block launches in reset, the select line high with the device off, no micro-cursor and no fault. -/
theorem launchMeetsInvariants : Obligations.LaunchMeetsInvariants :=
  ⟨Block.reset_inv, fun _ => ⟨fun _ => rfl, nofun⟩, cursorInv_of_none rfl, fun hf => absurd rfl hf⟩

end Sys2Proof.Machine
end

section
/-! Operands that nothing has written: an operation that reads one ends in `UnwrittenRegister` (10_state.md R19, 60_exceptions.md
R170). -/

namespace Sys2Proof.Machine

/-- Of two operands in either order, an unwritten one faults unless the other is unwritten too and has the lower index. -/
theorem readH2_unwritten {s : State} {a b : HIdx} (ha : s.h[a] = .unwritten) (hb : s.h[b] ≠ .unwritten ∨ a ≤ b) :
    s.readH2 a b = .error (.fault (.unwrittenRegister a)) ∧ s.readH2 b a = .error (.fault (.unwrittenRegister a)) := by
  unfold State.readH2
  rw [readH_unwritten ha]
  cases hv : s.h[b] with
  | holds v =>
    rw [readH_holds hv]
    constructor <;> split <;> rfl
  | unwritten =>
    have hle : a ≤ b := hb.resolve_left fun hne => hne hv
    rw [if_neg (not_lt.mpr hle)]
    refine ⟨rfl, ?_⟩
    split
    · rfl
    case isFalse hlt =>
      obtain rfl : a = b := le_antisymm hle (not_lt.mp hlt)
      rw [readH_unwritten ha]; rfl

/-- A host step whose first part faults records that fault. -/
theorem finish_bind_fault {α : Type} {s : State} {e : Eff α} {k : FaultKind} (he : e = .error (.fault k)) (f : α → Eff State) :
    finish s (e >>= f) = .next (s.recorded .host k) := by
  rw [he]; rfl

/-- Settles O26: every such operation reads its scratch operands first, so its step is a bind whose first part faults. -/
theorem unwrittenOperandFaults : Obligations.UnwrittenOperandFaults := by
  intro s d a b off bus mode ord wid raises
  refine ⟨fun ha => ⟨?_, fun hb => ?_⟩, fun n i hlegal hai hin hi hfirst => ?_⟩
  · have hread := readH_unwritten ha
    have fault := fun f => finish_bind_fault (s := s) hread f
    simp only [List.forall_mem_cons]
    exact ⟨fault _, fault _, fault _, fault _, fault _, fault _, fault _, List.forall_mem_nil _⟩
  · obtain ⟨hab, hba⟩ := readH2_unwritten ha hb
    have faultAB := fun f => finish_bind_fault (s := s) hab f
    have faultBA := fun f => finish_bind_fault (s := s) hba f
    simp only [List.forall_mem_cons]
    exact ⟨faultAB _, faultBA _, faultAB _, faultBA _, faultAB _, faultBA _, List.forall_mem_nil _⟩
  · have hread := readRange_unwritten hi n.toNat a.val hai hin hfirst
    simp only [raises, exec, execXfer, xferStart, if_pos hlegal, finish_bind_fault hread]

end Sys2Proof.Machine
end

section
/-! What no step takes back (20_memory.md R55, 10_state.md R22, 60_exceptions.md R161): the program, the parameters, the halt and
the fault record. The parts of a host step leave all four alone; only `HALT`, a raised fault and a refused load check set the
halt, and the last two add one record with it. -/

namespace Sys2Proof.Machine

/-! ### Updates that leave the program, the parameters, the fault record and the halt alone -/

theorem Keeps.setH {s t : State} (h : Keeps s t) (i : HIdx) (v : Word) : Keeps s (t.setH i v) :=
  ⟨h.prog, h.params, h.faults, h.checked, h.halted⟩

theorem Keeps.advance {s t : State} (h : Keeps s t) (n : Nat) : Keeps s (t.advance n) :=
  ⟨h.prog, h.params, h.faults, h.checked, h.halted⟩

theorem Keeps.toStep {s t : State} (h : Keeps s t) (o : Composite) (k : Nat) : Keeps s (t.toStep o k) :=
  ⟨h.prog, h.params, h.faults, h.checked, h.halted⟩

theorem Keeps.endComposite {s t : State} (h : Keeps s t) : Keeps s t.endComposite :=
  ⟨h.prog, h.params, h.faults, h.checked, h.halted⟩

theorem afterTurn_keeps (s : State) : Keeps s s.afterTurn := ⟨rfl, rfl, rfl, rfl, rfl⟩

theorem withBlock_keeps (s : State) (b : Block) : Keeps s { s with block := b } := ⟨rfl, rfl, rfl, rfl, rfl⟩

theorem driveSelect_keeps (s : State) (level : Bool) : Keeps s (s.driveSelect level) := by
  constructor <;> simp

theorem setSelfn_keeps (s : State) (f : SelFn) : Keeps s (s.setSelfn f) := by
  constructor <;> simp

theorem assertReset_keeps (s : State) : Keeps s s.assertReset := by
  constructor <;> simp

theorem releaseReset_keeps (s : State) : Keeps s s.releaseReset := by
  constructor <;> simp

theorem sendFrame_keeps (s : State) (hd : Half) : Keeps s (s.sendFrame hd) := by
  obtain ⟨r, dev, env, heq⟩ := sendFrame_eq s hd
  rw [heq]
  exact ⟨rfl, rfl, rfl, rfl, rfl⟩

theorem resetCtlStep_keeps (s : State) : Keeps s s.resetCtlStep := by
  unfold State.resetCtlStep
  split
  · exact (withBlock_keeps s _).trans (settleSelect_keeps s _)
  · exact .rfl

theorem timeoutStep_keeps (s : State) : Keeps s s.timeoutStep := by
  unfold State.timeoutStep
  split
  · exact withBlock_keeps s _
  · exact .rfl

theorem timeoutClearStep_keeps (s : State) : Keeps s s.timeoutClearStep := by
  unfold State.timeoutClearStep
  split
  · exact withBlock_keeps s _
  · exact .rfl

/-! ### The steps of an expansion -/

theorem transferStep_keeps {t : XferTemps} {s : State} {k : Nat} {p : XferTemps × State} (h : transferStep t s k = .ok p) :
    Keeps s p.2 := by
  unfold transferStep at h
  split at h
  · obtain ⟨u, hu, h⟩ := bind_ok h
    cases h; exact writeEffect_keeps hu
  · split at h
    · cases h
    · obtain ⟨u, hu, h⟩ := bind_ok h
      cases h; exact readEffect_keeps hu

theorem configStep_keeps {d : HIdx} {mode : BitVec 2} {wid : BitVec 5} {t : ConfigTemps} {k : Nat} {s u : State}
    (h : configStep d mode wid t s k = .ok u) : Keeps s u := by
  unfold configStep at h
  split at h
  case h_1 => cases h; exact (assertReset_keeps s).toStep _ _
  case h_2 => cases h; exact (releaseReset_keeps s).toStep _ _
  case h_3 => split at h <;> cases h; exact Keeps.rfl.toStep _ _
  case h_4 =>
    obtain ⟨v, hv, rfl⟩ := thenStep_ok h
    exact (writeEffect_keeps hv).toStep _ _
  case h_5 | h_6 | h_7 | h_8 | h_9 =>
    obtain ⟨v, hv, rfl⟩ := thenStep_ok h
    exact (maskedWriteEffect_keeps hv).toStep _ _
  case h_10 =>
    obtain ⟨v, hv, h⟩ := bind_ok h
    cases h; exact ((maskedWriteEffect_keeps hv).setH _ _).endComposite
  case h_11 => cases h

theorem xferStep_keeps {d : HIdx} {t : XferTemps} {k : Nat} {s u : State} (h : xferStep d t s k = .ok u) : Keeps s u := by
  obtain ⟨⟨t1, v⟩, hv, h⟩ := bind_ok h
  obtain ⟨hprog, hparams, hfaults, hchecked, hhalted⟩ := transferStep_keeps hv
  dsimp only at h
  split at h <;> cases h <;> exact ⟨hprog, hparams, hfaults, hchecked, hhalted⟩

theorem readchTransfer_keeps {d : HIdx} {var : CodecVariant} {ch cmd : Word} {t : XferTemps} {base k : Nat} {s u : State}
    (h : readchTransfer d var ch cmd t base s k = .ok u) : Keeps s u := by
  obtain ⟨p, hp, h⟩ := bind_ok h
  cases h; exact (transferStep_keeps hp).toStep _ _

theorem readchWideStep_keeps {d : HIdx} {ch cmd : Word} {t : XferTemps} {k : Nat} {s u : State}
    (h : readchWideStep d ch cmd t s k = .ok u) : Keeps s u := by
  unfold readchWideStep at h
  split at h
  case h_1 | h_2 | h_4 | h_5 | h_10 | h_12 => cases h; exact Keeps.rfl.toStep _ _
  case h_3 | h_11 => cases h; exact (driveSelect_keeps s _).toStep _ _
  case h_6 | h_7 | h_8 | h_9 => exact readchTransfer_keeps h
  case h_13 => cases h; exact (Keeps.rfl.setH d _).endComposite
  case h_14 => cases h

theorem readchNarrowStep_keeps {d : HIdx} {ch cmd : Word} {t : XferTemps} {k : Nat} {s u : State}
    (h : readchNarrowStep d ch cmd t s k = .ok u) : Keeps s u := by
  unfold readchNarrowStep at h
  split at h
  case h_1 | h_2 => cases h; exact Keeps.rfl.toStep _ _
  case h_3 | h_4 => exact readchTransfer_keeps h
  case h_5 => cases h; exact (Keeps.rfl.setH d _).endComposite
  case h_6 => cases h

theorem compositeStep_keeps {c : Cursor} {s u : State} (h : compositeStep c s = .ok u) : Keeps s u := by
  obtain ⟨op, k⟩ := c
  cases op with
  | config => exact configStep_keeps h
  | xfer => exact xferStep_keeps h
  | readch d var ch cmd t =>
    cases var with
    | wide => exact readchWideStep_keeps h
    | narrow => exact readchNarrowStep_keeps h

/-! ### Steps that add at most one fault record -/

/-- `t` has the program and the parameters of `s`, is halted if `s` is, and has the fault record of `s` or is halted with one
record more. -/
structure KeepsRecord (s t : State) : Prop where
  prog : t.prog = s.prog
  params : t.params = s.params
  halted : s.halted = true → t.halted = true
  record : t.faults = s.faults ∨ t.halted = true ∧ ∃ r, t.faults = s.faults ++ [r]

theorem Keeps.keepsRecord {s t : State} (h : Keeps s t) : KeepsRecord s t :=
  ⟨h.prog, h.params, h.halted.trans, .inl h.faults⟩

theorem Keeps.trans_keepsRecord {s t u : State} (h : Keeps s t) (g : KeepsRecord t u) : KeepsRecord s u where
  prog := g.prog.trans h.prog
  params := g.params.trans h.params
  halted hs := g.halted (h.halted.trans hs)
  record := h.faults ▸ g.record

theorem recorded_keepsRecord (s : State) (x : Agent) (k : FaultKind) : KeepsRecord s (s.recorded x k) :=
  ⟨rfl, rfl, fun _ => rfl, .inr ⟨rfl, _, rfl⟩⟩

theorem KeepsRecord.haltInv {s t : State} (h : KeepsRecord s t) (hs : s.HaltInv) : t.HaltInv := by
  intro hne
  obtain heq | ⟨hhalted, -⟩ := h.record
  · exact h.halted (hs (heq ▸ hne))
  · exact hhalted

theorem finish_keepsRecord {s t : State} {e : Eff State} (he : ∀ u, e = .ok u → Keeps s u)
    (h : finish s e = .next t) : KeepsRecord s t := by
  obtain h | ⟨-, rfl⟩ | ⟨k, -, rfl⟩ := finish_next h
  · exact (he t h).keepsRecord
  · exact Keeps.rfl.keepsRecord
  · exact recorded_keepsRecord s _ k

theorem frameStep_keepsRecord (s : State) : KeepsRecord s s.frameStep := by
  obtain heq | ⟨r, -, heq⟩ | ⟨hd, rest, -, -, -, -, heq⟩ := frameStep_cases s <;> rw [heq]
  · exact Keeps.rfl.keepsRecord
  · exact recorded_keepsRecord s _ _
  · exact ((withBlock_keeps s _).trans (sendFrame_keeps _ hd)).keepsRecord

theorem exec_keepsRecord {i : Instr} {s t : State} (h : exec i s = .next t) : KeepsRecord s t := by
  cases i
  case mcpCmdWide | mcpCmdNarrow => cases h; exact (withBlock_keeps s _).trans_keepsRecord (frameStep_keepsRecord _)
  case halt => cases h; exact ⟨rfl, rfl, fun _ => rfl, .inl rfl⟩
  case li => cases h; exact ((Keeps.rfl.setH _ _).advance 2).keepsRecord
  case rsta => cases h; exact ((assertReset_keeps s).advance 1).keepsRecord
  case rstr => cases h; exact ((releaseReset_keeps s).advance 1).keepsRecord
  case sell | selh => cases h; exact ((driveSelect_keeps s _).advance 1).keepsRecord
  case selfn => cases h; exact ((setSelfn_keeps s _).advance 1).keepsRecord
  case delay => cases h; exact (Keeps.rfl.advance 1).keepsRecord
  all_goals refine finish_keepsRecord (fun u hu => ?_) h
  case rd =>
    obtain ⟨p, hp, hu⟩ := bind_ok hu
    cases hu; exact ((readEffect_keeps hp).setH _ _).advance 1
  case wr =>
    obtain ⟨v, -, hu⟩ := bind_ok hu
    obtain ⟨p, hp, hu⟩ := bind_ok hu
    cases hu; exact (writeEffect_keeps hp).advance 1
  case rdm =>
    obtain ⟨m, -, hu⟩ := bind_ok hu
    obtain ⟨p, hp, hu⟩ := bind_ok hu
    cases hu; exact ((maskedReadEffect_keeps hp).setH _ _).advance 1
  case wrm =>
    obtain ⟨vm, -, hu⟩ := bind_ok hu
    obtain ⟨p, hp, hu⟩ := bind_ok hu
    cases hu; exact (maskedWriteEffect_keeps hp).advance 1
  case wait =>
    obtain ⟨vm, -, hu⟩ := bind_ok hu
    obtain ⟨p, hp, hu⟩ := bind_ok hu
    dsimp only at hu
    split at hu <;> cases hu
    exact (maskedReadEffect_keeps hp).advance 1
  case rstw => split at hu <;> cases hu; exact Keeps.rfl.advance 1
  case encw | encn | decn | decw =>
    obtain ⟨v, -, hu⟩ := bind_ok hu
    cases hu; exact (Keeps.rfl.setH _ _).advance 1
  case config =>
    obtain ⟨b, -, hu⟩ := bind_ok hu
    obtain ⟨r, -, hu⟩ := bind_ok hu
    cases hu; exact Keeps.rfl.toStep _ _
  case xfer =>
    unfold xferStart at hu
    split at hu
    · obtain ⟨tx, -, hu⟩ := bind_ok hu
      cases hu; exact Keeps.rfl.toStep _ _
    · cases hu
  case readch =>
    obtain ⟨ch, -, hu⟩ := bind_ok hu
    split at hu
    · cases hu
    · split at hu <;> cases hu
      exact Keeps.rfl.toStep _ _

/-! ### The agents' steps -/

theorem hostStep_keepsRecord {s t : State} (h : s.hostStep = .next t) : KeepsRecord s t := by
  unfold State.hostStep at h
  split at h
  · cases h; exact Keeps.rfl.keepsRecord
  · split at h
    · exact finish_keepsRecord (fun _ => compositeStep_keeps) h
    · split at h
      · cases h; exact recorded_keepsRecord s _ _
      · exact exec_keepsRecord h

theorem moverStep_keepsRecord {s t : State} {m : Mover} (h : s.moverStep m = .next t) : KeepsRecord s t := by
  cases m with
  | host => exact hostStep_keepsRecord h
  | resetCtl => cases h; exact (resetCtlStep_keeps s).keepsRecord
  | engineFrame => cases h; exact frameStep_keepsRecord s
  | engineTimeout => cases h; exact (timeoutStep_keeps s).keepsRecord
  | engineTimeoutClear => cases h; exact (timeoutClearStep_keeps s).keepsRecord

theorem loadCheck_keepsRecord (s : State) : KeepsRecord s s.loadCheck := by
  unfold State.loadCheck
  split
  · exact ⟨rfl, rfl, id, .inl rfl⟩
  · exact ⟨rfl, rfl, fun _ => rfl, .inr ⟨rfl, _, rfl⟩⟩

/-- A step is the load check or one agent's step, and neither takes anything of these back. -/
theorem step_keepsRecord {s t : State} (h : step s = .next t) : KeepsRecord s t := by
  have hf := (step_next h).1
  by_cases hc : s.checked = true
  · rw [step_eq_moverStep hf hc] at h
    exact (afterTurn_keeps s).trans_keepsRecord (moverStep_keepsRecord h)
  · simp only [step, State.turn, hf, hc] at h
    cases h; exact loadCheck_keepsRecord s

/-- Settles O58: every agent's step and the load check keep the program, the parameters and the halt, and record at most one fault,
with which they halt the host. -/
theorem stepKeepsProgramAndFaultRecord : Obligations.StepKeepsProgramAndFaultRecord := by
  intro s t h
  have hkeeps := step_keepsRecord h
  refine ⟨hkeeps.prog, hkeeps.params, hkeeps.haltInv, hkeeps.halted, ?_⟩
  obtain heq | ⟨-, r, heq⟩ := hkeeps.record
  · exact ⟨[], heq.trans (List.append_nil _).symm, Nat.zero_le 1⟩
  · exact ⟨[r], heq, le_rfl⟩

end Sys2Proof.Machine
end

section
/-! Words and operations (30_encoding.md R57 to R63): the fields of a word put together again, the operation read from a word, and
from these the two directions of the encoding and the rows of the opcode map. -/

namespace Sys2Proof

/-! ### Fields placed in a word -/

/-- A field put back where it was taken from: the word's bits there, and 0 elsewhere. -/
theorem fieldAt_extractLsb' (w : Word) (lo n : Nat) : fieldAt lo (w.extractLsb' lo n) = w &&& fieldAt lo (BitVec.allOnes n) := by
  apply BitVec.eq_of_getLsbD_eq
  intro i hi
  simp only [fieldAt, BitVec.getLsbD_and, BitVec.getLsbD_shiftLeft, BitVec.getLsbD_setWidth, BitVec.getLsbD_extractLsb',
    BitVec.getLsbD_allOnes]
  by_cases h : i < lo
  · simp [h]
  · rw [Nat.add_sub_cancel' (Nat.not_lt.mp h)]
    grind

theorem extractLsb'_fieldAt_same {lo n : Nat} (v : BitVec n) (h : lo + n ≤ 32) : (fieldAt lo v).extractLsb' lo n = v := by
  apply BitVec.eq_of_getLsbD_eq
  intro i hi
  have h32 : lo + i < 32 := by omega
  simp [fieldAt, h32, hi]

theorem extractLsb'_fieldAt_above {lo n lo' n' : Nat} (v : BitVec n) (h : lo + n ≤ lo') : (fieldAt lo v).extractLsb' lo' n' = 0 := by
  apply BitVec.eq_of_getLsbD_eq
  intro i hi
  have hv : v.getLsbD (lo' + i - lo) = false := BitVec.getLsbD_of_ge _ _ (by omega)
  simp [fieldAt, hv]

theorem extractLsb'_fieldAt_below {lo n lo' n' : Nat} (v : BitVec n) (h : lo' + n' ≤ lo) : (fieldAt lo v).extractLsb' lo' n' = 0 := by
  apply BitVec.eq_of_getLsbD_eq
  intro i hi
  have hlo : lo' + i < lo := by omega
  simp [fieldAt, hlo]

theorem fieldAt_zero (lo n : Nat) : fieldAt lo (0 : BitVec n) = 0#32 := by
  simp [fieldAt]

theorem hBits_toFin (v : BitVec 3) : hBits v.toFin = v := rfl

theorem toFin_hBits (d : HIdx) : (hBits d).toFin = d := rfl

theorem fieldAt_selBits_selField (w : Word) : fieldAt 0 (selBits (selField w)) = fieldAt 0 (w.extractLsb' 0 1) := by
  apply BitVec.eq_of_getLsbD_eq
  intro i hi
  unfold selField
  cases hb : w.getLsbD 0 <;> simp [selBits, fieldAt] <;> grind

theorem ordBits_ordField (w : Word) : ordBits (ordField w) = w.extractLsb' 15 1 := by
  apply BitVec.eq_of_getLsbD_eq
  intro i hi
  obtain rfl : i = 0 := by omega
  unfold ordField
  cases hb : w.getLsbD 15 <;> simp [ordBits] <;> grind

/-! ### An operation read again from a word -/

/-- The operation of the row of `i` whose fields are those of the word `w`. The immediate of an `LI` is no field of its first word and
stays. -/
def Instr.reread (i : Instr) (w : Word) : Instr :=
  match i with
  | .rd _ _ => .rd (dField w) (offField w)
  | .wr _ _ => .wr (offField w) (aField w)
  | .rdm _ _ _ => .rdm (dField w) (offField w) (bField w)
  | .wrm _ _ _ => .wrm (offField w) (aField w) (bField w)
  | .wait _ _ _ => .wait (offField w) (aField w) (bField w)
  | .li _ imm => .li (dField w) imm
  | .rsta => .rsta
  | .rstr => .rstr
  | .rstw => .rstw
  | .sell => .sell
  | .selh => .selh
  | .selfn _ => .selfn (selField w)
  | .delay _ => .delay (imm16Field w)
  | .halt => .halt
  | .encw _ _ => .encw (dField w) (aField w)
  | .encn _ _ => .encn (dField w) (aField w)
  | .decw _ _ _ => .decw (dField w) (aField w) (bField w)
  | .decn _ _ => .decn (dField w) (aField w)
  | .config _ _ _ _ _ _ =>
    .config (dField w) (aField w) (w.extractLsb' 18 2) (w.extractLsb' 16 2) (ordField w) (w.extractLsb' 10 5)
  | .xfer _ _ _ => .xfer (dField w) (aField w) (w.extractLsb' 16 4)
  | .readch _ _ => .readch (dField w) (aField w)
  | .mcpCmdWide _ => .mcpCmdWide (w.extractLsb' 4 3)
  | .mcpCmdNarrow _ => .mcpCmdNarrow (w.extractLsb' 1 3)

theorem row_reread (i : Instr) (w : Word) : (i.reread w).row = i.row := by
  cases i <;> rfl

/-- Encoding the fields of any word gives the row's value in the bits of its mask, and the word's own bits in all the others. -/
theorem firstWord_reread (i : Instr) (w : Word) : (i.reread w).firstWord = i.row.value ||| (w &&& ~~~ i.row.mask) := by
  cases i
  all_goals
    simp only [Instr.reread, Instr.firstWord, encode, List.headD, formatR, formatI, formatP, formatC, formatG, formatX, formatQ,
      formatWide, formatNarrow, Instr.row, dField, aField, bField, offField, imm16Field, hBits_toFin, fieldAt_selBits_selField,
      ordBits_ordField, fieldAt_extractLsb', fieldAt_zero, BitVec.or_assoc, BitVec.or_zero, ← BitVec.and_or_distrib_left]
    simp [fieldAt, ← BitVec.or_assoc]

/-- The fields of an operation are read back from its first word. -/
theorem reread_firstWord (i : Instr) : i.reread i.firstWord = i := by
  cases i
  case selfn f => cases f <;> rfl
  case config d a bus mode ord wid =>
    have hord : ordField (Instr.config d a bus mode ord wid).firstWord = ord := by
      cases ord <;> simp [ordField, ordBits, Instr.firstWord, encode, formatG, fieldAt]
    rw [Instr.reread, hord]
    simp [Instr.firstWord, encode, formatG, dField, aField, toFin_hBits, BitVec.extractLsb'_or, extractLsb'_fieldAt_same,
      extractLsb'_fieldAt_above, extractLsb'_fieldAt_below]
  all_goals
    simp [Instr.reread, Instr.firstWord, encode, formatR, formatI, formatP, formatC, formatX, formatQ, formatWide, formatNarrow, dField,
      aField, bField, offField, imm16Field, toFin_hBits, BitVec.extractLsb'_or, extractLsb'_fieldAt_same, extractLsb'_fieldAt_above,
      extractLsb'_fieldAt_below]

/-! ### Words that a row admits -/

theorem Row.admits_iff {r : Row} {w : Word} : r.admits w = true ↔ w &&& r.mask = r.value := by
  simp [Row.admits]

theorem row_admits_firstWord : ∀ i : Instr, i.row.admits i.firstWord = true
  | .rd d off => (Laws.EncodingRow.rd d off).1
  | .wr off a => (Laws.EncodingRow.wr off a).1
  | .rdm d off b => (Laws.EncodingRow.rdm d off b).1
  | .wrm off a b => (Laws.EncodingRow.wrm off a b).1
  | .wait off a b => (Laws.EncodingRow.wait off a b).1
  | .li d imm => (Laws.EncodingRow.li d imm).1
  | .rsta => Laws.EncodingRow.rsta.1
  | .rstr => Laws.EncodingRow.rstr.1
  | .rstw => Laws.EncodingRow.rstw.1
  | .sell => Laws.EncodingRow.sell.1
  | .selh => Laws.EncodingRow.selh.1
  | .selfn f => (Laws.EncodingRow.selfn f).1
  | .delay n => (Laws.EncodingRow.delay n).1
  | .halt => Laws.EncodingRow.halt.1
  | .encw d a => (Laws.EncodingRow.encw d a).1
  | .encn d a => (Laws.EncodingRow.encn d a).1
  | .decw d a b => (Laws.EncodingRow.decw d a b).1
  | .decn d a => (Laws.EncodingRow.decn d a).1
  | .config d a bus mode ord wid => (Laws.EncodingRow.config d a bus mode ord wid).1
  | .xfer d a n => (Laws.EncodingRow.xfer d a n).1
  | .readch d a => (Laws.EncodingRow.readch d a).1
  | .mcpCmdWide ch => (Laws.EncodingRow.mcpCmdWide ch).1
  | .mcpCmdNarrow ch => (Laws.EncodingRow.mcpCmdNarrow ch).1

/-- A word that a row admits is the encoding of its own fields. -/
theorem firstWord_reread_of_admits {i : Instr} {w : Word} (h : i.row.admits w = true) : (i.reread w).firstWord = w := by
  rw [firstWord_reread, ← Row.admits_iff.mp h, ← BitVec.and_or_distrib_left, BitVec.or_not_self, BitVec.and_allOnes]

/-- Every row's mask covers the operation code. -/
theorem opcField_of_admits {i : Instr} {w : Word} (h : i.row.admits w = true) : opcField w = opcField i.row.value := by
  have hmask : i.row.mask.extractLsb' 26 6 = BitVec.allOnes 6 := by cases i <;> simp [Instr.row]
  rw [← Row.admits_iff.mp h, opcField, opcField, BitVec.extractLsb'_and, hmask, BitVec.and_allOnes]

/-- Read from a word, an operation is well-formed unless it is an `XFER` whose count or ranges are illegal (R62). -/
theorem wellFormed_reread_iff {i : Instr} {w : Word} : (i.reread w).WellFormed ↔ (i.row = (Instr.xfer 0 0 1).row →
    1 ≤ (w.extractLsb' 16 4).toNat ∧ (w.extractLsb' 16 4).toNat ≤ 8 ∧ (aField w).val + (w.extractLsb' 16 4).toNat ≤ 8
      ∧ (dField w).val + (w.extractLsb' 16 4).toNat ≤ 8) := by
  cases i with
  | xfer => simp [Instr.WellFormed, Instr.reread, Instr.wellFormed, xferLegal, Instr.row, and_assoc]
  | _ => simp [Instr.WellFormed, Instr.reread, Instr.wellFormed, Instr.row]

/-! ### One word or two -/

theorem length_eq_one_or_li (i : Instr) : i.length = 1 ∨ ∃ d imm, i = .li d imm := by
  cases i with
  | li d imm => exact .inr ⟨d, imm, rfl⟩
  | _ => exact .inl rfl

theorem encode_of_length_one {i : Instr} (h : i.length = 1) : encode i = [i.firstWord] := by
  cases i with
  | li => cases h
  | _ => rfl

theorem opcField_ne_li_of_admits {i : Instr} {w : Word} (hl : i.length = 1) (h : i.row.admits w = true) : opcField w ≠ 0x06 := by
  rw [opcField_of_admits h]
  cases i with
  | li => cases hl
  | _ => simp [Instr.row, opcField]

/-! ### What the decoder makes of a word that a row admits -/

/-- A word that the row of a one-word operation admits decodes to that row's operation with the word's fields, unless that is an `XFER`
outside its ranges (R60, R62). -/
theorem decodeWord_of_admits {i : Instr} {w : Word} (hi : i.isHostOp = true) (hl : i.length = 1) (h : i.row.admits w = true) :
    decodeWord w = if (i.reread w).wellFormed then .ok (i.reread w) else .error .illegalXferCount := by
  have hopc := opcField_of_admits h
  rw [← row_reread i w] at h
  cases i with
  | mcpCmdWide | mcpCmdNarrow => cases hi
  | li => cases hl
  | xfer =>
    simp_all [decodeWord, Instr.row, opcField, acceptXfer, acceptRow, Instr.reread, Instr.wellFormed]
    rfl
  | _ => simp_all [decodeWord, Instr.row, opcField, acceptRow, Instr.reread, Instr.wellFormed]

/-- `decode` of a word that is no `LI` is `decodeWord` of it, and the words after it are left (R61). -/
theorem decode_cons {w : Word} (h : opcField w ≠ 0x06) (rest : List Word) :
    decode (w :: rest) = (decodeWord w).map (·, rest) := by
  unfold decode
  simp only [if_neg h]
  cases decodeWord w <;> rfl

/-- `decode` of an `LI` takes the word after it as the immediate (R61). -/
theorem decode_li {d : HIdx} {imm w : Word} (h : (Instr.li d imm).row.admits w = true) (imm' : Word) (rest : List Word) :
    decode (w :: imm' :: rest) = .ok (.li (dField w) imm', rest) := by
  have hrow : (Instr.li (dField w) 0).row.admits w = true := h
  have hopc : opcField w = 0x06 := (opcField_of_admits h).trans (by decide : opcField 0x18000000 = 0x06)
  unfold decode
  simp only [if_pos hopc, acceptRow, if_pos hrow]

/-- Operation code 0 is reserved (R60, R63). -/
theorem decode_reserved {w : Word} (h : opcField w = 0) (rest : List Word) : decode (w :: rest) = .error .reservedOpcode := by
  rw [decode_cons (by rw [h]; decide), decodeWord, h]
  rfl

/-- Settles O2: the row of an operation admits its first word, from which the decoder reads the operation's own fields. -/
theorem decodeOfEncode : Obligations.DecodeOfEncode := by
  intro i rest hhost hwf
  have hadm := row_admits_firstWord i
  have hread := reread_firstWord i
  obtain hl | ⟨d, imm, rfl⟩ := length_eq_one_or_li i
  · rw [encode_of_length_one hl, List.singleton_append, decode_cons (opcField_ne_li_of_admits hl hadm),
      decodeWord_of_admits hhost hl hadm, hread, if_pos hwf]
    rfl
  · rw [Instr.reread] at hread
    exact (decode_li hadm imm rest).trans (by rw [hread])

/-- Settles O4: the two answers of `decodeWord_of_admits`, whose condition is `wellFormed_reread_iff`. -/
theorem admittedWordsDecode : Obligations.AdmittedWordsDecode := by
  intro w imm i hhost hadm
  have hwf := wellFormed_reread_iff (i := i) (w := w)
  obtain hl | ⟨d, imm', rfl⟩ := length_eq_one_or_li i
  · have hdec := decode_cons (opcField_ne_li_of_admits hl hadm) [imm]
    rw [decodeWord_of_admits hhost hl hadm] at hdec
    dsimp only
    split_ifs with hx
    · rw [hdec, if_neg fun h => hx.2 (hwf.mp h hx.1)]
      rfl
    · rw [hdec, if_pos (hwf.mpr fun hrow => by_contra fun hn => hx ⟨hrow, hn⟩)]
      exact ⟨_, _, rfl, row_reread i w⟩
  · exact ⟨_, _, decode_li hadm imm [], rfl⟩

/-! ### What was read from a word -/

/-- The operation was read from the word: it is a well-formed host operation, its row admits the word, and its fields are the word's. -/
structure Instr.ReadFrom (i : Instr) (w : Word) : Prop where
  isHostOp : i.isHostOp = true
  wellFormed : i.WellFormed
  admits : i.row.admits w = true
  reread : i.reread w = i

theorem Instr.ReadFrom.firstWord_eq {i : Instr} {w : Word} (h : i.ReadFrom w) : i.firstWord = w := by
  rw [← h.reread, firstWord_reread_of_admits h.admits]

theorem acceptRow_admits {w : Word} {i j : Instr} (h : acceptRow w i = .ok j) : i.row.admits w = true := by
  unfold acceptRow at h
  split at h <;> cases h
  assumption

theorem acceptRow_readFrom {w : Word} {i j : Instr} (h : acceptRow w i = .ok j) (hhost : i.isHostOp = true) (hwf : i.WellFormed)
    (hread : i.reread w = i) : j.ReadFrom w := by
  rw [Machine.acceptRow_ok h]
  exact ⟨hhost, hwf, acceptRow_admits h, hread⟩

theorem acceptXfer_readFrom {w : Word} {j : Instr} (h : acceptXfer w (dField w) (aField w) (w.extractLsb' 16 4) = .ok j) :
    j.ReadFrom w := by
  unfold acceptXfer at h
  split at h
  · cases h
  · split at h <;> cases h
    exact acceptRow_readFrom ‹_› rfl ‹_› rfl

theorem decodeWord_readFrom {w : Word} {i : Instr} (h : decodeWord w = .ok i) : i.ReadFrom w := by
  unfold decodeWord at h
  split at h
  case h_19 => exact acceptXfer_readFrom h
  case h_21 => cases h
  all_goals exact acceptRow_readFrom h rfl rfl rfl

theorem decodeWord_length {w : Word} {i : Instr} (h : decodeWord w = .ok i) : i.length = 1 := by
  unfold decodeWord at h
  split at h
  case h_19 => rw [Machine.acceptXfer_ok h]; rfl
  case h_21 => cases h
  all_goals rw [Machine.acceptRow_ok h]; rfl

/-- Settles O3: what decodes was read from its word, and so encodes to it. -/
theorem encodeOfDecode : Obligations.EncodeOfDecode := by
  intro w ws rest i h
  suffices i.ReadFrom w ∧ encode i ++ rest = w :: ws from ⟨this.1.isHostOp, this.1.wellFormed, this.1.admits, this.2⟩
  unfold decode at h
  dsimp only at h
  split at h
  · split at h <;> cases h
    next _ imm hrow =>
      have hread : Instr.ReadFrom (.li (dField w) imm) w := ⟨rfl, rfl, acceptRow_admits (i := .li (dField w) 0) hrow, rfl⟩
      exact ⟨hread, congrArg (· :: _) hread.firstWord_eq⟩
  · split at h <;> cases h
    next hdec =>
      have hread := decodeWord_readFrom hdec
      exact ⟨hread, by rw [encode_of_length_one (decodeWord_length hdec), hread.firstWord_eq]; rfl⟩

/-! ### The rows of the opcode map -/

/-- The rows of the opcode map and of the two wire words (R60, R202, R203). -/
def opcodeRows : List Row :=
  [.rd 0 0, .wr 0 0, .rdm 0 0 0, .wrm 0 0 0, .wait 0 0 0, .li 0 0, .rsta, .rstr, .rstw, .sell, .selh, .selfn .gpio, .delay 0,
    .halt, .encw 0 0, .encn 0 0, .decw 0 0 0, .decn 0 0, .config 0 0 0 0 .msbFirst 0, .xfer 0 0 0, .readch 0 0,
    .mcpCmdWide 0, .mcpCmdNarrow 0].map Instr.row

theorem row_mem_opcodeRows (i : Instr) : i.row ∈ opcodeRows := by
  cases i <;> simp [opcodeRows, Instr.row]

/-- Two different rows ask for different values of a bit that both fix. -/
theorem opcodeRows_conflict : ∀ r ∈ opcodeRows, ∀ r' ∈ opcodeRows, r.value &&& r'.mask = r'.value &&& r.mask → r = r' := by
  decide

/-- Settles O5: two rows that admit one word agree on the bits that both fix, and different rows do not. -/
theorem opcodeRowsDisjoint : Obligations.OpcodeRowsDisjoint := by
  intro i j w hi hj
  refine opcodeRows_conflict _ (row_mem_opcodeRows i) _ (row_mem_opcodeRows j) ?_
  rw [← Row.admits_iff.mp hi, ← Row.admits_iff.mp hj, BitVec.and_assoc, BitVec.and_assoc, BitVec.and_comm i.row.mask]

/-- Settles O1: the decoder evaluated on each of the listed words. -/
theorem specWordsDecode : Obligations.SpecWordsDecode := by
  unfold Obligations.SpecWordsDecode
  and_intros <;> rfl

/-! ### The wire words -/

theorem decodeWire_wide (ch : BitVec 3) : decodeWire (Instr.mcpCmdWide ch).firstWord = .ok (.mcpCmdWide ch) :=
  (if_pos (row_admits_firstWord (.mcpCmdWide ch))).trans (congrArg _ (reread_firstWord (.mcpCmdWide ch)))

theorem decodeWire_narrow (ch : BitVec 3) : decodeWire (Instr.mcpCmdNarrow ch).firstWord = .ok (.mcpCmdNarrow ch) := by
  have hadm := row_admits_firstWord (.mcpCmdNarrow ch)
  have hwide : ¬ (Instr.mcpCmdWide 0).row.admits (Instr.mcpCmdNarrow ch).firstWord = true := fun h =>
    absurd (opcodeRowsDisjoint (.mcpCmdWide 0) (.mcpCmdNarrow 0) _ h hadm) (by decide)
  exact (if_neg hwide).trans ((if_pos hadm).trans (congrArg _ (reread_firstWord (.mcpCmdNarrow ch))))

/-- Settles O6: the wire words' fields are read back as those of every row are, and their operation code is the reserved 0. -/
theorem wireWordsEncode : Obligations.WireWordsEncode := by
  intro ch
  refine ⟨?_, ?_, decodeWire_wide ch, decodeWire_narrow ch, ?_, ?_⟩
  · simp [encode, formatWide, fieldAt]
  · simp [encode, formatNarrow, fieldAt, BitVec.or_comm]
  · have hopc := opcField_of_admits (row_admits_firstWord (.mcpCmdWide ch))
    exact decode_reserved (hopc.trans (by decide : opcField 0x180 = 0)) []
  · have hopc := opcField_of_admits (row_admits_firstWord (.mcpCmdNarrow ch))
    exact decode_reserved (hopc.trans (by decide : opcField 0x30 = 0)) []

end Sys2Proof
end

section
/-! The fetch of what is no operation (30_encoding.md R63, 41_platform_ports.md R93): a missing or illegal word is a recorded
`IllegalOperation`. -/

namespace Sys2Proof.Machine

theorem acceptRow_error {w : Word} {i : Instr} {e : Reject} (h : acceptRow w i = .error e) : e = .mustBeZero := by
  unfold acceptRow at h
  split at h <;> cases h
  rfl

theorem acceptXfer_error {w : Word} {d a : HIdx} {n : BitVec 4} {e : Reject} (h : acceptXfer w d a n = .error e) :
    e = .mustBeZero ∨ e = .illegalXferCount := by
  unfold acceptXfer at h
  split at h
  · cases h; exact .inl (acceptRow_error ‹_›)
  · split at h <;> cases h
    exact .inr rfl

theorem decodeWord_error {w : Word} {e : Reject} (h : decodeWord w = .error e) :
    e = .reservedOpcode ∨ e = .mustBeZero ∨ e = .illegalXferCount := by
  unfold decodeWord at h
  split at h
  case h_19 => exact .inr (acceptXfer_error h)
  case h_21 => cases h; exact .inl rfl
  all_goals exact .inr (.inl (acceptRow_error h))

/-- Only a program position without a word is refused for want of one. -/
theorem decode_cons_ne_noWord (w : Word) (ws : List Word) : decode (w :: ws) ≠ .error .noWord := by
  intro h
  unfold decode at h
  dsimp only at h
  split at h
  · split at h <;> cases h
    cases acceptRow_error ‹_›
  · split at h <;> cases h
    obtain he | he | he := decodeWord_error ‹_› <;> cases he

theorem fetch_missing {s : State} (h : s.prog.length ≤ s.pc) : s.fetch = .error (.illegalOperation s.pc none) := by
  rw [State.fetch, List.drop_eq_nil_of_le h]
  rfl

theorem fetch_illegal {s : State} {w : Word} {ws : List Word} {e : Reject} (hdrop : s.prog.drop s.pc = w :: ws)
    (hdec : decode (w :: ws) = .error e) (he : e ≠ .missingImmediate) : s.fetch = .error (.illegalOperation s.pc (some w)) := by
  have hw : s.prog[s.pc]? = some w := by rw [← List.head?_drop, hdrop]; rfl
  rw [State.fetch, hdrop, hdec, hw]
  cases e with
  | noWord => exact absurd hdec (decode_cons_ne_noWord w ws)
  | missingImmediate => exact absurd rfl he
  | _ => rfl

theorem hostStep_of_fetch_error {s : State} {k : FaultKind} (hh : s.halted = false) (hc : s.cursor = none) (h : s.fetch = .error k) :
    s.hostStep = .next (s.recorded .host k) := by
  rw [State.hostStep, if_neg (by simp [hh]), hc, h]
  rfl

/-- Settles O10: on the host's turn the fetch fails, with the missing word or the illegal one, and the fault is recorded. -/
theorem illegalWordFaults : Obligations.IllegalWordFaults := by
  intro s hf hc hm hh hcur
  have hturn : step s = s.afterTurn.hostStep := by rw [step_eq_moverStep hf hc, hm]; rfl
  have hfault {k : FaultKind} (hk : s.fetch = .error k) : step s = .next (s.afterTurn.recorded .host k) :=
    hturn.trans (hostStep_of_fetch_error (s := s.afterTurn) hh hcur hk)
  exact ⟨fun hlen => hfault (fetch_missing hlen), fun w ws e hdrop hdec hne => hfault (fetch_illegal hdrop hdec hne)⟩

end Sys2Proof.Machine
end

section
/-! The MCP3208 on the wire (30_encoding.md R202, R203, 60_exceptions.md R163 to R169): what the device sees of a command and what the block
receives of its reply. -/

namespace Sys2Proof.Machine

/-! ### Bits and numbers -/

theorem bitsToNat_concat (bs : List Bool) (b : Bool) : bitsToNat (bs ++ [b]) = 2 * bitsToNat bs + b.toNat := by
  simp [bitsToNat]

/-- More bits after those read so far: the number read moves up by as many places. -/
theorem bitsToNat_append (as bs : List Bool) : bitsToNat (as ++ bs) = bitsToNat as * 2 ^ bs.length + bitsToNat bs := by
  induction bs using List.reverseRecOn with
  | nil => simp [bitsToNat]
  | append_singleton bs b ih =>
    rw [← List.append_assoc, bitsToNat_concat, bitsToNat_concat, ih, List.length_append, List.length_singleton, pow_succ]
    ring

theorem bitsToNat_lt (bs : List Bool) : bitsToNat bs < 2 ^ bs.length := by
  induction bs using List.reverseRecOn with
  | nil => simp [bitsToNat]
  | append_singleton bs b ih =>
    have hb := Bool.toNat_le b
    rw [bitsToNat_concat, List.length_append, List.length_singleton, pow_succ]
    omega

/-- The low bits of a word, most significant first, form its number. -/
theorem bitsToNat_range_getLsbD {m : Nat} (w : BitVec m) (n : Nat) :
    bitsToNat ((List.range n).map fun i => w.getLsbD (n - 1 - i)) = w.toNat % 2 ^ n := by
  induction n with
  | zero => simp [bitsToNat, Nat.mod_one]
  | succ n ih =>
    have htail : (fun i => w.getLsbD (n + 1 - 1 - i)) ∘ Nat.succ = fun i => w.getLsbD (n - 1 - i) :=
      funext fun i => congrArg w.getLsbD (by simp only [Nat.succ_eq_add_one]; omega)
    rw [List.range_succ_eq_map, List.map_cons, List.map_map, htail, ← List.singleton_append, bitsToNat_append, ih, Nat.mod_pow_succ,
      ← Nat.toNat_testBit]
    simp [bitsToNat, BitVec.getLsbD, Nat.mul_comm, Nat.add_comm]

/-! ### The device's edges -/

theorem edges_cons (d : Dev) (e : Env) (x : Bool) (xs : List Bool) : d.edges e (x :: xs) =
    ((d.edge x e).1 :: ((d.edge x e).2.1.edges (d.edge x e).2.2 xs).1, ((d.edge x e).2.1.edges (d.edge x e).2.2 xs).2) := rfl

theorem edges_append (d : Dev) (e : Env) (xs ys : List Bool) : d.edges e (xs ++ ys) =
    ((d.edges e xs).1 ++ ((d.edges e xs).2.1.edges (d.edges e xs).2.2 ys).1, ((d.edges e xs).2.1.edges (d.edges e xs).2.2 ys).2) := by
  induction xs generalizing d e with
  | nil => rfl
  | cons x xs ih => simp only [List.cons_append, edges_cons, ih]

theorem edges_length (d : Dev) (e : Env) (xs : List Bool) : (d.edges e xs).1.length = xs.length := by
  induction xs generalizing d e with
  | nil => rfl
  | cons x xs ih => simp [Dev.edges, ih]

/-- Before the start bit the device counts edges (R164). -/
theorem edges_idle (n k : Nat) (e : Env) : ∃ e', e'.samples = e.samples ∧
    ((Dev.sel k none none [] none).edges e (List.replicate n false)).2 = (.sel (k + n) none none [] none, e') := by
  induction n generalizing k e with
  | zero => exact ⟨e, rfl, rfl⟩
  | succ n ih =>
    obtain ⟨e', hs, heq⟩ := ih (k + 1) e.bump
    refine ⟨e', hs, heq.trans ?_⟩
    rw [Nat.add_right_comm, Nat.add_assoc]

theorem converts_of_samples {e e' : Env} {ch : BitVec 3} {v : BitVec 12} (hs : e'.samples = e.samples) (h : e'.Converts ch v) :
    e.Converts ch v := by
  unfold Env.Converts at h ⊢
  rwa [hs] at h

theorem converts_drawSample (e : Env) (ch : BitVec 3) : e.Converts ch (e.drawSample ch true).1 := by
  cases hs : e.samples with
  | nil => simp only [Env.Converts, Env.drawSample, hs]; exact ⟨_, rfl⟩
  | cons x xs => simp only [Env.Converts, Env.drawSample, hs]

/-- The edge of the start bit. -/
theorem edge_start (k : Nat) (m : Option Bool) (ds : List Bool) (v : Option (BitVec 12)) (e : Env) :
    (Dev.sel k none m ds v).edge true e = (Config.freeBit e.draws, .sel (k + 1) (some (k + 1)) m ds v, e.bump) := rfl

/-- The edge of the mode bit. -/
theorem edge_mode {k s : Nat} (hk : k = s) (m : Option Bool) (ds : List Bool) (v : Option (BitVec 12)) (x : Bool) (e : Env) :
    (Dev.sel k (some s) m ds v).edge x e = (Config.freeBit e.draws, .sel (k + 1) (some s) (some x) ds v, e.bump) := by
  simp [Dev.edge, outputBit, latchBit, Env.drawBit, hk]

/-- The edges of the first two channel bits. -/
theorem edge_channel {k s : Nat} (hk : k = s + 1 ∨ k = s + 2) (m : Option Bool) (ds : List Bool) (v : Option (BitVec 12)) (x : Bool)
    (e : Env) : (Dev.sel k (some s) m ds v).edge x e = (Config.freeBit e.draws, .sel (k + 1) (some s) m (ds ++ [x]) v, e.bump) := by
  obtain rfl | rfl := hk <;> simp [Dev.edge, outputBit, latchBit, Env.drawBit]

/-- The edge of the last channel bit. -/
theorem edge_convert {k s : Nat} (hk : k = s + 3) (sgl : Bool) (ds : List Bool) (v : Option (BitVec 12)) (x : Bool) (e : Env) :
    (Dev.sel k (some s) (some sgl) ds v).edge x e =
      let sample := e.bump.drawSample (BitVec.ofNat 3 (bitsToNat (ds ++ [x]))) sgl
      (Config.freeBit e.draws, .sel (k + 1) (some s) (some sgl) (ds ++ [x]) (some sample.1), sample.2) := by
  simp [Dev.edge, outputBit, latchBit, Env.drawBit, hk]

/-- The edge between the last channel bit and the null bit. -/
theorem edge_sample {k s : Nat} (hk : k = s + 4) (m : Option Bool) (ds : List Bool) (v : Option (BitVec 12)) (x : Bool) (e : Env) :
    (Dev.sel k (some s) m ds v).edge x e = (Config.freeBit e.draws, .sel (k + 1) (some s) m ds v, e.bump) := by
  simp [Dev.edge, outputBit, latchBit, Env.drawBit, hk]

/-- The edge of the null bit. -/
theorem edge_null {k s : Nat} (hk : k = s + 5) (m : Option Bool) (ds : List Bool) (v : Option (BitVec 12)) (x : Bool) (e : Env) :
    (Dev.sel k (some s) m ds v).edge x e = (false, .sel (k + 1) (some s) m ds v, e) := by
  simp [Dev.edge, outputBit, latchBit, hk]

/-- The edge of bit `11 - j` of the conversion value. -/
theorem edge_value {k s j : Nat} (hk : k = s + 6 + j) (hj : j < 12) (m : Option Bool) (ds : List Bool) (v : BitVec 12) (x : Bool)
    (e : Env) : (Dev.sel k (some s) m ds (some v)).edge x e = (v.getLsbD (11 - j), .sel (k + 1) (some s) m ds (some v), e) := by
  obtain ⟨hmode, hd2, hd1, hd0⟩ : k ≠ s ∧ k ≠ s + 1 ∧ k ≠ s + 2 ∧ k ≠ s + 3 := by omega
  obtain ⟨hnull, hfirst, hlast, hbit⟩ : k ≠ s + 5 ∧ s + 6 ≤ k ∧ k ≤ s + 17 ∧ k - (s + 6) = j := by omega
  simp [Dev.edge, outputBit, latchBit, hmode, hd2, hd1, hd0, hnull, hfirst, hlast, hbit]

/-- The start bit, the mode bit and the channel, most significant bit first: at the last of them the device converts (R164). -/
theorem edges_start (k : Nat) (ch : BitVec 3) (e : Env) : ∃ v, e.Converts ch v ∧
    ((Dev.sel k none none [] none).edges e [true, true, ch.getLsbD 2, ch.getLsbD 1, ch.getLsbD 0, false]).2.1 =
      .sel (k + 6) (some (k + 1)) (some true) [ch.getLsbD 2, ch.getLsbD 1, ch.getLsbD 0] (some v) := by
  have hch : BitVec.ofNat 3 (bitsToNat [ch.getLsbD 2, ch.getLsbD 1, ch.getLsbD 0]) = ch := by revert ch; decide
  refine ⟨_, converts_of_samples (e' := e.bump.bump.bump.bump.bump) rfl (converts_drawSample _ ch), ?_⟩
  simp (disch := omega) only [edge_start, edge_mode, edge_channel, edge_convert, edge_sample, List.nil_append,
    List.cons_append, hch, Dev.edges]

/-- The edges from bit `11 - j` of the conversion value on (R166). -/
theorem edges_value (s : Nat) (m : Option Bool) (ds : List Bool) (v : BitVec 12) (e : Env) (xs : List Bool) {k j : Nat}
    (hk : k = s + 6 + j) (h : j + xs.length ≤ 12) : (Dev.sel k (some s) m ds (some v)).edges e xs =
      ((List.range xs.length).map fun i => v.getLsbD (11 - (j + i)), .sel (k + xs.length) (some s) m ds (some v), e) := by
  induction xs generalizing k j with
  | nil => rfl
  | cons x xs ih =>
    rw [List.length_cons] at h
    rw [edges_cons, edge_value hk (by omega), ih (j := j + 1) (by omega) (by omega), List.length_cons, List.range_succ_eq_map]
    simp [Nat.add_assoc, Nat.add_comm 1]

/-- The reply: the null bit and the bits of the conversion value, most significant first (R166). -/
theorem edges_reply (s : Nat) (m : Option Bool) (ds : List Bool) (v : BitVec 12) (e : Env) (x : Bool) (xs : List Bool)
    (h : xs.length ≤ 12) : (Dev.sel (s + 5) (some s) m ds (some v)).edges e (x :: xs) =
      (false :: (List.range xs.length).map fun i => v.getLsbD (11 - i), .sel (s + 6 + xs.length) (some s) m ds (some v), e) := by
  rw [edges_cons, edge_null rfl, edges_value (j := 0) s m ds v e xs rfl (by omega)]
  simp only [Nat.zero_add]

/-- A command for a channel in single-ended mode, after `n` zero bits, up to the edge before the null bit (R202, R203). -/
def commandBits (n : Nat) (ch : BitVec 3) : List Bool :=
  List.replicate n false ++ [true, true, ch.getLsbD 2, ch.getLsbD 1, ch.getLsbD 0, false]

/-- A command sent to a device just selected: the wire returns bits of no meaning, then the reply (R164, R166). -/
theorem edges_command (n : Nat) (ch : BitVec 3) (e : Env) (x : Bool) (xs : List Bool) (h : xs.length ≤ 12) :
    ∃ bs v e', bs.length = n + 6 ∧ e.Converts ch v ∧
      Dev.fresh.edges e (commandBits n ch ++ x :: xs) =
        (bs ++ false :: (List.range xs.length).map fun i => v.getLsbD (11 - i),
          .sel (n + 7 + xs.length) (some (n + 1)) (some true) [ch.getLsbD 2, ch.getLsbD 1, ch.getLsbD 0] (some v), e') := by
  obtain ⟨e1, hs, hidle⟩ := edges_idle n 0 e
  obtain ⟨v, hconv, hstart⟩ := edges_start n ch e1
  have hcommand : (Dev.fresh.edges e (commandBits n ch)).2.1 =
      .sel (n + 1 + 5) (some (n + 1)) (some true) [ch.getLsbD 2, ch.getLsbD 1, ch.getLsbD 0] (some v) := by
    rw [commandBits, edges_append, Dev.fresh, hidle, Nat.zero_add]
    exact hstart
  refine ⟨(Dev.fresh.edges e (commandBits n ch)).1, v, (Dev.fresh.edges e (commandBits n ch)).2.2, ?_, converts_of_samples hs hconv, ?_⟩
  · simp [edges_length, commandBits]
  · rw [edges_append, hcommand, edges_reply _ _ _ _ _ _ _ h]

/-! ### A frame that sends a word -/

theorem frameCheck_of_canSend {b : Block} (h : b.CanSend) : b.frameCheck = none := by
  obtain ⟨-, -, -, hms, hpre, hdss, hfrf, hlbm⟩ := h
  have hloop : (b.lbm && decide (b.frf = 2#2)) = false := by simpa using hlbm
  have hformat : b.frf ≠ 3#2 := hfrf
  simp [Block.frameCheck, hms, Nat.not_lt.mpr hpre, Nat.not_lt.mpr hdss, hformat, hloop]

/-- A word sent in a clean frame, not in loopback, with room for the reply: what the device returns is received, and the device is as the
frame leaves it (42_serial_engine.md R103, R111, 60_exceptions.md R168, R169). -/
theorem sendWord_clean {s : State} {w : Word} {miso : List Bool} {d : Dev} {e : Env} (hsend : s.block.CanSend)
    (hlbm : s.block.lbm = false) (hroom : s.block.rxq.length < 8) (hdev : s.params.devicePresent = true)
    (hclean : s.block.cleanFrame = true) (hwire : s.devBefore.edges s.env (s.block.frameBits (w.setWidth 16)) = (miso, d, e)) :
    s.sendWord w = { s with
      block := { s.block with rxq := s.block.rxq ++ [s.block.receivedWord miso] }, dev := s.devAfter d, env := e } := by
  have hframe : s.sendWord w = s.sendFrame (w.setWidth 16) := by
    have hcheck : Block.frameCheck { s.block with txq := w.setWidth 16 :: s.block.txq } = none := frameCheck_of_canSend hsend
    obtain ⟨hin, hack, hsse, -⟩ := hsend
    have henabled : (s.block.outOfReset && s.block.sse) = true := by simp [Block.outOfReset, hin, hack, hsse]
    rw [State.sendWord, State.frameStep]
    refine (if_pos henabled).trans ?_
    simp only [hcheck]
  rw [hframe, State.sendFrame]
  simp only [State.wireFrame, hdev, hclean, hwire, hlbm, receive_eq, if_pos hroom]
  rfl

theorem frameBits_wideCommand {b : Block} (hdss : b.dss = 9) (hfrf : b.frf = 0) (ch : BitVec 3) :
    b.frameBits ((wideCommand (ch.setWidth 32)).setWidth 16) = commandBits 1 ch ++ [false, false, false] := by
  simp only [Block.frameBits, hfrf, Block.width, hdss]
  revert ch; decide

theorem frameBits_narrowCommand {b : Block} (hdss : b.dss = 11) (hfrf : b.frf = 2) (ch : BitVec 3) :
    b.frameBits ((narrowCommand (ch.setWidth 32)).setWidth 16) = commandBits 2 ch ++ false :: List.replicate 12 false := by
  simp only [Block.frameBits, hfrf, Block.width, hdss]
  revert ch; decide

/-! ### The words received -/

/-- Seven bits of no meaning, the null bit and the value's top two bits, as a word. -/
theorem receivedBits_wide {bs : List Bool} (hlen : bs.length = 7) (v : BitVec 12) : ∃ x : BitVec 7,
    BitVec.ofNat 16 (bitsToNat (bs ++ false :: (List.range 2).map fun i => v.getLsbD (11 - i))) =
      (x.setWidth 16 <<< 3) ||| (v.extractLsb' 10 2).setWidth 16 := by
  have hreply : bitsToNat (false :: (List.range 2).map fun i => v.getLsbD (11 - i)) = (v.extractLsb' 10 2).toNat := by
    have h := bitsToNat_range_getLsbD (v.extractLsb' 10 2) 2
    rw [Nat.mod_eq_of_lt (v.extractLsb' 10 2).isLt] at h
    rw [← h]
    simp [List.range_succ, bitsToNat]
  have hbits : bitsToNat (bs ++ false :: (List.range 2).map fun i => v.getLsbD (11 - i)) =
      bitsToNat bs <<< 3 + (v.extractLsb' 10 2).toNat := by
    rw [bitsToNat_append, hreply, Nat.shiftLeft_eq]
    rfl
  have hx : bitsToNat bs < 2 ^ 7 := hlen ▸ bitsToNat_lt bs
  have hv := (v.extractLsb' 10 2).isLt
  have hor := Nat.shiftLeft_add_eq_or_of_lt (show (v.extractLsb' 10 2).toNat < 2 ^ 3 by omega) (bitsToNat bs)
  refine ⟨BitVec.ofNat 7 (bitsToNat bs), BitVec.eq_of_toNat_eq ?_⟩
  rw [hbits]
  simp (disch := omega) only [BitVec.toNat_ofNat, BitVec.toNat_or, BitVec.toNat_shiftLeft, BitVec.toNat_setWidth, Nat.mod_eq_of_lt, ← hor]

theorem receivedBits_narrow {bs : List Bool} (hlen : bs.length = 8) (v : BitVec 12) :
    BitVec.ofNat 16 (bitsToNat ((bs ++ false :: (List.range 12).map fun i => v.getLsbD (11 - i)).drop 9)) = v.setWidth 16 := by
  have hdrop (reply : List Bool) : (bs ++ false :: reply).drop 9 = reply := by
    rw [List.drop_append, hlen, List.drop_eq_nil_of_le (by omega)]
    rfl
  rw [hdrop, bitsToNat_range_getLsbD v 12, Nat.mod_eq_of_lt v.isLt]
  exact BitVec.ofNat_toNat 16 v

/-- Settles O44: the frame is one zero bit, the command and the three edges of the null bit and the value's top two. -/
theorem wideCommandReachesDevice : Obligations.WideCommandReachesDevice := by
  intro s ch hsend hlbm hdss hfrf hclock hroom hdev hsel hfresh
  have hclean : s.block.cleanFrame = true := by simp [Block.cleanFrame, Block.samplesRising, hfrf, hclock]
  have hbefore : s.devBefore = .fresh := by rw [State.devBefore, hsel]; exact hfresh
  obtain ⟨bs, v, e, hlen, hconv, hwire⟩ := edges_command 1 ch s.env false [false, false] (by decide)
  obtain ⟨x, hword⟩ := receivedBits_wide hlen v
  rw [← frameBits_wideCommand hdss hfrf, ← hbefore] at hwire
  refine ⟨v, x, e, hconv, ?_⟩
  rw [exec, execMcpCmdWide, sendWord_clean hsend hlbm hroom hdev hclean hwire, ← hword]
  simp only [Block.receivedWord, Block.sampledBits, hfrf, State.devAfter, hsel]
  rfl

/-- Settles O45: the frame is two zero bits, the command and the thirteen edges of the null bit and the value; the block samples the last
twelve. -/
theorem narrowCommandReturnsConversion : Obligations.NarrowCommandReturnsConversion := by
  intro s ch hsend hlbm hdss hfrf hroom hdev hsel
  have hclean : s.block.cleanFrame = true := by simp [Block.cleanFrame, Block.samplesRising, hfrf]
  have hbefore : s.devBefore = .fresh := by simp [State.devBefore, hsel, hfrf]
  obtain ⟨bs, v, e, hlen, hconv, hwire⟩ := edges_command 2 ch s.env false (List.replicate 12 false) (by decide)
  rw [← frameBits_narrowCommand hdss hfrf, ← hbefore] at hwire
  refine ⟨v, e, hconv, ?_⟩
  rw [exec, execMcpCmdNarrow, sendWord_clean hsend hlbm hroom hdev hclean hwire, ← receivedBits_narrow hlen v]
  simp only [Block.receivedWord, Block.sampledBits, hfrf, State.devAfter, hsel]
  rfl

end Sys2Proof.Machine
end

section
/-! Faults are precise (40_register_access.md R82, 60_exceptions.md R161): the effects of the host add no fault record, so a record comes
from the end of the host step only. -/

namespace Sys2Proof.Machine

theorem configStart_keeps {d a : HIdx} {bus mode : BitVec 2} {ord : BitOrder} {wid : BitVec 5} {s u : State}
    (h : configStart d a bus mode ord wid s = .ok u) : Keeps s u := by
  obtain ⟨b, -, h⟩ := bind_ok h
  obtain ⟨r, -, h⟩ := bind_ok h
  cases h; exact Keeps.rfl.toStep _ _

theorem xferStart_keeps {d a : HIdx} {n : BitVec 4} {s u : State} (h : xferStart d a n s = .ok u) : Keeps s u := by
  unfold xferStart at h
  split at h
  · obtain ⟨tx, -, h⟩ := bind_ok h
    cases h; exact Keeps.rfl.toStep _ _
  · cases h

theorem readchStart_keeps {d a : HIdx} {s u : State} (h : readchStart d a s = .ok u) : Keeps s u := by
  obtain ⟨ch, -, h⟩ := bind_ok h
  split at h
  · cases h
  · split at h <;> cases h
    exact Keeps.rfl.toStep _ _

/-- A host step whose effect adds no fault record either adds none or is the recorded state. -/
theorem finish_precise {s t : State} {e : Eff State} (he : ∀ u, e = .ok u → u.faults = s.faults) (h : finish s e = .next t) :
    t.faults = s.faults ∨ ∃ k, t = s.recorded .host k := by
  obtain h | ⟨-, rfl⟩ | ⟨k, -, rfl⟩ := finish_next h
  · exact .inl (he t h)
  · exact .inl rfl
  · exact .inr ⟨k, rfl⟩

theorem exec_precise {i : Instr} {s t : State} (hhost : i.isHostOp = true) (h : exec i s = .next t) :
    t.faults = s.faults ∨ ∃ k, t = s.recorded .host k := by
  cases i
  case mcpCmdWide | mcpCmdNarrow => cases hhost
  case halt | li | delay => cases h; exact .inl rfl
  case rsta => cases h; exact .inl (assertReset_keeps s).faults
  case rstr => cases h; exact .inl (releaseReset_keeps s).faults
  case sell | selh => cases h; exact .inl (driveSelect_keeps s _).faults
  case selfn => cases h; exact .inl (setSelfn_keeps s _).faults
  all_goals refine finish_precise (fun u hu => ?_) h
  case config => exact (configStart_keeps hu).faults
  case xfer => exact (xferStart_keeps hu).faults
  case readch => exact (readchStart_keeps hu).faults
  case rstw => split at hu <;> cases hu; rfl
  case encw | encn | decn | decw =>
    obtain ⟨v, -, hu⟩ := bind_ok hu
    cases hu; rfl
  case rd =>
    obtain ⟨p, hp, hu⟩ := bind_ok hu
    cases hu; exact (readEffect_keeps hp).faults
  all_goals
    obtain ⟨x, -, hu⟩ := bind_ok hu
    obtain ⟨p, hp, hu⟩ := bind_ok hu
  case wr => cases hu; exact (writeEffect_keeps hp).faults
  case wrm => cases hu; exact (maskedWriteEffect_keeps hp).faults
  case rdm => cases hu; exact (maskedReadEffect_keeps hp).faults
  case wait =>
    dsimp only at hu
    split at hu <;> cases hu
    exact (maskedReadEffect_keeps hp).faults

/-- Settles O13: no effect of the host adds a record, so only `finish` does, which raises the fault at the state it was given. -/
theorem faultsArePrecise : Obligations.FaultsArePrecise := fun _ _ =>
  ⟨fun _ hhost h => exec_precise hhost h, fun _ h => finish_precise (fun _ hu => (compositeStep_keeps hu).faults) h⟩

end Sys2Proof.Machine
end

section
/-! Register access (40_register_access.md R64 to R81): what the five operations that access a register come to once the access check has
answered, and what each register's read and write rule makes of them. -/

namespace Sys2Proof.Machine

/-! ### The operations on a register that the access check lets them reach -/

theorem ok_bind {α β : Type} (a : α) (f : α → Eff β) : ((.ok a : Eff α) >>= f) = f a := rfl

theorem Reg.readable_of_ne {r : Reg} (hicr : r ≠ .icr) : r.readable = true := bne_iff_ne.mpr hicr

theorem Reg.hasSideEffect_of_ne {r : Reg} (hicr : r ≠ .icr) (hdr : r ≠ .dr) : r.hasSideEffect = false := by
  simp [Reg.hasSideEffect, hdr, hicr]

theorem exec_rd {s : State} {off : Offset} {r : Reg} (h : s.Accessible off r) (hicr : r ≠ .icr) (d : HIdx) :
    exec (.rd d off) s = .next (((s.regRead r).2.setH d (s.regRead r).1).advance 1) := by
  have hcheck : s.accessCheck off .read = .ok r := accessCheck_of h (Reg.readable_of_ne hicr) nofun
  rw [exec, execRd, State.readEffect, hcheck]
  rfl

theorem regRead_of_ne_dr (s : State) {r : Reg} (hdr : r ≠ .dr) : s.regRead r = s.readPlain r := if_neg hdr

theorem maskedReadEffect_of {s : State} {off : Offset} {r : Reg} (h : s.Accessible off r) (hicr : r ≠ .icr) (hdr : r ≠ .dr)
    (m : Word) : s.maskedReadEffect off m = .ok ((s.readPlain r).1 &&& m, (s.readPlain r).2) := by
  have hcheck : s.accessCheck off .readNoSide = .ok r :=
    accessCheck_of h (Reg.readable_of_ne hicr) fun _ => Reg.hasSideEffect_of_ne hicr hdr
  rw [State.maskedReadEffect, hcheck, ok_bind, regRead_of_ne_dr s hdr]
  rfl

theorem exec_rdm {s : State} {off : Offset} {r : Reg} (h : s.Accessible off r) (hicr : r ≠ .icr) (hdr : r ≠ .dr) (d : HIdx)
    {b : HIdx} {m : Word} (hb : s.h[b] = .holds m) :
    exec (.rdm d off b) s = .next (((s.readPlain r).2.setH d ((s.readPlain r).1 &&& m)).advance 1) := by
  rw [exec, execRdm, readH_holds hb, ok_bind, maskedReadEffect_of h hicr hdr]
  rfl

theorem exec_wait {s : State} {off : Offset} {r : Reg} (h : s.Accessible off r) (hicr : r ≠ .icr) (hdr : r ≠ .dr) {a b : HIdx}
    {v m : Word} (ha : s.h[a] = .holds v) (hb : s.h[b] = .holds m) :
    exec (.wait off a b) s = .next (if (s.readPlain r).1 &&& m = v then (s.readPlain r).2.advance 1 else s) := by
  rw [exec, execWait, readH2_holds ha hb, ok_bind]
  dsimp only
  rw [maskedReadEffect_of h hicr hdr, ok_bind]
  dsimp only
  split <;> rfl

/-- The host step that writes `w` to the register `r` and goes on to the next word, as `WR` and `WRM` end. -/
def State.writeStep (s : State) (r : Reg) (w : Word) : Host.Outcome State Fault Refusal :=
  finish s do
    let s1 ← s.regWrite r w
    return s1.advance 1

theorem exec_wr {s : State} {off : Offset} {r : Reg} (h : s.Accessible off r) (hw : r.writable = true) {a : HIdx} {v : Word}
    (ha : s.h[a] = .holds v) : exec (.wr off a) s = s.writeStep r v := by
  have hcheck : s.accessCheck off .write = .ok r := accessCheck_of h hw nofun
  rw [exec, execWr, readH_holds ha, ok_bind, State.writeEffect, hcheck]
  rfl

theorem maskedWriteEffect_of {s : State} {off : Offset} {r : Reg} (h : s.Accessible off r) (hw : r.writable = true)
    (hside : r.hasSideEffect = false) (v m : Word) :
    s.maskedWriteEffect off v m = s.regWrite r ((s.regState r &&& ~~~m) ||| (v &&& m)) := by
  have hcheck : s.accessCheck off .writeNoSide = .ok r := accessCheck_of h hw fun _ => hside
  rw [State.maskedWriteEffect, hcheck, ok_bind]

theorem exec_wrm {s : State} {off : Offset} {r : Reg} (h : s.Accessible off r) (hw : r.writable = true)
    (hside : r.hasSideEffect = false) {a b : HIdx} {v m : Word} (ha : s.h[a] = .holds v) (hb : s.h[b] = .holds m) :
    exec (.wrm off a b) s = s.writeStep r ((s.regState r &&& ~~~m) ||| (v &&& m)) := by
  rw [exec, execWrm, readH2_holds ha hb, ok_bind]
  dsimp only
  rw [maskedWriteEffect_of h hw hside, State.writeStep]

/-! ### Reads -/

/-- What comes after a plain read has the register's value and the state as it was; with `RESERVED_READ = ANY` a word is drawn for the
value's reserved bits. -/
theorem readPlain_cases (s : State) (r : Reg) (g : Word → State → Host.Outcome State Fault Refusal) :
    (s.params.reservedRead = .zero → g (s.readPlain r).1 (s.readPlain r).2 = g (s.regState r) s) ∧
    (s.params.reservedRead = .any → ∃ x, g (s.readPlain r).1 (s.readPlain r).2 =
      g (s.regState r ||| (x &&& r.reservedMask)) { s with env := { s.env with draws := s.env.draws + 1 } }) := by
  refine ⟨fun hz => ?_, fun hany => ⟨Config.freeReserved s.env.draws, ?_⟩⟩
  · rw [State.readPlain, hz]
  · rw [State.readPlain, hany]; rfl

/-- Settles O14: `RD` ends in the register's plain read. -/
theorem rdReturnsRegister : Obligations.RdReturnsRegister := by
  intro s d off r h hicr hdr
  rw [exec_rd h hicr, regRead_of_ne_dr s hdr]
  exact readPlain_cases s r fun x t => .next ((t.setH d x).advance 1)

/-- Settles O22: `RDM` is the plain read under the mask. -/
theorem rdmReturnsMaskedRegister : Obligations.RdmReturnsMaskedRegister := by
  intro s d b off r m h hicr hdr hb
  rw [exec_rdm h hicr hdr d hb]
  exact readPlain_cases s r fun x t => .next ((t.setH d (x &&& m)).advance 1)

/-- Settles O24: `WAIT` compares the plain read under the mask, and discards the read's draw where it holds. -/
theorem waitHoldsUntilMatch : Obligations.WaitHoldsUntilMatch := by
  intro s a b off r v m h hicr hdr ha hb
  rw [exec_wait h hicr hdr ha hb]
  exact readPlain_cases s r fun x t => .next (if x &&& m = v then t.advance 1 else s)

/-- Settles O15: each offset is that of a stored or identification register, whose value is written out. -/
theorem storedRegisterValues : Obligations.StoredRegisterValues := by
  intro s d hz hin hdone
  have read {off : Offset} {r : Reg} (hat : regAt off = some r) (hicr : r ≠ .icr) (hdr : r ≠ .dr) :=
    (rdReturnsRegister s d off r ⟨hat, hin, hdone⟩ hicr hdr).1 hz
  simp only [List.forall_mem_cons]
  exact ⟨read (r := .cr0) rfl nofun nofun, read (r := .cr1) rfl nofun nofun, read (r := .cpsr) rfl nofun nofun,
    read (r := .imsc) rfl nofun nofun, read (r := .dmacr) rfl nofun nofun, read (r := .periphId0) rfl nofun nofun,
    read (r := .periphId1) rfl nofun nofun, read (r := .periphId2) rfl nofun nofun, read (r := .periphId3) rfl nofun nofun,
    read (r := .pcellId0) rfl nofun nofun, read (r := .pcellId1) rfl nofun nofun, read (r := .pcellId2) rfl nofun nofun,
    read (r := .pcellId3) rfl nofun nofun, List.forall_mem_nil _⟩

/-! ### Status and interrupt bits -/

theorem toNat_append_ofBool {n : Nat} (x : BitVec n) (b : Bool) : (x ++ BitVec.ofBool b).toNat = 2 * x.toNat + b.toNat := by
  have hb : b.toNat < 2 ^ 1 := b.toNat_lt
  rw [BitVec.toNat_append, BitVec.toNat_ofBool, ← Nat.shiftLeft_add_eq_or_of_lt hb, Nat.shiftLeft_eq, pow_one, mul_comm]

theorem isEmpty_eq_decide {α : Type} (q : List α) : q.isEmpty = decide (q.length = 0) := by
  cases q <;> simp

theorem not_isEmpty_eq_decide {α : Type} (q : List α) : (!q.isEmpty) = decide (0 < q.length) := by
  cases q <;> simp

/-- SSPSR as a number: the flags' weights added up (10_state.md R32). -/
theorem toNat_status (b : Block) : b.status.toNat =
    16 * (decide (0 < b.txq.length)).toNat + 8 * (decide (b.rxq.length = 8)).toNat + 4 * (decide (0 < b.rxq.length)).toNat
      + 2 * (decide (b.txq.length < 8)).toNat + (decide (b.txq.length = 0)).toNat := by
  have hbsy : b.bsy = decide (0 < b.txq.length) := not_isEmpty_eq_decide b.txq
  have hrff : b.rff = decide (b.rxq.length = 8) := rfl
  have hrne : b.rne = decide (0 < b.rxq.length) := not_isEmpty_eq_decide b.rxq
  have htnf : b.tnf = decide (b.txq.length < 8) := rfl
  have htfe : b.tfe = decide (b.txq.length = 0) := isEmpty_eq_decide b.txq
  simp only [Block.status, toNat_append_ofBool, BitVec.toNat_ofBool, hbsy, hrff, hrne, htnf, htfe]
  omega

theorem txris_eq (b : Block) : b.txris = decide (b.txq.length ≤ 4) := rfl

theorem rxris_eq (b : Block) : b.rxris = decide (4 ≤ b.rxq.length) := rfl

/-- SSPRIS as a number. -/
theorem toNat_rawInterrupts (b : Block) : b.rawInterrupts.toNat =
    8 * (decide (b.txq.length ≤ 4)).toNat + 4 * (decide (4 ≤ b.rxq.length)).toNat + 2 * b.rtLatch.toNat + b.rorLatch.toNat := by
  simp only [Block.rawInterrupts, toNat_append_ofBool, BitVec.toNat_ofBool, txris_eq, rxris_eq]
  omega

/-- Settles O16: the three registers are flags of the FIFOs and latches, read as numbers. -/
theorem computedRegisterValues : Obligations.ComputedRegisterValues := by
  intro s d hz hin hdone sr ris
  have read {off : Offset} {r : Reg} {v : Word} (hat : regAt off = some r) (hicr : r ≠ .icr) (hdr : r ≠ .dr)
      (hv : s.regState r = v) := hv ▸ (rdReturnsRegister s d off r ⟨hat, hin, hdone⟩ hicr hdr).1 hz
  have hsr : s.regState .sr = sr := by
    rw [State.regState, ← BitVec.ofNat_toNat, toNat_status]
  have hris : s.regState .ris = ris := by
    rw [State.regState, ← BitVec.ofNat_toNat, toNat_rawInterrupts]
  have hmis : s.regState .mis = ris &&& s.block.imsc.setWidth 32 := by
    rw [← hris]; exact BitVec.setWidth_and
  exact ⟨read rfl nofun nofun hsr, read rfl nofun nofun hris, read rfl nofun nofun hmis⟩

/-- Settles O17: `RD` of SSPDR is the popping read, not a plain one. -/
theorem dataReadPopsReceiveFifo : Obligations.DataReadPopsReceiveFifo := by
  intro s d hin hdone
  rw [exec_rd (r := .dr) ⟨rfl, hin, hdone⟩ nofun, State.regRead, if_pos rfl, State.readData]
  refine ⟨fun w ws hq => ?_, fun hq => ?_⟩
  · rw [hq]; rfl
  · rw [hq]; exact ⟨_, rfl⟩

/-! ### Writes -/

/-- Settling the select line after an update of the block is the device's update. -/
theorem settleSelect_block (s : State) (b : Block) : s.settleSelect { s with block := b } =
    { s with block := b, dev := s.devAt (State.deviceCs { s with block := b }) } :=
  State.settleSelect_eq s _ rfl rfl

/-- An update of the block that leaves `fss` at its level leaves the device alone. -/
theorem settleSelect_block_same {s : State} {b : Block} (h : b.fssIdle = s.block.fssIdle) :
    s.settleSelect { s with block := b } = { s with block := b } := by
  have hcs : State.deviceCs { s with block := b } = s.deviceCs := by
    rw [State.deviceCs, State.deviceCs, h]
  rw [settleSelect_block, hcs, State.devAt_same]

theorem writeStep_cr0 (s : State) (w : Word) : s.writeStep .cr0 w =
    .next (if s.block.sse = true then s.recorded .host (.configWhileEnabled 0x000)
      else { s with block := { s.block with cr0 := w.setWidth 16 }, pc := s.pc + 1 }) := by
  rw [State.writeStep, State.regWrite]
  split
  · rfl
  case isFalse hsse =>
    have hidle : Block.fssIdle { s.block with cr0 := w.setWidth 16 } = s.block.fssIdle := by
      have hsse' : Block.sse { s.block with cr0 := w.setWidth 16 } = s.block.sse := rfl
      simp [Block.fssIdle, hsse', hsse]
    rw [settleSelect_block_same hidle]
    rfl

theorem writeStep_cr1 (s : State) (w : Word) : s.writeStep .cr1 w =
    .next (if s.block.sse = true ∧ (w.setWidth 4).getLsbD 2 ≠ s.block.ms then s.recorded .host (.configWhileEnabled 0x004)
      else { s with
        block := { s.block with cr1 := w.setWidth 4 }, pc := s.pc + 1
        dev := s.devAt (State.deviceCs { s with block := { s.block with cr1 := w.setWidth 4 } }) }) := by
  rw [State.writeStep, State.regWrite, settleSelect_block, BitVec.getLsbD_setWidth]
  simp only [Nat.reduceLT, decide_true, Bool.true_and, Bool.and_eq_true, bne_iff_ne]
  split <;> rfl

theorem writeStep_dr (s : State) (w : Word) : s.writeStep .dr w =
    .next (if 8 ≤ s.block.txq.length then s.recorded .host .txOverflow
      else { s with block := { s.block with txq := s.block.txq ++ [w.setWidth 16] }, pc := s.pc + 1 }) := by
  rw [State.writeStep, State.regWrite]
  split <;> rfl

theorem writeStep_cpsr (s : State) (w : Word) : s.writeStep .cpsr w =
    .next (if s.block.sse = true then s.recorded .host (.configWhileEnabled 0x010)
      else { s with block := { s.block with cpsdvsr := w.setWidth 8 &&& 0xFE }, pc := s.pc + 1 }) := by
  rw [State.writeStep, State.regWrite]
  split <;> rfl

theorem writeStep_imsc (s : State) (w : Word) : s.writeStep .imsc w =
    .next { s with block := { s.block with imsc := w.setWidth 4 }, pc := s.pc + 1 } := rfl

theorem writeStep_icr (s : State) (w : Word) : s.writeStep .icr w =
    .next { s with block := s.block.clearLatches w, pc := s.pc + 1 } := rfl

theorem writeStep_dmacr (s : State) (w : Word) : s.writeStep .dmacr w =
    .next { s with block := { s.block with dmacr := w.setWidth 2 }, pc := s.pc + 1 } := rfl

/-- Settles O18: `WR` is the write step of SSPCR0 and of SSPCPSR. -/
theorem writeFormatAndDivider : Obligations.WriteFormatAndDivider := by
  intro s a v hin hdone ha
  rw [exec_wr (r := .cr0) ⟨rfl, hin, hdone⟩ rfl ha, exec_wr (r := .cpsr) ⟨rfl, hin, hdone⟩ rfl ha]
  exact ⟨writeStep_cr0 s v, writeStep_cpsr s v⟩

/-- Settles O19: `WR` is the write step of SSPCR1. -/
theorem writeControl1 : Obligations.WriteControl1 := by
  intro s a v hin hdone ha
  rw [exec_wr (r := .cr1) ⟨rfl, hin, hdone⟩ rfl ha, writeStep_cr1, BitVec.getLsbD_setWidth]
  rfl

/-- Settles O20: `WR` is the write step of SSPDR, and a FIFO of at most 8 words is full at 8. -/
theorem writeDataPushesTransmitFifo : Obligations.WriteDataPushesTransmitFifo := by
  intro s a v hin hdone ha hlen
  have hfull : 8 ≤ s.block.txq.length ↔ s.block.txq.length = 8 := ⟨hlen.antisymm, ge_of_eq⟩
  rw [exec_wr (r := .dr) ⟨rfl, hin, hdone⟩ rfl ha, writeStep_dr]
  simp only [hfull]

/-! ### Interrupt and data-request outputs -/

theorem getLsbD_append_ofBool : ∀ a b c d : Bool,
    let x := BitVec.ofBool a ++ BitVec.ofBool b ++ BitVec.ofBool c ++ BitVec.ofBool d
    x.getLsbD 3 = a ∧ x.getLsbD 2 = b ∧ x.getLsbD 1 = c ∧ x.getLsbD 0 = d := by
  decide

/-- The flags of SSPRIS by bit (40_register_access.md R74). -/
theorem getLsbD_rawInterrupts (b : Block) : b.rawInterrupts.getLsbD 3 = b.txris ∧ b.rawInterrupts.getLsbD 2 = b.rxris ∧
    b.rawInterrupts.getLsbD 1 = b.rtLatch ∧ b.rawInterrupts.getLsbD 0 = b.rorLatch :=
  getLsbD_append_ofBool b.txris b.rxris b.rtLatch b.rorLatch

/-- An interrupt output is its bit of SSPRIS under SSPIMSC, out of the reset input (42_serial_engine.md R115). -/
theorem maskedOutput_iff {b : Block} {i : Nat} {flag : Bool} (h : b.rawInterrupts.getLsbD i = flag) :
    (!b.inReset && b.maskedInterrupts.getLsbD i) = true ↔ b.inReset = false ∧ b.imsc.getLsbD i = true ∧ flag = true := by
  rw [Block.maskedInterrupts, BitVec.getLsbD_and, h, Bool.and_comm flag]
  simp only [Bool.and_eq_true, Bool.not_eq_true']

theorem dreqTx_iff (b : Block) : b.dreqTx = true ↔ b.inReset = false ∧ b.dmacr.getLsbD 1 = true ∧ b.txq.length < 8 := by
  simp [Block.dreqTx, and_assoc]

theorem dreqRx_iff (b : Block) : b.dreqRx = true ↔ b.inReset = false ∧ b.dmacr.getLsbD 0 = true ∧ 0 < b.rxq.length := by
  simp [Block.dreqRx, and_assoc]

/-- A latch is cleared by a 1 in its bit of the written word (40_register_access.md R80). -/
theorem clearLatches_eq (b : Block) (w : Word) : b.clearLatches w =
    { b with
      rtLatch := if w.getLsbD 1 = true then false else b.rtLatch
      rorLatch := if w.getLsbD 0 = true then false else b.rorLatch } := by
  unfold Block.clearLatches
  cases w.getLsbD 1 <;> cases w.getLsbD 0 <;> simp

/-- Settles O21: the write steps of the three registers, and what each output computes. -/
theorem writeInterruptAndRequestRegisters : Obligations.WriteInterruptAndRequestRegisters := by
  refine ⟨fun s a v hin hdone ha => ?_, fun b => ?_⟩
  · rw [exec_wr (r := .imsc) ⟨rfl, hin, hdone⟩ rfl ha, exec_wr (r := .dmacr) ⟨rfl, hin, hdone⟩ rfl ha,
      exec_wr (r := .icr) ⟨rfl, hin, hdone⟩ rfl ha, ← clearLatches_eq]
    refine ⟨writeStep_imsc s v, ⟨_, writeStep_dmacr s v, rfl, ?_, ?_⟩, writeStep_icr s v⟩
    · simp [dreqTx_iff, hin]
    · simp [dreqRx_iff, hin]
  · obtain ⟨htx, hrx, hrt, hror⟩ := getLsbD_rawInterrupts b
    refine ⟨?_, ?_, maskedOutput_iff hrt, maskedOutput_iff hror, rfl, dreqTx_iff b, dreqRx_iff b⟩
    · exact (maskedOutput_iff htx).trans (by rw [txris_eq, decide_eq_true_iff])
    · exact (maskedOutput_iff hrx).trans (by rw [rxris_eq, decide_eq_true_iff])

/-! ### Masked updates -/

/-- The low bits of a masked update are the masked update of the low bits. -/
theorem setWidth_maskedUpdate {n : Nat} (hn : n ≤ 32) (x : BitVec n) (v m : Word) :
    ((x.setWidth 32 &&& ~~~m) ||| (v &&& m)).setWidth n = (x &&& ~~~(m.setWidth n)) ||| ((v &&& m).setWidth n) := by
  rw [BitVec.setWidth_or, BitVec.setWidth_and, BitVec.setWidth_not hn, BitVec.setWidth_setWidth_of_le _ hn, BitVec.setWidth_eq]

/-- Stored bits outside `k` do not matter to a masked update that is then cut to `k`. -/
theorem maskedUpdate_and (k c m v : BitVec 8) : ((c &&& k &&& ~~~m) ||| v) &&& k = ((c &&& ~~~m) ||| v) &&& k := by
  rw [BitVec.and_or_distrib_right, BitVec.and_or_distrib_right, BitVec.and_assoc c, BitVec.and_comm k, ← BitVec.and_assoc c,
    BitVec.and_assoc (c &&& ~~~m), BitVec.and_self]

/-- Settles O23: `WRM` is the write step of the masked update, cut to the register's width. -/
theorem wrmUpdatesUnderMask : Obligations.WrmUpdatesUnderMask := by
  intro s a b v m hin hdone ha hb
  rw [exec_wrm (r := .cr0) ⟨rfl, hin, hdone⟩ rfl rfl ha hb, exec_wrm (r := .cpsr) ⟨rfl, hin, hdone⟩ rfl rfl ha hb,
    exec_wrm (r := .imsc) ⟨rfl, hin, hdone⟩ rfl rfl ha hb, exec_wrm (r := .dmacr) ⟨rfl, hin, hdone⟩ rfl rfl ha hb,
    exec_wrm (r := .cr1) ⟨rfl, hin, hdone⟩ rfl rfl ha hb, writeStep_cr0, writeStep_cpsr, writeStep_imsc, writeStep_dmacr,
    writeStep_cr1]
  simp only [State.regState, setWidth_maskedUpdate (by decide : 16 ≤ 32), setWidth_maskedUpdate (by decide : 8 ≤ 32),
    setWidth_maskedUpdate (by decide : 4 ≤ 32), setWidth_maskedUpdate (by decide : 2 ≤ 32), maskedUpdate_and, and_self]

/-! ### The access check's faults -/

theorem accessCheck_misaligned (s : State) {off : Offset} (h : off.toNat % 4 ≠ 0) (k : Access) :
    s.accessCheck off k = .error (.fault (.busError off .misaligned)) := if_pos h

theorem accessCheck_unmapped (s : State) {off : Offset} (ha : off.toNat % 4 = 0) (h : regAt off = none) (k : Access) :
    s.accessCheck off k = .error (.fault (.busError off .unmapped)) := by
  simp [State.accessCheck, ha, h]

/-- At a mapped offset three checks are left: the direction, the side effect, the reset. -/
theorem accessCheck_mapped (s : State) {off : Offset} {r : Reg} (h : regAt off = some r) (k : Access) : s.accessCheck off k =
    if k.directionOk r = false then .error (.fault (.busError off .direction))
    else if k.noSide = true ∧ r.hasSideEffect = true then .error (.fault (.busError off .sideEffect))
    else if s.block.inReset = true ∨ s.block.rstDone = false then .error (.fault (.inResetAccess off))
    else .ok r := by
  simp [State.accessCheck, regAt_aligned h, h, Block.outOfReset]

section
variable {s : State} {off : Offset} {r : Reg} {k : Access}

theorem accessCheck_direction (h : regAt off = some r) (hd : k.directionOk r = false) :
    s.accessCheck off k = .error (.fault (.busError off .direction)) := by
  rw [accessCheck_mapped s h, if_pos hd]

theorem accessCheck_sideEffect (h : regAt off = some r) (hd : k.directionOk r = true) (hk : k.noSide = true)
    (hs : r.hasSideEffect = true) : s.accessCheck off k = .error (.fault (.busError off .sideEffect)) := by
  rw [accessCheck_mapped s h, if_neg (by simp [hd]), if_pos ⟨hk, hs⟩]

theorem accessCheck_inReset (ho : s.block.inReset = true ∨ s.block.rstDone = false) (h : regAt off = some r)
    (hd : k.directionOk r = true) (hs : k.noSide = true → r.hasSideEffect = false) :
    s.accessCheck off k = .error (.fault (.inResetAccess off)) := by
  have hside : ¬ (k.noSide = true ∧ r.hasSideEffect = true) := fun ⟨hk, h⟩ => by simp [hs hk] at h
  rw [accessCheck_mapped s h, if_neg (by simp [hd]), if_neg hside, if_pos ho]

end

/-! ### Operations that the access check refuses -/

section
variable {s : State} {off : Offset} {f : FaultKind}

/-- An effect whose first part faults faults. -/
theorem bind_fault {α β : Type} {e : Eff α} (h : e = .error (.fault f)) (g : α → Eff β) : (e >>= g) = .error (.fault f) := by
  rw [h]; rfl

theorem exec_rd_refused (h : s.accessCheck off .read = .error (.fault f)) (d : HIdx) :
    exec (.rd d off) s = .next (s.recorded .host f) :=
  finish_bind_fault (bind_fault h _) _

theorem exec_wr_refused (h : s.accessCheck off .write = .error (.fault f)) {a : HIdx} {v : Word} (ha : s.h[a] = .holds v) :
    exec (.wr off a) s = .next (s.recorded .host f) := by
  rw [exec, execWr, readH_holds ha]
  exact finish_bind_fault (bind_fault h _) _

theorem exec_rdm_refused (h : s.accessCheck off .readNoSide = .error (.fault f)) {b : HIdx} {m : Word} (hb : s.h[b] = .holds m)
    (d : HIdx) : exec (.rdm d off b) s = .next (s.recorded .host f) := by
  rw [exec, execRdm, readH_holds hb]
  exact finish_bind_fault (bind_fault h _) _

theorem exec_wrm_refused (h : s.accessCheck off .writeNoSide = .error (.fault f)) {a b : HIdx} {v m : Word}
    (ha : s.h[a] = .holds v) (hb : s.h[b] = .holds m) : exec (.wrm off a b) s = .next (s.recorded .host f) := by
  rw [exec, execWrm, readH2_holds ha hb]
  exact finish_bind_fault (bind_fault h _) _

theorem exec_wait_refused (h : s.accessCheck off .readNoSide = .error (.fault f)) {a b : HIdx} {v m : Word}
    (ha : s.h[a] = .holds v) (hb : s.h[b] = .holds m) : exec (.wait off a b) s = .next (s.recorded .host f) := by
  rw [exec, execWait, readH2_holds ha hb]
  exact finish_bind_fault (bind_fault h _) _

end

/-- Settles O25: each operation's fault is that of the access check of its kind. -/
theorem accessCheckFaults : Obligations.AccessCheckFaults := by
  intro s d a b off v m ha hb reading writing masked raises readOnly
  have hreading {f : FaultKind} (h : ∀ k : Access, k.reads = true → s.accessCheck off k = .error (.fault f)) :
      ∀ x ∈ reading, raises f x := by
    simp only [reading, List.forall_mem_cons]
    exact ⟨exec_rd_refused (h _ rfl) d, exec_rdm_refused (h _ rfl) hb d, exec_wait_refused (h _ rfl) ha hb, List.forall_mem_nil _⟩
  have hwriting {f : FaultKind} (h : ∀ k : Access, k.reads = false → s.accessCheck off k = .error (.fault f)) :
      ∀ x ∈ writing, raises f x := by
    simp only [writing, List.forall_mem_cons]
    exact ⟨exec_wr_refused (h _ rfl) ha, exec_wrm_refused (h _ rfl) ha hb, List.forall_mem_nil _⟩
  have hall {f : FaultKind} (h : ∀ k : Access, s.accessCheck off k = .error (.fault f)) : ∀ x ∈ reading ++ writing, raises f x :=
    List.forall_mem_append.mpr ⟨hreading fun k _ => h k, hwriting fun k _ => h k⟩
  have hreadOnly (r : Reg) : r ∈ readOnly ↔ r.writable = false := by cases r <;> decide
  have hwritable {r : Reg} (h : r ∉ readOnly) : r.writable = true := by simpa [hreadOnly] using h
  refine ⟨fun hal => hall (accessCheck_misaligned s hal), fun hal hat => hall (accessCheck_unmapped s hal hat), fun hat => ?_,
    fun r hr hat => ?_, fun hat => ?_, fun hat => ?_, fun ho => ⟨fun r hat hicr => ?_, fun r hat hro => ?_, fun r hat hicr hdr => ?_,
      fun r hat hro hdr hicr => ?_⟩⟩
  · exact hreading fun k hk => accessCheck_direction hat (by simp [Access.directionOk, hk, Reg.readable])
  · exact hwriting fun k hk => accessCheck_direction hat (by simp [Access.directionOk, hk, (hreadOnly r).mp hr])
  · have hread := accessCheck_sideEffect (s := s) (k := .readNoSide) hat rfl rfl rfl
    have hwrite := accessCheck_sideEffect (s := s) (k := .writeNoSide) hat rfl rfl rfl
    simp only [masked, List.forall_mem_cons]
    exact ⟨exec_rdm_refused hread hb d, exec_wrm_refused hwrite ha hb, exec_wait_refused hread ha hb, List.forall_mem_nil _⟩
  · exact exec_wrm_refused (accessCheck_sideEffect hat rfl rfl rfl) ha hb
  · exact exec_rd_refused (accessCheck_inReset ho hat (Reg.readable_of_ne hicr) nofun) d
  · exact exec_wr_refused (accessCheck_inReset ho hat (hwritable hro) nofun) ha
  · have hread := accessCheck_inReset (k := .readNoSide) ho hat (Reg.readable_of_ne hicr) fun _ => Reg.hasSideEffect_of_ne hicr hdr
    exact ⟨exec_rdm_refused hread hb d, exec_wait_refused hread ha hb⟩
  · exact exec_wrm_refused (accessCheck_inReset ho hat (hwritable hro) fun _ => Reg.hasSideEffect_of_ne hicr hdr) ha hb

/-! ### LI -/

/-- The encoding of an `LI` without the word after it is refused for want of the immediate (R61, R69). -/
theorem decode_li_alone (d : HIdx) (imm : Word) : decode [(Instr.li d imm).firstWord] = .error .missingImmediate := by
  have hadm := row_admits_firstWord (.li d imm)
  have hrow : (Instr.li (dField (Instr.li d imm).firstWord) 0).row.admits (Instr.li d imm).firstWord = true := hadm
  have hopc : opcField (Instr.li d imm).firstWord = 0x06 := (opcField_of_admits hadm).trans (by decide : opcField 0x18000000 = 0x06)
  unfold decode
  simp only [if_pos hopc, acceptRow, if_pos hrow]

/-- Settles O27: without the word after it the `LI` is not fetched. -/
theorem liLoadsImmediate : Obligations.LiLoadsImmediate := by
  refine fun s d imm => ⟨rfl, fun hf hc hm hh hcur hdrop => ⟨none, ?_⟩⟩
  have hfetch : s.afterTurn.fetch = .error (.illegalOperation s.pc none) := by
    rw [State.fetch, State.afterTurn_prog, State.afterTurn_pc, hdrop, decode_li_alone]
  rw [step_eq_moverStep hf hc, hm]
  exact hostStep_of_fetch_error (s := s.afterTurn) hh hcur hfetch

end Sys2Proof.Machine
end

section
/-! The host's turn (41_platform_ports.md R93): what it runs in each of its three cases. -/

namespace Sys2Proof.Machine

theorem hostStep_of_halted {s : State} (hh : s.halted = true) : s.hostStep = .next s := if_pos hh

theorem hostStep_of_cursor {s : State} {c : Cursor} (hh : s.halted = false) (hc : s.cursor = some c) :
    s.hostStep = continueComposite c s := by
  rw [State.hostStep, if_neg (by simp [hh]), hc]

theorem hostStep_of_fetch_ok {s : State} {i : Instr} (hh : s.halted = false) (hc : s.cursor = none) (h : s.fetch = .ok i) :
    s.hostStep = exec i s := by
  rw [State.hostStep, if_neg (by simp [hh]), hc, h]

theorem fetch_of_decode {s : State} {i : Instr} {rest : List Word} (h : decode (s.prog.drop s.pc) = .ok (i, rest)) :
    s.fetch = .ok i := by
  rw [State.fetch, h]

/-- Settles O8: the host's turn is the host step after the turn is counted, in each of its three cases. -/
theorem stepRunsDecodedOperation : Obligations.StepRunsDecodedOperation := by
  intro s hf hc
  refine ⟨step_eq_moverStep hf hc, fun hm => ?_⟩
  have hturn : step s = s.afterTurn.hostStep := by rw [step_eq_moverStep hf hc, hm]; rfl
  refine ⟨hturn, fun hh => ?_, fun hh c hcur => ?_, fun hh hcur i rest hdec => ?_⟩
  · exact hturn.trans (hostStep_of_halted hh)
  · exact hturn.trans (hostStep_of_cursor hh hcur)
  · have hfetch : s.afterTurn.fetch = .ok i := fetch_of_decode hdec
    exact hturn.trans (hostStep_of_fetch_ok hh hcur hfetch)

end Sys2Proof.Machine
end

section
/-! The port operations (41_platform_ports.md R83 to R92): when the block holds its select line low, and what the reset handshake, the
select pin and its function make of the line the device sees (60_exceptions.md R165). -/

namespace Sys2Proof.Machine

/-! ### The level of `fss` between frames -/

theorem Block.fssIdle_eq (b : Block) :
    b.fssIdle = !decide (b.inReset = false ∧ b.rstDone = true ∧ b.sse = true ∧ b.frf = 1) := by
  simp [Block.fssIdle, Block.outOfReset, Bool.beq_eq_decide_eq, Bool.and_assoc]

theorem Block.fssIdle_eq_false_iff (b : Block) :
    b.fssIdle = false ↔ b.inReset = false ∧ b.rstDone = true ∧ b.sse = true ∧ b.frf = 1 := by
  rw [Block.fssIdle_eq, Bool.not_eq_false', decide_eq_true_iff]

theorem Block.fssIdle_of_disabled {b : Block} (h : b.sse = false) : b.fssIdle = true := by
  simp [Block.fssIdle, h]

/-- A block that is not out of reset is disabled, so the handshake does not move `fss`. -/
theorem Block.Inv.fssIdle_handshake {b : Block} (hb : b.Inv) (ho : b.outOfReset = false) (inReset rstDone : Bool) :
    Block.fssIdle { b with inReset := inReset, rstDone := rstDone } = b.fssIdle := by
  have hcr1 : b.cr1 = 0 := congrArg Block.cr1 (hb.quietInReset ho)
  have hsse : b.sse = false := by simp [Block.sse, hcr1]
  rw [Block.fssIdle_of_disabled hsse, Block.fssIdle_of_disabled (b := { b with inReset := inReset, rstDone := rstDone }) hsse]

/-! ### RSTA -/

/-- A select line that is high afterwards has turned the device off if it was low. -/
theorem State.devAt_high (s : State) :
    s.devAt true = if s.params.devicePresent = true ∧ s.deviceCs = false then .off else s.dev := by
  unfold State.devAt
  cases s.params.devicePresent <;> simp

/-- With the block in reset the device is turned off where it was the block that held the line low. -/
theorem State.devAt_reset (s : State) : s.devAt (State.deviceCs { s with block := Block.reset }) =
    if s.params.devicePresent = true ∧ s.selfn = .periph ∧ s.block.fssIdle = false then .off else s.dev := by
  cases hfn : s.selfn with
  | gpio =>
    have hbefore : s.deviceCs = s.gpioCs := by rw [State.deviceCs, hfn]
    change s.devAt s.gpioCs = _
    rw [← hbefore, State.devAt_same]
    simp
  | periph =>
    have hbefore : s.deviceCs = s.block.fssIdle := by rw [State.deviceCs, hfn]
    have hafter : Block.reset.fssIdle = true := Block.fssIdle_of_disabled (by decide)
    change s.devAt Block.reset.fssIdle = _
    rw [hafter, State.devAt_high, hbefore]
    simp

/-- Settles O28: the reset block holds its line high, so the device is turned off where the block held it low. -/
theorem rstaResetsBlock : Obligations.RstaResetsBlock := by
  intro s
  have hexec : exec .rsta s = .next (s.assertReset.advance 1) := rfl
  rw [hexec, State.assertReset, settleSelect_block, State.devAt_reset]
  simp only [Block.fssIdle_eq_false_iff]
  rfl

/-! ### RSTR, RSTW and the acknowledgement -/

theorem releaseReset_eq {s : State} (hb : s.block.Inv) :
    s.releaseReset = { s with block := { s.block with inReset := false } } := by
  apply settleSelect_block_same
  cases hin : s.block.inReset with
  | false => rw [← hin]
  | true => exact hb.fssIdle_handshake (by simp [Block.outOfReset, hin]) false s.block.rstDone

theorem resetCtlStep_eq {s : State} (hb : s.block.Inv) :
    s.resetCtlStep = if s.block.inReset = false ∧ s.block.rstDone = false then
      { s with block := { s.block with rstDone := true } } else s := by
  have hack : s.block.ackEnabled = true ↔ s.block.inReset = false ∧ s.block.rstDone = false := by simp [Block.ackEnabled]
  simp only [State.resetCtlStep, hack]
  split
  case isTrue h =>
    have ho : s.block.outOfReset = false := by simp [Block.outOfReset, h.2]
    exact settleSelect_block_same (hb.fssIdle_handshake ho s.block.inReset true)
  case isFalse => rfl

theorem exec_rstw (s : State) : exec .rstw s = .next (if s.block.rstDone = true then { s with pc := s.pc + 1 } else s) := by
  rw [exec, execRstw]
  split <;> rfl

/-- Settles O29: no step of the handshake moves the select line, so each changes the block's handshake bits only. -/
theorem resetReleaseAndAcknowledge : Obligations.ResetReleaseAndAcknowledge := by
  intro s hb
  refine ⟨?_, exec_rstw s, fun hf hc hm => ?_⟩
  · have hexec : exec .rstr s = .next (s.releaseReset.advance 1) := rfl
    rw [hexec, releaseReset_eq hb]
    rfl
  · have hturn : step s = .next s.afterTurn.resetCtlStep := by rw [step_eq_moverStep hf hc, hm]; rfl
    rw [hturn, resetCtlStep_eq (s := s.afterTurn) hb]
    rfl

/-! ### SELL, SELH and SELFN -/

theorem State.devDriven_low (s : State) : s.devDriven false =
    if s.params.devicePresent = true ∧ s.selfn = .gpio ∧ s.gpioCs = true then .sel 0 none none [] none else s.dev := by
  simp [State.devDriven]

theorem State.devDriven_high (s : State) : s.devDriven true =
    if s.params.devicePresent = true ∧ s.selfn = .gpio ∧ s.gpioCs = false then .off else s.dev := by
  simp [State.devDriven]

/-- Setting the pin's function sets it, and the device follows the line it then sees. -/
theorem setSelfn_eq (s : State) (f : SelFn) :
    s.setSelfn f = { s with selfn := f, dev := s.devAt (State.deviceCs { s with selfn := f }) } :=
  State.settleSelect_eq s _ rfl rfl

/-- Settles O30: `SELL` and `SELH` drive the pin, `SELFN` sets its function, and the device follows. -/
theorem selectLineMoves : Obligations.SelectLineMoves := by
  intro s f
  refine ⟨?_, ?_, ?_⟩
  · have hexec : exec .sell s = .next ((s.driveSelect false).advance 1) := rfl
    rw [hexec, driveSelect_eq, State.devDriven_low]
    rfl
  · have hexec : exec .selh s = .next ((s.driveSelect true).advance 1) := rfl
    rw [hexec, driveSelect_eq, State.devDriven_high]
    rfl
  · have hexec : exec (.selfn f) s = .next ((s.setSelfn f).advance 1) := rfl
    rw [hexec, setSelfn_eq, ← Block.fssIdle_eq]
    cases f <;> rfl

/-! ### DELAY and HALT -/

/-- Settles O31: `DELAY` is an advance of `pc`, `HALT` the halt alone. -/
theorem delayAndHalt : Obligations.DelayAndHalt := fun _ _ => ⟨rfl, rfl⟩

end Sys2Proof.Machine
end

section
/-! The Engine's turns (42_serial_engine.md R100 to R114, R122): when a frame faults, what a frame that may start sends and receives, the
two timeout steps, and what none of them writes. -/

namespace Sys2Proof.Machine

/-! ### The frame step -/

/-- The Engine's turn for a frame is the frame step, after the turn is counted. -/
theorem step_engineFrame {s : State} (hf : s.faults = []) (hc : s.checked = true) (hm : s.nextMover = .engineFrame) :
    step s = .next s.afterTurn.frameStep := by
  rw [step_eq_moverStep hf hc, hm]
  rfl

theorem Block.outOfReset_of_acknowledged {b : Block} (hin : b.inReset = false) (hack : b.rstDone = true) : b.outOfReset = true := by
  simp [Block.outOfReset, hin, hack]

section
variable {s : State} (ho : s.block.outOfReset = true) (hsse : s.block.sse = true)
include ho hsse

/-- A frame that is due and fails the check is a recorded fault (R104). -/
theorem frameStep_of_check_some {r : FrameReason} (htx : s.block.txq ≠ []) (hcheck : s.block.frameCheck = some r) :
    s.frameStep = s.recorded .engine (.invalidFrameConfig r) := by
  obtain ⟨hd, rest, htx⟩ := List.exists_cons_of_ne_nil htx
  simp only [State.frameStep, ho, hsse, Bool.and_self, if_pos, htx, hcheck]
  rfl

/-- A frame that is due and passes the check takes the head of the transmit FIFO (R103). -/
theorem frameStep_of_check_none {hd : Half} {rest : List Half} (htx : s.block.txq = hd :: rest) (hcheck : s.block.frameCheck = none) :
    s.frameStep = State.sendFrame { s with block := { s.block with txq := rest } } hd := by
  simp only [State.frameStep, ho, hsse, Bool.and_self, if_pos, htx, hcheck]

end

/-- Settles O46: the reasons of the statement are those of the frame check, in its order. -/
theorem frameCheckFaults : Obligations.FrameCheckFaults := by
  intro s hf hc hm hin hack hsse htx raises
  have ho := Block.outOfReset_of_acknowledged hin hack
  have hraises {r : FrameReason} (hcheck : s.block.frameCheck = some r) : raises r :=
    (step_engineFrame hf hc hm).trans (congrArg _ (frameStep_of_check_some (s := s.afterTurn) ho hsse htx hcheck))
  have hcheck : s.block.frameCheck = if s.block.ms = true then some .slave
      else if s.block.cpsdvsr.toNat < 2 then some .prescale
      else if s.block.dss.toNat < 3 then some .dss
      else if s.block.frf = 3 then some .frf
      else if s.block.lbm && s.block.frf = 2 then some .loopback else none := rfl
  split_ifs at hcheck ⊢ with hms hpre hdss hfrf hloop
  · exact hraises hcheck
  · exact hraises hcheck
  · exact hraises hcheck
  · exact hraises hcheck
  · exact fun _ _ => hraises hcheck
  · exact fun hlbm htwo => absurd hloop (by simp [hlbm, htwo])

/-! ### The bits of a frame -/

theorem drawBits_length (n : Nat) (e : Env) : (Env.drawBits n e).1.length = n := by
  induction n generalizing e with
  | zero => rfl
  | succ n ih => simp [Env.drawBits, ih]

/-- The wire returns a bit for each clock, clean frame or not, device or none (R112). -/
theorem wireFrame_length (s : State) (mosi : List Bool) : (s.wireFrame mosi).1.length = mosi.length := by
  unfold State.wireFrame
  split
  · exact drawBits_length _ _
  · split
    · exact edges_length _ _ _
    · exact drawBits_length _ _

theorem wordBits_length (w : Half) (n : Nat) : (wordBits w n).length = n := by simp [wordBits]

theorem bitsToNat_wordBits (w : Half) (n : Nat) : bitsToNat (wordBits w n) = w.toNat % 2 ^ n := bitsToNat_range_getLsbD w n

/-- Of the bits of a frame the block samples `DSS + 1`, in Microwire those after clock 9 (R103). -/
theorem sampledBits_length {b : Block} {hd : Half} {miso : List Bool} (h : miso.length = (b.frameBits hd).length) :
    (b.sampledBits miso).length = b.width := by
  by_cases hfrf : b.frf = 2#2
  · rw [Block.frameBits, if_pos hfrf, List.length_append, wordBits_length, List.length_replicate] at h
    rw [Block.sampledBits, if_pos hfrf, List.length_drop]
    omega
  · rw [Block.frameBits, if_neg hfrf, wordBits_length] at h
    rw [Block.sampledBits, if_neg hfrf, h]

/-- The word received has `DSS + 1` bits (R110). -/
theorem receivedWord_lt {b : Block} {hd : Half} {miso : List Bool} (h : miso.length = (b.frameBits hd).length) :
    (b.receivedWord miso).toNat < 2 ^ b.width := by
  have hbits := bitsToNat_lt (b.sampledBits miso)
  rw [sampledBits_length h] at hbits
  rw [Block.receivedWord, BitVec.toNat_ofNat]
  exact (Nat.mod_le _ _).trans_lt hbits

/-- In the Motorola and TI formats a frame's own bits are the low bits of its word (R102, R109). -/
theorem receivedWord_frameBits {b : Block} (hfrf : b.frf ≠ 2) (w : Half) :
    b.receivedWord (b.frameBits w) = BitVec.ofNat 16 (w.toNat % 2 ^ b.width) := by
  have hformat : b.frf ≠ 2#2 := hfrf
  rw [Block.receivedWord, Block.sampledBits, if_neg hformat, Block.frameBits, if_neg hformat, bitsToNat_wordBits]

/-- A word received once the word sent has left the transmit FIFO, with the receive FIFO within its depth (R111). -/
theorem receive_sent {b : Block} (h : b.rxq.length ≤ 8) (ws : List Half) (r : Half) : Block.receive { b with txq := ws } r =
    if b.rxq.length = 8 then { b with txq := ws, rorLatch := true } else { b with txq := ws, rxq := b.rxq ++ [r] } := by
  rw [receive_eq]
  by_cases hfull : b.rxq.length = 8
  · rw [if_pos hfull, if_neg (by dsimp only; omega)]
  · rw [if_neg hfull, if_pos (by dsimp only; omega)]

/-! ### Frames that may start -/

/-- A frame turn of a block that can send: a bit comes back for each clock, in loopback the bit sent, and the block receives the word they
form (R103, R109). -/
theorem step_sendsFrame {s : State} {w : Half} {ws : List Half} (hf : s.faults = []) (hc : s.checked = true)
    (hm : s.nextMover = .engineFrame) (hsend : s.block.CanSend) (htx : s.block.txq = w :: ws) :
    ∃ miso dev env, miso.length = (s.block.frameBits w).length ∧ (s.block.lbm = true → miso = s.block.frameBits w) ∧
      step s = .next { s with
        block := Block.receive { s.block with txq := ws } (s.block.receivedWord miso), dev := dev, env := env } := by
  have hcheck := frameCheck_of_canSend hsend
  obtain ⟨hin, hack, hsse, -⟩ := hsend
  have ho := Block.outOfReset_of_acknowledged hin hack
  rw [step_engineFrame hf hc hm, frameStep_of_check_none (s := s.afterTurn) ho hsse htx hcheck]
  refine ⟨if s.block.lbm then s.block.frameBits w else _, _, _, ?_, fun hlbm => if_pos hlbm, rfl⟩
  split
  · rfl
  · exact wireFrame_length _ _

/-- Settles O47: in loopback the bits that come back are those sent. -/
theorem loopbackFrame : Obligations.LoopbackFrame := by
  intro s w ws hf hc hm hsend hlbm htx hroom
  obtain ⟨miso, dev, env, -, hmiso, hstep⟩ := step_sendsFrame hf hc hm hsend htx
  obtain ⟨-, -, -, -, -, -, -, hfrf⟩ := hsend
  refine ⟨dev, env, hstep.trans ?_⟩
  rw [hmiso hlbm, receivedWord_frameBits (hfrf hlbm), receive_sent hroom]
  rfl

/-- Settles O48: as many bits come back as were sent, so the block samples `DSS + 1` of them. -/
theorem frameExchangesOneWord : Obligations.FrameExchangesOneWord := by
  intro s w ws hf hc hm hsend htx hroom
  obtain ⟨miso, dev, env, hlen, -, hstep⟩ := step_sendsFrame hf hc hm hsend htx
  refine ⟨s.block.receivedWord miso, dev, env, receivedWord_lt hlen, hstep.trans ?_⟩
  rw [receive_sent hroom]

/-! ### The command words -/

/-- The frame step with a wire word at the head of the transmit FIFO is that word sent with the rest of the FIFO behind it. -/
theorem step_sendsWord {s : State} {w : Word} {ws : List Half} (hf : s.faults = []) (hc : s.checked = true)
    (hm : s.nextMover = .engineFrame) (htx : s.block.txq = w.setWidth 16 :: ws) :
    step s = .next (State.sendWord w { s.afterTurn with block := { s.block with txq := ws } }) := by
  rw [step_engineFrame hf hc hm, State.sendWord, ← htx]
  rfl

theorem setWidth_wideCommand : ∀ ch : BitVec 3, (wideCommand (ch.setWidth 32)).setWidth 16 = 0x180 ||| (ch.setWidth 16 <<< 4) := by
  decide

theorem setWidth_narrowCommand : ∀ ch : BitVec 3, (narrowCommand (ch.setWidth 32)).setWidth 16 = (ch.setWidth 16 <<< 1) ||| 0x30 := by
  decide

/-- Settles O9: each of the two words of the statement is the low half of its command, which `exec` sends. -/
theorem stepSendsWireWord : Obligations.StepSendsWireWord := by
  intro s ch rest hf hc hm
  refine ⟨fun htx => ?_, fun htx => ?_⟩
  · rw [← setWidth_wideCommand] at htx
    exact step_sendsWord hf hc hm htx
  · rw [← setWidth_narrowCommand] at htx
    exact step_sendsWord hf hc hm htx

/-! ### The timeout steps -/

theorem timeoutEnabled_iff (b : Block) : b.timeoutEnabled = true ↔
    b.inReset = false ∧ b.rstDone = true ∧ b.rxq ≠ [] ∧ b.rtLatch = false ∧ (b.txq = [] ∨ b.sse = false) := by
  simp [Block.timeoutEnabled, Block.outOfReset, and_assoc]

theorem timeoutClearEnabled_iff (b : Block) : b.timeoutClearEnabled = true ↔ b.rxq = [] ∧ b.rtLatch = true := by
  simp [Block.timeoutClearEnabled]

/-- Settles O50: the two windows are those of the model's enabling conditions. -/
theorem timeoutLatch : Obligations.TimeoutLatch := by
  intro s hf hc
  refine ⟨fun hm => ?_, fun hm => ?_⟩
  · have hturn : step s = .next s.afterTurn.timeoutStep := by rw [step_eq_moverStep hf hc, hm]; rfl
    simp only [hturn, State.timeoutStep, timeoutEnabled_iff, State.afterTurn_block]
  · have hturn : step s = .next s.afterTurn.timeoutClearStep := by rw [step_eq_moverStep hf hc, hm]; rfl
    simp only [hturn, State.timeoutClearStep, timeoutClearEnabled_iff, State.afterTurn_block]

/-! ### What the Engine does not write -/

/-- `t` is `s` but for the FIFOs, the latches, the device, the environment and the fault record (R122). -/
def WritesFifosAndLatches (s t : State) : Prop :=
  ∃ txq rxq rt ror dev env faults halted, t = { s with
    block := { s.block with txq := txq, rxq := rxq, rtLatch := rt, rorLatch := ror }
    dev := dev, env := env, faults := faults, halted := halted }

theorem WritesFifosAndLatches.rfl {s : State} : WritesFifosAndLatches s s := ⟨_, _, _, _, _, _, _, _, .refl _⟩

/-- A frame writes the receive FIFO or the overrun latch. -/
theorem receive_writes (b : Block) (r : Half) : ∃ rxq ror, b.receive r = { b with rxq := rxq, rorLatch := ror } := by
  unfold Block.receive
  split
  · exact ⟨_, _, rfl⟩
  · exact ⟨_, _, rfl⟩

theorem frameStep_writesFifosAndLatches (s : State) : WritesFifosAndLatches s s.frameStep := by
  obtain heq | ⟨r, -, heq⟩ | ⟨hd, rest, -, -, -, -, heq⟩ := frameStep_cases s <;> rw [heq]
  · exact .rfl
  · exact ⟨_, _, _, _, _, _, _, _, rfl⟩
  · obtain ⟨r, dev, env, hsend⟩ := sendFrame_eq { s with block := { s.block with txq := rest } } hd
    obtain ⟨rxq, ror, hreceive⟩ := receive_writes { s.block with txq := rest } r
    rw [hsend, hreceive]
    exact ⟨_, _, _, _, _, _, _, _, rfl⟩

theorem timeoutStep_writesFifosAndLatches (s : State) : WritesFifosAndLatches s s.timeoutStep := by
  unfold State.timeoutStep
  split
  · exact ⟨_, _, _, _, _, _, _, _, rfl⟩
  · exact .rfl

theorem timeoutClearStep_writesFifosAndLatches (s : State) : WritesFifosAndLatches s s.timeoutClearStep := by
  unfold State.timeoutClearStep
  split
  · exact ⟨_, _, _, _, _, _, _, _, rfl⟩
  · exact .rfl

/-- Settles O49: each of the Engine's three steps writes the FIFOs, the latches, the device and the draws at most, or records a fault. -/
theorem engineWritesOnlyFifosAndLatches : Obligations.EngineWritesOnlyFifosAndLatches := by
  rintro s t m (rfl | rfl | rfl) hstep <;> cases hstep
  · exact frameStep_writesFifosAndLatches s
  · exact timeoutStep_writesFifosAndLatches s
  · exact timeoutClearStep_writesFifosAndLatches s

end Sys2Proof.Machine
end

section
/-! The two divider searches (42_serial_engine.md R118, R119): each finds a legal pair, and the least one of its kind. -/

namespace Sys2Proof.Machine

/-! ### The prescales -/

theorem mem_prescales {p : Nat} : p ∈ prescales ↔ p % 2 = 0 ∧ 2 ≤ p ∧ p ≤ 254 := by
  rw [prescales, List.mem_map]
  constructor
  · rintro ⟨i, hi, rfl⟩
    rw [List.mem_range] at hi
    omega
  · rintro ⟨heven, hlow, hhigh⟩
    exact ⟨p / 2 - 1, List.mem_range.mpr (by omega), by omega⟩

theorem pos_of_mem_prescales {p : Nat} (hp : p ∈ prescales) : 0 < p := by
  rw [mem_prescales] at hp
  omega

theorem prescales_ascending : prescales.Pairwise (· < ·) :=
  List.pairwise_map.mpr (List.pairwise_lt_range.imp fun h => by omega)

/-- The first prescale that meets a condition is the smallest that does. -/
theorem find?_prescales_le {f : Nat → Bool} {p q : Nat} (h : prescales.find? f = some p) (hq : q ∈ prescales) (hf : f q = true) :
    p ≤ q := by
  obtain ⟨-, before, after, heq, hbefore⟩ := List.find?_eq_some_iff_append.mp h
  have hsorted := prescales_ascending
  rw [heq] at hq hsorted
  obtain hq | hq := List.mem_append.mp hq
  · exact absurd hf (by simpa using hbefore q hq)
  · obtain ⟨-, hsorted, -⟩ := List.pairwise_append.mp hsorted
    obtain rfl | hq := List.mem_cons.mp hq
    · exact le_rfl
    · exact (List.rel_of_pairwise_cons hsorted hq).le

/-- A search of the prescales that some prescale satisfies finds the smallest that does. -/
theorem exists_find?_prescales {f : Nat → Bool} {q : Nat} (hq : q ∈ prescales) (hf : f q = true) :
    ∃ p, prescales.find? f = some p ∧ p ∈ prescales ∧ f p = true ∧ ∀ q ∈ prescales, f q = true → p ≤ q := by
  obtain ⟨p, hp⟩ := Option.isSome_iff_exists.mp (List.find?_isSome.mpr ⟨q, hq, hf⟩)
  exact ⟨p, hp, List.mem_of_find?_eq_some hp, List.find?_some hp, fun _ => find?_prescales_le hp⟩

/-! ### `CLOSEST` -/

/-- The model's rounded-up quotient is the library's `⌈/⌉`, so it is the least count of `k` that reaches `a`. -/
theorem add_pred_div_le_iff {a k n : Nat} (hk : 0 < k) : (a + k - 1) / k ≤ n ↔ a ≤ k * n :=
  ceilDiv_le_iff_le_mul hk

/-- A member of `Prod` (R118): the product of a prescale and a second divisor. -/
def IsProduct (n : Nat) : Prop := ∃ p ∈ prescales, ∃ d, 1 ≤ d ∧ d ≤ 256 ∧ n = p * d

theorem leastProduct_eq_some {need p n : Nat} (hp : 0 < p) (h : leastProduct need p = some n) :
    need ≤ n ∧ ∃ d, 1 ≤ d ∧ d ≤ 256 ∧ n = p * d := by
  dsimp only [leastProduct] at h
  split at h
  · rename_i hd
    cases h
    exact ⟨(add_pred_div_le_iff hp).mp (le_max_right _ _), _, le_max_left _ _, hd, rfl⟩
  · cases h

theorem leastProduct_le {need p d : Nat} (hp : 0 < p) (hd1 : 1 ≤ d) (hd : d ≤ 256) (hneed : need ≤ p * d) :
    ∃ n, leastProduct need p = some n ∧ n ≤ p * d := by
  have hle : max 1 ((need + p - 1) / p) ≤ d := max_le hd1 ((add_pred_div_le_iff hp).mpr hneed)
  exact ⟨_, if_pos (hle.trans hd), Nat.mul_le_mul_left p hle⟩

/-- What is found is the least product that reaches `need`. -/
theorem closestProduct_eq_some {need n : Nat} (h : closestProduct need = some n) :
    IsProduct n ∧ need ≤ n ∧ ∀ m, IsProduct m → need ≤ m → n ≤ m := by
  obtain ⟨hmem, hmin⟩ := List.min?_eq_some_iff.mp h
  obtain ⟨p, hp, hleast⟩ := List.mem_filterMap.mp hmem
  obtain ⟨hneed, d, hd1, hd, rfl⟩ := leastProduct_eq_some (pos_of_mem_prescales hp) hleast
  refine ⟨⟨p, hp, d, hd1, hd, rfl⟩, hneed, ?_⟩
  rintro m ⟨q, hq, e, he1, he, rfl⟩ hm
  obtain ⟨k, hk, hle⟩ := leastProduct_le (pos_of_mem_prescales hq) he1 he hm
  exact (hmin k (List.mem_filterMap.mpr ⟨q, hq, hk⟩)).trans hle

/-- There is one up to the largest product. -/
theorem exists_closestProduct {need : Nat} (h : need ≤ maxProduct) : ∃ n, closestProduct need = some n := by
  have hp : 254 ∈ prescales := mem_prescales.mpr (by decide)
  obtain ⟨n, hn, -⟩ := leastProduct_le (pos_of_mem_prescales hp) (by decide) le_rfl h
  exact ⟨_, List.min?_eq_some_min (List.ne_nil_of_mem (List.mem_filterMap.mpr ⟨254, hp, hn⟩))⟩

/-- The prescales that make a product are those the search accepts. -/
theorem makesProduct_iff {n p : Nat} (hn : 0 < n) (hp : 0 < p) :
    (n % p == 0 && decide (n / p ≤ 256)) = true ↔ ∃ d, 1 ≤ d ∧ d ≤ 256 ∧ n = p * d := by
  rw [Bool.and_eq_true, beq_iff_eq, decide_eq_true_eq]
  constructor
  · rintro ⟨hdvd, hd⟩
    have hdvd := Nat.dvd_of_mod_eq_zero hdvd
    exact ⟨n / p, Nat.div_pos (Nat.le_of_dvd hn hdvd) hp, hd, (Nat.mul_div_cancel' hdvd).symm⟩
  · rintro ⟨d, -, hd, rfl⟩
    exact ⟨Nat.mul_mod_right p d, (Nat.mul_div_cancel_left d hp).trans_le hd⟩

theorem IsProduct.pos {n : Nat} (h : IsProduct n) : 0 < n := by
  obtain ⟨p, hp, d, hd1, -, rfl⟩ := h
  exact Nat.mul_pos (pos_of_mem_prescales hp) hd1

theorem closestSearch_eq_none {clk b : Nat} (h : b = 0 ∨ 65024 * b < clk) : closestSearch clk b = none := by
  unfold closestSearch
  split
  · rfl
  · rename_i hb
    have hneed : maxProduct < (clk + b - 1) / b := by
      rw [← not_le, add_pred_div_le_iff (Nat.pos_of_ne_zero hb), not_le, Nat.mul_comm]
      exact h.resolve_left hb
    exact if_pos hneed

/-- A rate within reach: the pair found is legal and of the least product that does not exceed the request, and its prescale the smallest
that makes that product. -/
theorem closestSearch_eq_some {clk b : Nat} (hb : 0 < b) (h : clk ≤ 65024 * b) :
    ∃ p ∈ prescales, ∃ d, 1 ≤ d ∧ d ≤ 256 ∧ closestSearch clk b = some ⟨p, d, clk / (p * d)⟩ ∧ clk ≤ p * d * b ∧
      ∀ q ∈ prescales, ∀ e, 1 ≤ e → e ≤ 256 → clk ≤ q * e * b → p * d ≤ q * e ∧ (p * d = q * e → p ≤ q) := by
  have hreach {n : Nat} : (clk + b - 1) / b ≤ n ↔ clk ≤ n * b := by rw [add_pred_div_le_iff hb, Nat.mul_comm]
  have hneed : (clk + b - 1) / b ≤ maxProduct := hreach.mpr h
  obtain ⟨n, hn⟩ := exists_closestProduct hneed
  obtain ⟨hprod, hle, hleast⟩ := closestProduct_eq_some hn
  have hmakes {q : Nat} (hq : q ∈ prescales) := makesProduct_iff hprod.pos (pos_of_mem_prescales hq)
  obtain ⟨q, hq, hqn⟩ := hprod
  obtain ⟨p, hfind, hp, hpn, hfirst⟩ :=
    exists_find?_prescales (f := fun p => n % p == 0 && decide (n / p ≤ 256)) hq ((hmakes hq).mpr hqn)
  obtain ⟨d, hd1, hd, rfl⟩ := (hmakes hp).mp hpn
  refine ⟨p, hp, d, hd1, hd, ?_, hreach.mp hle, fun q hq e he1 he hqe => ⟨?_, fun heq => ?_⟩⟩
  · simp only [closestSearch, if_neg hb.ne', if_neg hneed.not_gt, hn, hfind, Nat.mul_div_cancel_left d (pos_of_mem_prescales hp)]
  · exact hleast _ ⟨q, hq, e, he1, he, rfl⟩ (hreach.mpr hqe)
  · exact hfirst q hq ((hmakes hq).mpr ⟨e, he1, he, heq⟩)

/-- Settles O52: the least product that reaches `F / b` is the closest rate from below. -/
theorem closestSearchIsClosest : Obligations.ClosestSearchIsClosest := by
  intro clk b
  by_cases hb : b = 0 ∨ 65024 * b < clk
  · rw [closestSearch_eq_none hb]
    exact ⟨iff_of_true rfl hb, fun r hr => nomatch hr⟩
  · obtain ⟨hpos, hreach⟩ := not_or.mp hb
    obtain ⟨p, hp, d, hd1, hd, hsearch, hle, hleast⟩ := closestSearch_eq_some (Nat.pos_of_ne_zero hpos) (not_lt.mp hreach)
    rw [hsearch]
    refine ⟨iff_of_false nofun hb, ?_⟩
    rintro _ ⟨⟩
    obtain ⟨heven, hlow, hhigh⟩ := mem_prescales.mp hp
    exact ⟨heven, hlow, hhigh, hd1, hd, rfl, hle, fun q e h0 h2 h254 => hleast q (mem_prescales.mpr ⟨h0, h2, h254⟩) e⟩

/-! ### `SDK` -/

/-- Begun at a second divisor that keeps the reported rate within the request, the loop ends at one that keeps it too and is 1 or has a
predecessor that does not (R119). -/
theorem sdkPostdiv_spec {clk b p d : Nat} (hd : 1 ≤ d) (hrate : clk / (p * d) ≤ b) :
    1 ≤ sdkPostdiv clk b p d ∧ sdkPostdiv clk b p d ≤ d ∧ clk / (p * sdkPostdiv clk b p d) ≤ b ∧
      (sdkPostdiv clk b p d = 1 ∨ b < clk / (p * (sdkPostdiv clk b p d - 1))) := by
  fun_induction sdkPostdiv clk b p d with
  | case1 => omega
  | case2 => exact ⟨le_rfl, le_rfl, hrate, .inl rfl⟩
  | case3 d hstop => exact ⟨by omega, le_rfl, hrate, .inr hstop⟩
  | case4 d hgo ih =>
    obtain ⟨h1, hle, hspec⟩ := ih (by omega) (not_lt.mp hgo)
    exact ⟨h1, by omega, hspec⟩

theorem sdkSearch_eq_none {clk b : Nat} (h : b = 0 ∨ clk < b ∨ 65024 * b ≤ clk) : sdkSearch clk b = none := by
  unfold sdkSearch
  split
  · rfl
  · rename_i hb
    have hout : 65024 * b ≤ clk := by rw [Bool.or_eq_true, decide_eq_true_eq, decide_eq_true_eq] at hb; omega
    have hfind : prescales.find? (fun p => clk < p * 256 * b) = none := by
      rw [List.find?_eq_none]
      intro p hp
      obtain ⟨-, -, hhigh⟩ := mem_prescales.mp hp
      have hle : p * 256 * b ≤ 65024 * b := Nat.mul_le_mul_right b (by omega)
      simpa using hle.trans hout
    rw [hfind]

/-- A rate within reach: the pair found is legal, its prescale the smallest that can reach the rate, and its second divisor where the
loop down from 256 stops. -/
theorem sdkSearch_eq_some {clk b : Nat} (hb : 0 < b) (hclk : b ≤ clk) (h : clk < 65024 * b) :
    ∃ p ∈ prescales, ∃ d, 1 ≤ d ∧ d ≤ 256 ∧ sdkSearch clk b = some ⟨p, d, clk / (p * d)⟩ ∧ clk / (p * d) ≤ b ∧
      clk < p * 256 * b ∧ (d = 1 ∨ b < clk / (p * (d - 1))) ∧ ∀ q ∈ prescales, q < p → q * 256 * b ≤ clk := by
  have hmax : 254 ∈ prescales := mem_prescales.mpr (by decide)
  obtain ⟨p, hfind, hp, hreach, hfirst⟩ := exists_find?_prescales (f := fun p => clk < p * 256 * b) hmax (decide_eq_true h)
  have hreach : clk < p * 256 * b := of_decide_eq_true hreach
  have hrate : clk / (p * 256) ≤ b := (Nat.div_lt_of_lt_mul hreach).le
  obtain ⟨hd1, hd, hle, hlast⟩ := sdkPostdiv_spec (by decide) hrate
  have hrequest : ¬ (b = 0 || decide (clk < b)) = true := by rw [Bool.or_eq_true, decide_eq_true_eq, decide_eq_true_eq]; omega
  refine ⟨p, hp, _, hd1, hd, ?_, hle, hreach, hlast, fun q hq hqp => ?_⟩
  · simp only [sdkSearch, if_neg hrequest, hfind]
  · by_contra hq'
    exact absurd (hfirst q hq (decide_eq_true (not_le.mp hq'))) (not_le.mpr hqp)

/-- Settles O53: the first prescale within reach, then the loop down from the largest second divisor. -/
theorem sdkSearchNeverExceedsRequest : Obligations.SdkSearchNeverExceedsRequest := by
  intro clk b
  by_cases hb : b = 0 ∨ clk < b ∨ 65024 * b ≤ clk
  · rw [sdkSearch_eq_none hb]
    exact ⟨iff_of_true rfl hb, fun r hr => nomatch hr⟩
  · obtain ⟨hpos, hclk, hreach⟩ : 0 < b ∧ b ≤ clk ∧ clk < 65024 * b := by omega
    obtain ⟨p, hp, d, hd1, hd, hsearch, hle, hlt, hlast, hfirst⟩ := sdkSearch_eq_some hpos hclk hreach
    rw [hsearch]
    refine ⟨iff_of_false nofun hb, ?_⟩
    rintro _ ⟨⟩
    obtain ⟨heven, hlow, hhigh⟩ := mem_prescales.mp hp
    exact ⟨heven, hlow, hhigh, hd1, hd, rfl, hle, hlt, hlast, fun q h0 h2 hqp =>
      hfirst q (mem_prescales.mpr ⟨h0, h2, hqp.le.trans hhigh⟩) hqp⟩

end Sys2Proof.Machine
end

section
/-! The codec operations (43_codec.md R124 to R132): each reads its operands, writes one word computed from them and goes on; and the
arithmetic of that word. -/

namespace Sys2Proof.Machine

/-! ### The common shape of the four operations -/

/-- The host step that takes its operands from `e`, writes `f` of them to `H[d]` and goes on to the next word. -/
def State.computeStep {α : Type} (s : State) (d : HIdx) (e : Eff α) (f : α → Word) : Host.Outcome State Fault Refusal :=
  finish s do
    let v ← e
    return (s.setH d (f v)).advance 1

theorem exec_encw (s : State) (d a : HIdx) : exec (.encw d a) s = s.computeStep d (s.readH a) wideCommand := rfl

theorem exec_encn (s : State) (d a : HIdx) : exec (.encn d a) s = s.computeStep d (s.readH a) narrowCommand := rfl

theorem exec_decw (s : State) (d a b : HIdx) :
    exec (.decw d a b) s = s.computeStep d (s.readH2 a b) fun p => wideSample p.1 p.2 := rfl

theorem exec_decn (s : State) (d a : HIdx) : exec (.decn d a) s = s.computeStep d (s.readH a) narrowSample := rfl

theorem computeStep_ok {α : Type} (s : State) (d : HIdx) (v : α) (f : α → Word) :
    s.computeStep d (.ok v) f = .next { s with h := s.h.set d (.holds (f v)), pc := s.pc + 1 } := rfl

/-- Settles O32: the operands hold words, so each operation writes its function of them. -/
theorem codecOperations : Obligations.CodecOperations := by
  intro s d a b x y ha hb
  rw [exec_encw, exec_encn, exec_decw, exec_decn, readH_holds ha, readH2_holds ha hb]
  exact ⟨computeStep_ok .., computeStep_ok .., computeStep_ok .., computeStep_ok ..⟩

/-! ### What the block, the device and the select line have to do with it -/

/-- The machine with another block, device, select level and pin function. -/
def State.withPlatform (s : State) (b : Block) (dev : Dev) (cs : Bool) (f : SelFn) : State :=
  { s with block := b, dev := dev, gpioCs := cs, selfn := f }

theorem readH_withPlatform (s : State) (a : HIdx) (b : Block) (dev : Dev) (cs : Bool) (f : SelFn) :
    (s.withPlatform b dev cs f).readH a = s.readH a := rfl

theorem readH2_withPlatform (s : State) (a c : HIdx) (b : Block) (dev : Dev) (cs : Bool) (f : SelFn) :
    (s.withPlatform b dev cs f).readH2 a c = s.readH2 a c := rfl

/-- A computing step ends the same way beside any block, device and select line, whether it completes, holds or faults. -/
theorem computeStep_withPlatform {α : Type} (s : State) (d : HIdx) (e : Eff α) (g : α → Word) (b : Block) (dev : Dev) (cs : Bool)
    (f : SelFn) : ∃ t, s.computeStep d e g = .next t ∧ t.block = s.block ∧ t.dev = s.dev ∧
      (s.withPlatform b dev cs f).computeStep d e g = .next (t.withPlatform b dev cs f) := by
  cases e with
  | ok v => exact ⟨_, rfl, rfl, rfl, rfl⟩
  | error stop =>
    cases stop with
    | hold => exact ⟨_, rfl, rfl, rfl, rfl⟩
    | fault k => exact ⟨_, rfl, rfl, rfl, rfl⟩

/-- So does an operation that is a computing step whose operands are the same beside them. -/
theorem exec_withPlatform {α : Type} {i : Instr} {d : HIdx} {operands : State → Eff α} {g : α → Word} {s : State} {b : Block}
    {dev : Dev} {cs : Bool} {f : SelFn} (hexec : ∀ s, exec i s = s.computeStep d (operands s) g)
    (hread : operands (s.withPlatform b dev cs f) = operands s) :
    ∃ t, exec i s = .next t ∧ t.block = s.block ∧ t.dev = s.dev ∧
      exec i (s.withPlatform b dev cs f) = .next (t.withPlatform b dev cs f) := by
  rw [hexec s, hexec (s.withPlatform b dev cs f), hread]
  exact computeStep_withPlatform s d (operands s) g b dev cs f

/-- Settles O60: the operands are scratch registers, which both machines share. -/
theorem codecIgnoresBlock : Obligations.CodecIgnoresBlock := by
  rintro s b dev cs f d a c i (rfl | rfl | rfl | rfl)
  · exact exec_withPlatform (exec_encw · d a) (readH_withPlatform s a b dev cs f)
  · exact exec_withPlatform (exec_encn · d a) (readH_withPlatform s a b dev cs f)
  · exact exec_withPlatform (exec_decw · d a c) (readH2_withPlatform s a c b dev cs f)
  · exact exec_withPlatform (exec_decn · d a) (readH_withPlatform s a b dev cs f)

/-! ### The codec's arithmetic -/

/-- The mask of a channel keeps its low 3 bits (R128). -/
theorem and_channelMask (x : Word) : x &&& 7 = BitVec.ofNat 32 (x.toNat % 8) := by
  apply BitVec.eq_of_toNat_eq
  calc (x &&& 7).toNat = x.toNat % 8 := Nat.and_two_pow_sub_one_eq_mod x.toNat 3
    _ = (BitVec.ofNat 32 (x.toNat % 8)).toNat := by rw [BitVec.toNat_ofNat]; omega

/-- The mask of a sample keeps its low 12 bits (R129). -/
theorem toNat_and_sampleMask (x : Word) : (x &&& 0xFFF).toNat = x.toNat % 4096 := Nat.and_two_pow_sub_one_eq_mod x.toNat 12

theorem wideCommand_and_channelMask (x : Word) : wideCommand (x &&& 7) = wideCommand x := by
  rw [wideCommand, BitVec.and_assoc, BitVec.and_self, wideCommand]

theorem narrowCommand_and_channelMask (x : Word) : narrowCommand (x &&& 7) = narrowCommand x := by
  rw [narrowCommand, BitVec.and_assoc, BitVec.and_self, narrowCommand]

/-- The eight command words of each variant. -/
theorem command_of_channel : ∀ c < 8, wideCommand (BitVec.ofNat 32 c) = BitVec.ofNat 32 (0x180 + 16 * c) ∧
    narrowCommand (BitVec.ofNat 32 c) = BitVec.ofNat 32 (0x30 + 2 * c) := by
  decide

/-- Shifted by 10, the first word has 2 bits left below bit 12, to which the second is added. -/
theorem toNat_wideSample (x y : Word) : (wideSample x y).toNat = (1024 * (x.toNat % 4) + y.toNat % 4096) % 4096 := by
  rw [wideSample, toNat_and_sampleMask, BitVec.toNat_add, BitVec.toNat_shiftLeft, Nat.shiftLeft_eq]
  omega

/-- Settles O33: a command is that of its masked channel, of which there are eight. -/
theorem codecProperties : Obligations.CodecProperties := by
  intro x y
  have hwide := wideCommand_and_channelMask x
  have hnarrow := narrowCommand_and_channelMask x
  obtain ⟨hwideValue, hnarrowValue⟩ := command_of_channel (x.toNat % 8) (Nat.mod_lt _ (by decide))
  rw [← and_channelMask] at hwideValue hnarrowValue
  exact ⟨hwide.symm, hnarrow.symm, hwide.symm.trans hwideValue, hnarrow.symm.trans hnarrowValue, toNat_wideSample x y,
    toNat_and_sampleMask x⟩

end Sys2Proof.Machine
end

section
/-! The start of a composite operation (44_operations.md R133, R134, R139, R142): the checks of its step 0, and that a step 0 which passes
them moves the micro-cursor alone. -/

namespace Sys2Proof.Machine

/-! ### CONFIG -/

theorem Block.inFlight_iff (b : Block) :
    b.inFlight = true ↔ b.inReset = false ∧ b.rstDone = true ∧ (b.txq ≠ [] ∨ b.rxq ≠ []) := by
  simp [Block.inFlight, Block.outOfReset, and_assoc]

/-- The temporaries a `CONFIG` starts with: the divider setting found, and no enable bit saved yet. -/
def DividerSetting.temps (r : DividerSetting) : ConfigTemps :=
  { prescale := r.prescale, postdiv := r.postdiv, achieved := r.achieved, enable := false }

section
variable {s : State} {a : HIdx} {b : Word} {bus mode : BitVec 2} {ord : BitOrder} {wid : BitVec 5} {r : DividerSetting}

theorem exec_config_ok (ha : s.h[a] = .holds b) (h : s.configCheck b bus mode ord wid = .ok r) (d : HIdx) :
    exec (.config d a bus mode ord wid) s = .next (s.toStep (.config d mode wid r.temps) 1) := by
  rw [exec, execConfig, configStart, readH_holds ha, ok_bind, h]
  rfl

theorem exec_config_refused {k : FaultKind} (ha : s.h[a] = .holds b) (h : s.configCheck b bus mode ord wid = .error (.fault k))
    (d : HIdx) : exec (.config d a bus mode ord wid) s = .next (s.recorded .host k) := by
  rw [exec, execConfig, configStart, readH_holds ha, ok_bind, h]
  rfl

/-- The checks of `CONFIG` in their order (R134). -/
theorem configCheck_eq : s.configCheck b bus mode ord wid =
    if 2 ≤ bus.toNat then .error (.fault (.contractViolation .bus))
    else if wid.toNat < 4 ∨ 16 < wid.toNat then .error (.fault (.contractViolation .width))
    else if ord = .lsbFirst then .error (.fault (.contractViolation .order))
    else if mode = 3 ∨ (mode ≠ 0 ∧ s.params.variant = .base) then .error (.fault (.contractViolation .mode))
    else (dividerSearch s.params b.toNat).elim (.error (.fault (.contractViolation .baud))) fun r =>
      if bus ≠ s.params.busId then .error (.fault (.refused .otherInstance))
      else if s.block.inFlight then .error (.fault .inFlightReconfigure)
      else .ok r := by
  simp only [State.configCheck, Bool.or_eq_true, Bool.and_eq_true, decide_eq_true_eq]
  cases dividerSearch s.params b.toNat <;> rfl

/-- Every check of `CONFIG` passes (R134). -/
theorem configCheck_ok (hbus : bus.toNat < 2) (hlow : 4 ≤ wid.toNat) (hhigh : wid.toNat ≤ 16) (hmode : mode ≠ 3)
    (hbase : s.params.variant = .base → mode = 0) (hrate : dividerSearch s.params b.toNat = some r) (hinst : bus = s.params.busId) (hidle : s.block.inFlight = false) :
    s.configCheck b bus mode .msbFirst wid = .ok r := by
  have hwid : ¬ (wid.toNat < 4 ∨ 16 < wid.toNat) := by omega
  have hmode' : ¬ (mode = 3 ∨ (mode ≠ 0 ∧ s.params.variant = .base)) := by tauto
  rw [configCheck_eq, if_neg (Nat.not_le.mpr hbus), if_neg hwid, if_neg (by decide), if_neg hmode', hrate, Option.elim_some,
    if_neg (not_not_intro hinst), hidle]
  rfl

end

/-- Settles O34: the checks pass, so the micro-cursor is set up with the setting found. -/
theorem configStarts : Obligations.ConfigStarts := by
  intro s d a bus mode wid b r ha hbus hlow hhigh hmode hbase hrate hinst hempty
  have hidle : s.block.inFlight = false := by
    rw [← Bool.not_eq_true, Block.inFlight_iff]
    rintro ⟨hin, hdone, hq⟩
    obtain ⟨htx, hrx⟩ := hempty hin hdone
    exact hq.elim (· htx) (· hrx)
  exact exec_config_ok ha (configCheck_ok hbus hlow hhigh hmode hbase hrate hinst hidle) d

/-- Settles O35: the reasons of the statement are those of the check, in its order. -/
theorem configContractFaults : Obligations.ConfigContractFaults := by
  intro s d a bus mode ord wid b ha raises
  have hraises {k : FaultKind} (h : s.configCheck b bus mode ord wid = .error (.fault k)) : raises k := exec_config_refused ha h d
  split_ifs with hbus hwid hord hmode hrate hinst
  · exact hraises (by rw [configCheck_eq, if_pos hbus])
  · exact hraises (by rw [configCheck_eq, if_neg hbus, if_pos hwid])
  · exact hraises (by rw [configCheck_eq, if_neg hbus, if_neg hwid, if_pos hord])
  · exact hraises (by rw [configCheck_eq, if_neg hbus, if_neg hwid, if_neg hord, if_pos hmode])
  · exact hraises (by rw [configCheck_eq, if_neg hbus, if_neg hwid, if_neg hord, if_neg hmode, hrate, Option.elim_none])
  all_goals
    obtain ⟨r, hr⟩ := Option.ne_none_iff_exists'.mp hrate
    have hcheck := configCheck_eq (s := s) (b := b) (bus := bus) (mode := mode) (ord := ord) (wid := wid)
    rw [if_neg hbus, if_neg hwid, if_neg hord, if_neg hmode, hr] at hcheck
  · exact hraises (hcheck.trans (if_pos hinst))
  · exact fun hflight => hraises (hcheck.trans ((if_neg hinst).trans (if_pos ((Block.inFlight_iff _).mpr hflight))))

/-! ### XFER -/

theorem xferLegal_iff {d a : HIdx} {n : BitVec 4} :
    xferLegal d a n = true ↔ 1 ≤ n.toNat ∧ n.toNat ≤ 8 ∧ a.val + n.toNat ≤ 8 ∧ d.val + n.toNat ≤ 8 := by
  simp [xferLegal, and_assoc]

/-- Settles O38: the registers of the range hold the transmit words, which the step reads. -/
theorem xferStarts : Obligations.XferStarts := by
  intro s d a n tx hlegal hlen hholds
  obtain ⟨-, -, hrange, -⟩ := xferLegal_iff.mp hlegal
  have hread : s.readRange a.val n.toNat = .ok tx := hlen ▸ readRange_holds s tx a.val (by omega) hholds
  rw [exec, execXfer, xferStart, if_pos hlegal, hread]
  rfl

/-! ### READCH -/

theorem codecVariant_eq (b : Block) : b.codecVariant =
    if b.dss = 9 ∧ b.frf = 0 then some .wide else if b.dss = 11 ∧ (b.frf = 1 ∨ b.frf = 2) then some .narrow else none := by
  simp only [Block.codecVariant, Bool.and_eq_true, Bool.or_eq_true, decide_eq_true_eq]

end Sys2Proof.Machine
end

section
/-! The later steps of `XFER` and `READCH` (44_operations.md R139 to R145), each from any state with the micro-cursor at it: the step is
the transfer's, or moves a fixed part of the state. -/

namespace Sys2Proof.Machine

/-! ### The steps of a transfer, as host steps -/

/-- The host step of a state with the micro-cursor at a step of an expansion is that step. -/
theorem hostStep_toStep {s : State} (hh : s.halted = false) (o : Composite) (k : Nat) :
    (s.toStep o k).hostStep = finish (s.toStep o k) (compositeStep { op := o, step := k } (s.toStep o k)) :=
  hostStep_of_cursor (s := s.toStep o k) hh rfl

section
variable {s : State} {t : XferTemps} {k : Nat} (f : XferTemps × State → State)

/-- A writing step of a transfer faults in reset, then with the transmit FIFO full, else queues its word. -/
theorem finish_transfer_write {w : Word} (hk : 1 ≤ k) (hw : t.tx[k - 1]? = some w) :
    finish s (transferStep t s k >>= fun p => .ok (f p)) = .next (
      if s.block.inReset = true ∨ s.block.rstDone = false then s.recorded .host (.inResetAccess 0x008)
      else if 8 ≤ s.block.txq.length then s.recorded .host .txOverflow
      else f (t, { s with block := { s.block with txq := s.block.txq ++ [w.setWidth 16] } })) := by
  rw [transferStep_write s hk hw]
  split_ifs <;> rfl

theorem finish_transfer_hold (hk : t.tx.length < k) (hq : s.block.rxq = []) :
    finish s (transferStep t s k >>= fun p => .ok (f p)) = .next s := by
  rw [transferStep_hold hk hq]
  rfl

/-- A reading step of a transfer faults in reset, else takes the head of the receive FIFO. -/
theorem finish_transfer_read {w : Half} {ws : List Half} (hk : t.tx.length < k) (hq : s.block.rxq = w :: ws) :
    finish s (transferStep t s k >>= fun p => .ok (f p)) = .next (
      if s.block.inReset = true ∨ s.block.rstDone = false then s.recorded .host (.inResetAccess 0x008)
      else f ({ t with rx := t.rx ++ [w.setWidth 32] }, { s with block := { s.block with rxq := ws } })) := by
  rw [transferStep_read hk hq]
  split_ifs <;> rfl

end

/-! ### XFER -/

/-- What a step of `XFER` makes of the transfer's step: it goes on, or ends with the received words in `H` (R139). -/
def xferNext (d : HIdx) (t : XferTemps) (k : Nat) (p : XferTemps × State) : State :=
  if t.lastStep k then { p.2 with h := setRange p.2.h d.val p.1.rx }.endComposite else p.2.toStep (.xfer d p.1) (k + 1)

theorem xferStep_eq (d : HIdx) (t : XferTemps) (s : State) (k : Nat) :
    xferStep d t s k = transferStep t s k >>= fun p => .ok (xferNext d t k p) := by
  unfold xferStep xferNext
  cases transferStep t s k with
  | error e => rfl
  | ok p =>
    change (if t.lastStep k then _ else _) = _
    cases t.lastStep k <;> rfl

theorem xferNext_of_last {t : XferTemps} {k : Nat} (hk : k = 2 * t.tx.length) (d : HIdx) (p : XferTemps × State) :
    xferNext d t k p = { p.2 with h := setRange p.2.h d.val p.1.rx, pc := p.2.pc + 1, cursor := none } :=
  if_pos (beq_iff_eq.mpr hk)

theorem xferNext_of_not_last {t : XferTemps} {k : Nat} (hk : k < 2 * t.tx.length) (d : HIdx) (p : XferTemps × State) :
    xferNext d t k p = p.2.toStep (.xfer d p.1) (k + 1) :=
  if_neg fun h => hk.ne (beq_iff_eq.mp h)

theorem hostStep_xfer {s : State} {d : HIdx} {t : XferTemps} {k : Nat} (hh : s.halted = false)
    (hcur : s.cursor = some { op := .xfer d t, step := k }) :
    s.hostStep = finish s (transferStep t s k >>= fun p => .ok (xferNext d t k p)) := by
  rw [hostStep_of_cursor hh hcur, ← xferStep_eq]
  rfl

/-- Settles O39: the steps of a transfer, which the last ends with the received words written to their range. -/
theorem xferStepsMoveWords : Obligations.XferStepsMoveWords := by
  intro s d t k hh hcur hrange hk
  rw [hostStep_xfer hh hcur]
  refine ⟨fun w hw => ?_, fun hlt hq => finish_transfer_hold _ hlt hq, fun hlt hq ho => ?_, fun hin hdone => ⟨?_, ?_⟩⟩
  · have hle := (List.getElem?_eq_some_iff.mp hw).1
    rw [finish_transfer_write _ hk hw, xferNext_of_not_last (by omega)]
    rfl
  · obtain ⟨w, ws, hq⟩ := List.exists_cons_of_ne_nil hq
    rw [finish_transfer_read _ hlt hq, if_pos ho]
  all_goals have ho : ¬ (s.block.inReset = true ∨ s.block.rstDone = false) := by simp [hin, hdone]
  · intro w ws hlt hlast hq
    rw [finish_transfer_read _ hlt hq, if_neg ho, xferNext_of_not_last hlast]
    rfl
  · intro w ws hlast hlen hq
    rw [finish_transfer_read _ (by omega) hq, if_neg ho, xferNext_of_last hlast]
    have hrx : (t.rx ++ [w.setWidth 32]).length = t.tx.length := by rw [List.length_append, List.length_singleton, hlen]
    exact ⟨_, rfl, hrx ▸ setRange_spec (t.rx ++ [w.setWidth 32]) s.h d.val (by omega)⟩

/-! ### READCH -/

/-- The steps of an expansion of `READCH` before its transfer (R144, R145). -/
def CodecVariant.lead : CodecVariant → Nat
  | .wide => 5
  | .narrow => 2

/-- The words of the transfer inside `READCH` (R144, R145). -/
def CodecVariant.words : CodecVariant → Nat
  | .wide => 2
  | .narrow => 1

section
variable {s : State} {d : HIdx} {v : CodecVariant} {ch cmd : Word} {t : XferTemps} {i : Nat}

theorem compositeStep_readch_transfer (hi : 1 ≤ i) (hlast : i ≤ 2 * v.words) :
    compositeStep { op := .readch d v ch cmd t, step := v.lead + i } s =
      transferStep t s i >>= fun p => .ok (p.2.toStep (.readch d v ch cmd p.1) (v.lead + i + 1)) := by
  cases v with
  | wide =>
    have hfour : i ≤ 4 := hlast
    interval_cases i <;> rfl
  | narrow =>
    have htwo : i ≤ 2 := hlast
    interval_cases i <;> rfl

theorem hostStep_readch_transfer (hh : s.halted = false) (hi : 1 ≤ i) (hlast : i ≤ 2 * v.words) :
    (s.toStep (.readch d v ch cmd t) (v.lead + i)).hostStep = finish (s.toStep (.readch d v ch cmd t) (v.lead + i))
      (transferStep t (s.toStep (.readch d v ch cmd t) (v.lead + i)) i >>= fun p =>
        .ok (p.2.toStep (.readch d v ch cmd p.1) (v.lead + i + 1))) := by
  rw [hostStep_toStep hh, compositeStep_readch_transfer hi hlast]

theorem hostStep_readch_write {w : Word} (hh : s.halted = false) (hi : 1 ≤ i) (hlast : i ≤ 2 * v.words)
    (hw : t.tx[i - 1]? = some w) : (s.toStep (.readch d v ch cmd t) (v.lead + i)).hostStep = .next (
      if s.block.inReset = true ∨ s.block.rstDone = false then
        (s.toStep (.readch d v ch cmd t) (v.lead + i)).recorded .host (.inResetAccess 0x008)
      else if 8 ≤ s.block.txq.length then (s.toStep (.readch d v ch cmd t) (v.lead + i)).recorded .host .txOverflow
      else State.toStep { s with block := { s.block with txq := s.block.txq ++ [w.setWidth 16] } }
        (.readch d v ch cmd t) (v.lead + i + 1)) :=
  (hostStep_readch_transfer hh hi hlast).trans (finish_transfer_write _ hi hw)

theorem hostStep_readch_read {w : Half} {ws : List Half} (hh : s.halted = false) (hi : 1 ≤ i) (hlast : i ≤ 2 * v.words)
    (hlt : t.tx.length < i) (hq : s.block.rxq = w :: ws) : (s.toStep (.readch d v ch cmd t) (v.lead + i)).hostStep = .next (
      if s.block.inReset = true ∨ s.block.rstDone = false then
        (s.toStep (.readch d v ch cmd t) (v.lead + i)).recorded .host (.inResetAccess 0x008)
      else State.toStep { s with block := { s.block with rxq := ws } }
        (.readch d v ch cmd { t with rx := t.rx ++ [w.setWidth 32] }) (v.lead + i + 1)) :=
  (hostStep_readch_transfer hh hi hlast).trans
    (finish_transfer_read (s := s.toStep (.readch d v ch cmd t) (v.lead + i)) _ hlt hq)

/-- Step 0 of `READCH` out of reset: the codec variant is that of the configuration, or there is none (R142, R143). -/
theorem exec_readch {a : HIdx} (ha : s.h[a] = .holds ch) (ho : ¬ (s.block.inReset = true ∨ s.block.rstDone = false)) :
    exec (.readch d a) s = .next (
      if s.block.dss = 9 ∧ s.block.frf = 0 then s.toStep (.readch d .wide ch 0 { tx := [], rx := [] }) 1
      else if s.block.dss = 11 ∧ (s.block.frf = 1 ∨ s.block.frf = 2) then
        s.toStep (.readch d .narrow ch 0 { tx := [], rx := [] }) 1
      else s.recorded .host (.noCodecVariant s.block.cr0)) := by
  have ho' : ¬ (!s.block.outOfReset) = true := by simpa [Block.outOfReset] using ho
  rw [exec, execReadch, readchStart, readH_holds ha, ok_bind, if_neg ho', codecVariant_eq]
  split_ifs <;> rfl

theorem exec_readch_inReset {a : HIdx} (ha : s.h[a] = .holds ch) (ho : s.block.inReset = true ∨ s.block.rstDone = false) :
    exec (.readch d a) s = .next (s.recorded .host (.inResetAccess 0x000)) := by
  have ho' : (!s.block.outOfReset) = true := by simpa [Block.outOfReset, ← or_iff_not_imp_left] using ho
  rw [exec, execReadch, readchStart, readH_holds ha, ok_bind, if_pos ho']
  rfl

end

/-- The select pin driven within an expansion: the device follows it and the micro-cursor goes on. -/
theorem driveSelect_toStep (s : State) (o o' : Composite) (k k' : Nat) (level : Bool) :
    ((s.toStep o k).driveSelect level).toStep o' k' = { s.toStep o' k' with gpioCs := level, dev := s.devDriven level } := by
  rw [driveSelect_eq]
  rfl

/-- Settles O41: step 0 chooses the variant; every later step is the transfer's or is carried out on the spot. -/
theorem readchStarts : Obligations.ReadchStarts := by
  constructor
  · intro s d a ch ha starts
    split_ifs with ho hwide hnarrow
    · exact exec_readch_inReset ha ho
    all_goals have hexec := exec_readch (d := d) ha ho
    · rwa [if_pos hwide] at hexec
    · rwa [if_neg hwide, if_pos hnarrow] at hexec
    · rwa [if_neg hwide, if_neg hnarrow] at hexec
  intro s d ch cmd tx rx hh within goes inReset
  have step (v : CodecVariant) (k : Nat) (cmd : Word) (tx rx : List Word) : (within v k cmd tx rx).hostStep =
      finish (within v k cmd tx rx) (compositeStep ⟨.readch d v ch cmd ⟨tx, rx⟩, k⟩ (within v k cmd tx rx)) := hostStep_toStep hh _ _
  refine ⟨step .., fun k hk => ?_, (step ..).trans ?_, step .., (step ..).trans ?_, fun x y => step .., step .., step .., fun x => step ..,
    fun v k w hkw => ?_, fun v k hk => ?_⟩
  · fin_cases hk <;> exact step ..
  · exact congrArg _ (driveSelect_toStep s _ _ _ _ false)
  · exact congrArg _ (driveSelect_toStep s _ _ _ _ true)
  · obtain ⟨i, rfl, hi, hlast, hw⟩ : ∃ i, k = v.lead + i ∧ 1 ≤ i ∧ i ≤ 2 * v.words ∧ tx[i - 1]? = some w := by
      obtain ⟨rfl, -, ⟨rfl, hw⟩ | ⟨rfl, hw⟩⟩ | ⟨rfl, rfl, rfl⟩ := hkw
      · exact ⟨1, rfl, by decide, by decide, hw⟩
      · exact ⟨2, rfl, by decide, by decide, hw⟩
      · exact ⟨1, rfl, by decide, by decide, rfl⟩
    have hwrite := hostStep_readch_write (s := s) (d := d) (ch := ch) (cmd := cmd) (t := ⟨tx, rx⟩) hh hi hlast hw
    refine ⟨fun ho => hwrite.trans (congrArg _ (if_pos ho)), fun ho hfull => ?_, fun ho hroom => ?_⟩
    · exact hwrite.trans (congrArg _ ((if_neg ho).trans (if_pos hfull)))
    · exact hwrite.trans (congrArg _ ((if_neg ho).trans (if_neg (Nat.not_le.mpr hroom))))
  · obtain ⟨i, rfl, hi, hlast, hlt⟩ : ∃ i, k = v.lead + i ∧ 1 ≤ i ∧ i ≤ 2 * v.words ∧ tx.length < i := by
      obtain ⟨rfl, hlen, rfl | rfl⟩ | ⟨rfl, hlen, rfl⟩ := hk
      · exact ⟨3, rfl, by decide, by decide, by omega⟩
      · exact ⟨4, rfl, by decide, by decide, by omega⟩
      · exact ⟨2, rfl, by decide, by decide, by omega⟩
    have hread {w ws} (hq : s.block.rxq = w :: ws) :=
      hostStep_readch_read (d := d) (ch := ch) (cmd := cmd) (t := ⟨tx, rx⟩) hh hi hlast hlt hq
    refine ⟨fun hq => (hostStep_readch_transfer hh hi hlast).trans (finish_transfer_hold _ hlt hq), fun hq ho => ?_, fun w ws ho hq => ?_⟩
    · obtain ⟨w, ws, hq⟩ := List.exists_cons_of_ne_nil hq
      exact (hread hq).trans (congrArg _ (if_pos ho))
    · exact (hread hq).trans (congrArg _ (if_neg ho))

end Sys2Proof.Machine
end

section
/-! The later steps of `CONFIG` (44_operations.md R133, R135): with the micro-cursor well-formed the block is out of reset and disabled from
step 4 on, so that every register access of theirs is taken. -/

namespace Sys2Proof.Machine

/-! ### Register writes of a disabled block out of reset -/

section
variable {s : State}

theorem writeEffect_cpsr (hin : s.block.inReset = false) (hdone : s.block.rstDone = true) (hsse : s.block.sse = false) (v : Word) :
    s.writeEffect 0x010 v = .ok { s with block := { s.block with cpsdvsr := v.setWidth 8 &&& 0xFE } } := by
  have hcheck : s.accessCheck 0x010 .write = .ok .cpsr := accessCheck_of ⟨rfl, hin, hdone⟩ rfl nofun
  rw [State.writeEffect, hcheck, ok_bind, State.regWrite, hsse]
  rfl

theorem maskedWriteEffect_cr0 (hin : s.block.inReset = false) (hdone : s.block.rstDone = true) (hsse : s.block.sse = false)
    (v m : Word) : s.maskedWriteEffect 0x000 v m = .ok { s with
      block := { s.block with cr0 := (s.block.cr0 &&& ~~~(m.setWidth 16)) ||| (v &&& m).setWidth 16 } } := by
  have hline (x : BitVec 16) : Block.fssIdle { s.block with cr0 := x } = s.block.fssIdle := by
    rw [Block.fssIdle_of_disabled hsse]
    exact Block.fssIdle_of_disabled hsse
  rw [maskedWriteEffect_of (r := .cr0) ⟨rfl, hin, hdone⟩ rfl rfl, State.regWrite, hsse, settleSelect_block_same (hline _),
    State.regState, setWidth_maskedUpdate (by decide)]
  rfl

theorem maskedWriteEffect_cr1 (hin : s.block.inReset = false) (hdone : s.block.rstDone = true) (hsse : s.block.sse = false)
    (v m : Word) : s.maskedWriteEffect 0x004 v m =
      .ok (s.settleSelect { s with
        block := { s.block with cr1 := (s.block.cr1 &&& ~~~(m.setWidth 4)) ||| (v &&& m).setWidth 4 } }) := by
  rw [maskedWriteEffect_of (r := .cr1) ⟨rfl, hin, hdone⟩ rfl rfl, State.regWrite, hsse, State.regState,
    setWidth_maskedUpdate (by decide)]
  rfl

theorem maskedWriteEffect_dmacr (hin : s.block.inReset = false) (hdone : s.block.rstDone = true) (v m : Word) :
    s.maskedWriteEffect 0x024 v m = .ok { s with
      block := { s.block with dmacr := (s.block.dmacr &&& ~~~(m.setWidth 2)) ||| (v &&& m).setWidth 2 } } := by
  rw [maskedWriteEffect_of (r := .dmacr) ⟨rfl, hin, hdone⟩ rfl rfl, State.regWrite, State.regState, setWidth_maskedUpdate (by decide)]

end

/-! ### Steps 4 to 9 -/

/-- The block after step `k` of a `CONFIG`, from 4 to 9: the prescale, the second divisor, disabled, the format, disabled still, the data
requests (R133). -/
def Block.afterConfigStep (b : Block) (variant : BuildVariant) (mode : BitVec 2) (wid : BitVec 5) (t : ConfigTemps) : Nat → Block
  | 4 => { b with cpsdvsr := (BitVec.ofNat 32 t.prescale).setWidth 8 &&& 0xFE }
  | 5 => { b with cr0 := (b.cr0 &&& 0x00FF#16) ||| ((BitVec.ofNat 32 (t.postdiv - 1) <<< 8) &&& 0xFF00).setWidth 16 }
  | 7 => { b with
      cr0 := (b.cr0 &&& ~~~((formatMask variant).setWidth 16)) ||| (formatValue variant mode wid &&& formatMask variant).setWidth 16 }
  | 9 => { b with dmacr := 0x3 }
  | _ => { b with cr1 := b.cr1 &&& 0xD }

theorem sse_disabled (b : Block) : Block.sse { b with cr1 := b.cr1 &&& 0xD } = false := by
  simp [Block.sse]

theorem disable_eq (x : BitVec 4) (v : Word) (h : (v &&& 0x2).setWidth 4 = 0) :
    (x &&& ~~~((0x2 : Word).setWidth 4)) ||| (v &&& 0x2).setWidth 4 = x &&& 0xD := by
  rw [h]
  exact BitVec.or_zero

theorem requests_eq : ∀ x : BitVec 2, (x &&& ~~~((0x3 : Word).setWidth 2)) ||| ((0x3 : Word) &&& 0x3).setWidth 2 = 0x3 := by decide

theorem configStep_writes {d : HIdx} {mode : BitVec 2} {wid : BitVec 5} {t : ConfigTemps} {k : Nat} {s : State} (hk : 4 ≤ k ∧ k ≤ 9)
    (hwf : Cursor.wf ⟨.config d mode wid t, k⟩ s.block = true) : configStep d mode wid t s k =
      .ok (State.toStep { s with block := s.block.afterConfigStep s.params.variant mode wid t k } (.config d mode wid t) (k + 1)) := by
  obtain ⟨hlow, hhigh⟩ := hk
  rw [Cursor.config_wf_iff] at hwf
  obtain ⟨-, -, hen, hquiet, hrel, hack⟩ := hwf
  obtain ⟨hsse, -, -⟩ := hquiet (by omega)
  have hin := hrel (by omega)
  have hdone := hack (by omega)
  have hline : Block.fssIdle { s.block with cr1 := s.block.cr1 &&& 0xD } = s.block.fssIdle := by
    rw [Block.fssIdle_of_disabled hsse]
    exact Block.fssIdle_of_disabled (sse_disabled _)
  have hdisable {v : Word} (hv : (v &&& 0x2).setWidth 4 = 0#4) : s.maskedWriteEffect 0x004 v 0x2 =
      .ok { s with block := { s.block with cr1 := s.block.cr1 &&& 0xD } } := by
    rw [maskedWriteEffect_cr1 hin hdone hsse, disable_eq _ _ hv, settleSelect_block_same hline]
  have hsaved : ({ t with enable := s.block.sse } : ConfigTemps) = t := by rw [hsse, ← hen]
  interval_cases k <;> simp only [configStep, thenStep]
  · rw [writeEffect_cpsr hin hdone hsse]; rfl
  · rw [maskedWriteEffect_cr0 hin hdone hsse]; rfl
  · rw [hdisable (by decide), hsaved]; rfl
  · rw [maskedWriteEffect_cr0 hin hdone hsse]; rfl
  · rw [hdisable (by rw [hen]; decide)]; rfl
  · rw [maskedWriteEffect_dmacr hin hdone, requests_eq]; rfl

/-! ### Step 10 -/

/-- The block enabled by a masked write of SSPCR1. -/
def Block.enable (b : Block) : Block := { b with cr1 := (b.cr1 &&& 0xD) ||| 0x2 }

theorem Block.enable_fssIdle {b : Block} (hin : b.inReset = false) (hdone : b.rstDone = true) :
    b.enable.fssIdle = !decide (b.frf = 1) := by
  have hsse : b.enable.sse = true := by simp [Block.enable, Block.sse]
  have hin' : b.enable.inReset = false := hin
  have hdone' : b.enable.rstDone = true := hdone
  have hfrf : b.enable.frf = b.frf := rfl
  simp only [Block.fssIdle_eq, hin', hdone', hsse, hfrf, true_and]

/-- Enabling a disabled block selects the device where the line is the block's and rests low, which is so in the TI format (R165). -/
theorem State.devAt_enable {s : State} (hsse : s.block.sse = false) (hin : s.block.inReset = false) (hdone : s.block.rstDone = true) :
    s.devAt (State.deviceCs { s with block := s.block.enable }) =
      if s.params.devicePresent = true ∧ s.selfn = .periph ∧ s.block.frf = 1 then .sel 0 none none [] none else s.dev := by
  cases hfn : s.selfn with
  | gpio =>
    have hcs : s.deviceCs = s.gpioCs := by rw [State.deviceCs, hfn]
    change s.devAt s.gpioCs = _
    rw [← hcs, State.devAt_same]
    simp
  | periph =>
    have hhigh : s.deviceCs = true := by
      rw [State.deviceCs, hfn]
      exact Block.fssIdle_of_disabled hsse
    change s.devAt s.block.enable.fssIdle = _
    rw [Block.enable_fssIdle hin hdone, State.devAt, hhigh]
    cases s.params.devicePresent <;> simp

/-- Step 10 of a `CONFIG` enables the block, writes the rate and ends the operation (R133). -/
theorem configStep_enables {d : HIdx} {mode : BitVec 2} {wid : BitVec 5} {t : ConfigTemps} {s : State}
    (hwf : Cursor.wf ⟨.config d mode wid t, 10⟩ s.block = true) : configStep d mode wid t s 10 =
      .ok { s with
        h := s.h.set d (.holds (BitVec.ofNat 32 t.achieved)), pc := s.pc + 1, cursor := none, block := s.block.enable
        dev := if s.params.devicePresent = true ∧ s.selfn = .periph ∧ s.block.frf = 1 then .sel 0 none none [] none else s.dev } := by
  rw [Cursor.config_wf_iff] at hwf
  obtain ⟨-, -, -, hquiet, hrel, hack⟩ := hwf
  obtain ⟨hsse, -, -⟩ := hquiet (by omega)
  have hin := hrel (by omega)
  have hdone := hack (by omega)
  rw [← State.devAt_enable hsse hin hdone]
  simp only [configStep]
  rw [maskedWriteEffect_cr1 hin hdone hsse, settleSelect_block]
  rfl

/-! ### No step faults -/

/-- With its micro-cursor well-formed a `CONFIG` does not fault (R133). -/
theorem configStep_ne_fault {d : HIdx} {mode : BitVec 2} {wid : BitVec 5} {t : ConfigTemps} {k : Nat} {s : State}
    (hwf : Cursor.wf ⟨.config d mode wid t, k⟩ s.block = true) (f : FaultKind) : configStep d mode wid t s k ≠ .error (.fault f) := by
  obtain ⟨hlow, hhigh, -⟩ := Cursor.config_wf_iff.mp hwf
  by_cases hwrites : 4 ≤ k ∧ k ≤ 9
  · rw [configStep_writes hwrites hwf]
    nofun
  obtain rfl | rfl | rfl | rfl : k = 1 ∨ k = 2 ∨ k = 3 ∨ k = 10 := by omega
  · nofun
  · nofun
  · simp only [configStep]
    split <;> nofun
  · rw [configStep_enables hwf]
    nofun

/-- Settles O37: the step takes effect, adding no record, or holds; it does not fault. -/
theorem configFaultsOnlyAtStart : Obligations.ConfigFaultsOnlyAtStart := by
  intro s t d mode wid tmp k hinv hcur hstep
  cases hh : s.halted with
  | true =>
    rw [hostStep_of_halted hh] at hstep
    cases hstep; rfl
  | false =>
    rw [hostStep_of_cursor hh hcur] at hstep
    obtain h | ⟨-, rfl⟩ | ⟨f, h, -⟩ := finish_next hstep
    · exact (compositeStep_keeps h).faults
    · rfl
    · exact absurd h (configStep_ne_fault (hinv _ hcur) f)

end Sys2Proof.Machine
end

section
/-! Runs of a composite operation (00_scope.md R15, 41_platform_ports.md R93): turns chained one after another, and the host's turns
inside an expansion. -/

namespace Sys2Proof.Machine

/-! ### Turns one after another -/

/-- `n` turns of the machine go from `s` to `t`. -/
def Reaches (n : Nat) (s t : State) : Prop := Host.Core.run Sys2Proof.core n s = .next t

theorem reaches_of_step {s t : State} (h : step s = .next t) : Reaches 1 s t := by
  have hstep : Sys2Proof.core.step s = .next t := h
  simp only [Reaches, Host.Core.run, hstep]

theorem Reaches.refl (s : State) : Reaches 0 s s := rfl

theorem Reaches.trans {m n : Nat} {s t u : State} (hst : Reaches m s t) (htu : Reaches n t u) : Reaches (m + n) s u := by
  induction m generalizing s with
  | zero =>
    cases hst
    rwa [Nat.zero_add]
  | succ m ih =>
    rw [Nat.add_right_comm]
    simp only [Reaches, Host.Core.run] at hst ⊢
    split at hst
    · exact ih hst
    · cases hst
    · cases hst

/-- Nothing has faulted, the program is checked, the host is not halted, and the next turns' movers are `ms`. -/
structure State.Going (s : State) (ms : List Mover) : Prop where
  faults : s.faults = []
  checked : s.checked = true
  halted : s.halted = false
  sched : s.env.sched = ms

theorem State.Ready.going {s : State} {ms : List Mover} (h : s.Ready ms) : s.Going ms := by
  obtain ⟨hf, hc, hh, -, hs⟩ := h
  exact ⟨hf, hc, hh, hs⟩

theorem State.Going.nextMover {s : State} {m : Mover} {ms : List Mover} (h : s.Going (m :: ms)) : s.nextMover = m := by
  rw [State.nextMover, h.sched]

theorem State.Going.step_eq {s : State} {m : Mover} {ms : List Mover} (h : s.Going (m :: ms)) : step s = s.afterTurn.moverStep m := by
  rw [step_eq_moverStep h.faults h.checked, h.nextMover]

theorem State.Going.afterTurn {s : State} {m : Mover} {ms : List Mover} (h : s.Going (m :: ms)) : s.afterTurn.Going ms :=
  ⟨h.faults, h.checked, h.halted, by rw [State.afterTurn_env, h.sched]; rfl⟩

/-! ### The host's turns inside an expansion -/

/-- `s` after `n` turns in which the block, the device and the level of the select pin may have changed, and nothing else: what the turns
of a composite operation make of the machine until its end, besides the micro-cursor. -/
def State.during (s : State) (n : Nat) (b : Block) (dev : Dev) (cs : Bool) : State :=
  { s with
    block := b, dev := dev, gpioCs := cs
    env := { s.env with sched := s.env.sched.drop n, draws := s.env.draws + n } }

section
variable {s : State} {ms : List Mover} {n : Nat} {b : Block} {dev : Dev} {cs : Bool}

theorem during_afterTurn : (s.during n b dev cs).afterTurn = s.during (n + 1) b dev cs := by
  simp only [State.afterTurn, State.during, List.tail_drop]
  rfl

theorem State.Going.expansion (h : s.Going ms) {m : Mover} (hm : ms[n]? = some m) (o : Composite) (k : Nat) :
    State.Going ((s.during n b dev cs).toStep o k) (m :: ms.drop (n + 1)) := by
  obtain ⟨hlt, rfl⟩ := List.getElem?_eq_some_iff.mp hm
  rw [← List.drop_eq_getElem_cons hlt]
  exact ⟨h.faults, h.checked, h.halted, congrArg (List.drop n) h.sched⟩

/-- A turn inside an expansion is its mover's step, after the turn is counted. -/
theorem State.Going.expansion_step (h : s.Going ms) {m : Mover} (hm : ms[n]? = some m) (o : Composite) (k : Nat) :
    step ((s.during n b dev cs).toStep o k) = ((s.during (n + 1) b dev cs).toStep o k).moverStep m := by
  rw [(h.expansion hm o k).step_eq, ← during_afterTurn]
  rfl

/-- A turn of the host inside an expansion is the step of the expansion. -/
theorem State.Going.expansionTurn (h : s.Going ms) {o : Composite} {k : Nat} {t : State} (hm : ms[n]? = some .host)
    (hstep : compositeStep { op := o, step := k } ((s.during (n + 1) b dev cs).toStep o k) = .ok t) :
    Reaches 1 ((s.during n b dev cs).toStep o k) t := by
  refine reaches_of_step ((h.expansion_step hm o k).trans ?_)
  have hhost := hostStep_toStep (s := s.during (n + 1) b dev cs) h.halted o k
  rwa [hstep, finish_ok] at hhost

end

/-- The host's turn at a composite operation is its step 0. -/
theorem State.Ready.startTurn {s : State} {ms : List Mover} {i : Instr} {ws : List Word} {o : Composite} {k : Nat}
    (h : s.Ready (.host :: ms)) (hdec : decode (s.prog.drop s.pc) = .ok (i, ws))
    (hexec : exec i s.afterTurn = .next (s.afterTurn.toStep o k)) :
    Reaches 1 s ((s.during 1 s.block s.dev s.gpioCs).toStep o k) := by
  have hcur : s.afterTurn.cursor = none := h.2.2.2.1
  have hfetch : s.afterTurn.fetch = .ok i := fetch_of_decode hdec
  have hturn : s.afterTurn = s.during 1 s.block s.dev s.gpioCs := during_afterTurn (n := 0)
  refine reaches_of_step (h.going.step_eq.trans ?_)
  rw [← hturn, ← hexec]
  exact hostStep_of_fetch_ok h.going.halted hcur hfetch

end Sys2Proof.Machine
end

section
/-! `CONFIG` run to its end (44_operations.md R133, R136). -/

namespace Sys2Proof.Machine

theorem dividerSearch_prescale_even {p : Params} {b : Nat} {r : DividerSetting} (h : dividerSearch p b = some r) :
    r.prescale % 2 = 0 := by
  unfold dividerSearch at h
  split at h
  · exact ((closestSearchIsClosest _ _).2 r h).1
  · exact ((sdkSearchNeverExceedsRequest _ _).2 r h).1

/-! ### The block a `CONFIG` leaves -/

/-- The block once its reset has been released and acknowledged. -/
def Block.acknowledged : Block := { Block.reset with inReset := false, rstDone := true }

/-- The block after the writes of `j` steps, the first of them step 4. -/
def Block.afterConfigSteps (b : Block) (variant : BuildVariant) (mode : BitVec 2) (wid : BitVec 5) (t : ConfigTemps) : Nat → Block
  | 0 => b
  | j + 1 => (b.afterConfigSteps variant mode wid t j).afterConfigStep variant mode wid t (4 + j)

/-- The block after the writes of steps 4 to 9, enabled by step 10. -/
def Block.configured (variant : BuildVariant) (mode : BitVec 2) (wid : BitVec 5) (t : ConfigTemps) : Block :=
  (Block.acknowledged.afterConfigSteps variant mode wid t 6).enable

theorem evenPrescale_eq {p : Nat} (h : p % 2 = 0) : (BitVec.ofNat 32 p).setWidth 8 &&& 0xFE = BitVec.ofNat 8 p := by
  have hmask : ∀ x : BitVec 8, x.getLsbD 0 = false → x &&& 0xFE = x := by decide
  rw [BitVec.setWidth_ofNat_of_le (by decide)]
  refine hmask _ ?_
  rw [BitVec.getLsbD_ofNat, Nat.testBit_zero, h]
  rfl

/-- The second divisor's field, written to SSPCR0 at its reset value, lies outside the format's. -/
theorem divisorField_eq (variant : BuildVariant) (x : Nat) :
    ((0#16 &&& 0x00FF#16) ||| ((BitVec.ofNat 32 x <<< 8) &&& 0xFF00).setWidth 16) &&& ~~~((formatMask variant).setWidth 16) =
      BitVec.ofNat 16 x <<< 8 := by
  ext i hi
  cases variant <;> interval_cases i <;> simp [formatMask]

theorem formatField_eq : ∀ (variant : BuildVariant) (mode : BitVec 2) (wid : BitVec 5), mode ≠ 3 → (variant = .base → mode = 0) →
    4 ≤ wid.toNat → wid.toNat ≤ 16 → (formatValue variant mode wid &&& formatMask variant).setWidth 16 =
      (mode.setWidth 16 <<< 4) ||| BitVec.ofNat 16 (wid.toNat - 1) := by
  intro variant
  cases variant <;> decide

theorem configured_eq {variant : BuildVariant} {mode : BitVec 2} {wid : BitVec 5} {r : DividerSetting} (hmode : mode ≠ 3)
    (hbase : variant = .base → mode = 0) (hlow : 4 ≤ wid.toNat) (hhigh : wid.toNat ≤ 16) (heven : r.prescale % 2 = 0) :
    Block.configured variant mode wid r.temps = {
      cr0 := (BitVec.ofNat 16 (r.postdiv - 1) <<< 8) ||| (mode.setWidth 16 <<< 4) ||| BitVec.ofNat 16 (wid.toNat - 1)
      cr1 := 0x2, cpsdvsr := BitVec.ofNat 8 r.prescale, imsc := 0, dmacr := 0x3, txq := [], rxq := []
      rtLatch := false, rorLatch := false, inReset := false, rstDone := true } := by
  have hcr1 : (0#4 &&& 0xD &&& 0xD &&& 0xD) ||| 0x2 = 0x2 := by decide
  rw [← hcr1, ← evenPrescale_eq heven, BitVec.or_assoc, ← formatField_eq variant mode wid hmode hbase hlow hhigh, ← divisorField_eq variant]
  rfl

/-- The configured block's format is the mode asked for, whatever the divisor is. -/
theorem format_of_fields (x : BitVec 16) : ∀ (mode : BitVec 2) (wid : BitVec 5), wid.toNat ≤ 16 →
    ((x <<< 8) ||| (mode.setWidth 16 <<< 4) ||| BitVec.ofNat 16 (wid.toNat - 1)).extractLsb' 4 2 = mode := by
  have hfields : ∀ (mode : BitVec 2) (wid : BitVec 5), wid.toNat ≤ 16 →
      ((mode.setWidth 16 <<< 4) ||| BitVec.ofNat 16 (wid.toNat - 1)).extractLsb' 4 2 = mode := by decide
  have hdivisor : (x <<< 8).extractLsb' 4 2 = 0 := by
    ext i hi
    interval_cases i <;> simp
  intro mode wid hwid
  rw [BitVec.or_assoc, BitVec.extractLsb'_or, hdivisor, hfields mode wid hwid]
  exact BitVec.zero_or

/-! ### The turns -/

section
variable {s : State} {ms : List Mover} {d : HIdx} {mode : BitVec 2} {wid : BitVec 5} {t : ConfigTemps} {n k : Nat} {b : Block}
  {dev : Dev} {cs : Bool}

/-- The device once the block has been reset: turned off where the block held its select line low (70_reset_and_hazards.md R181). -/
def State.devReset (s : State) : Dev :=
  if s.params.devicePresent = true ∧ s.selfn = .periph ∧ s.block.fssIdle = false then .off else s.dev

/-- Steps 1 to 3 with the acknowledgement before the third: the block has been through its reset (R133). -/
theorem config_resets (hgo : s.Going ms) (h1 : ms[1]? = some .host) (h2 : ms[2]? = some .host) (h3 : ms[3]? = some .resetCtl)
    (h4 : ms[4]? = some .host) :
    Reaches 4 ((s.during 1 s.block s.dev cs).toStep (.config d mode wid t) 1)
      ((s.during 5 Block.acknowledged s.devReset cs).toStep (.config d mode wid t) 4) := by
  have hreset : Reaches 1 ((s.during 1 s.block s.dev cs).toStep (.config d mode wid t) 1)
      ((s.during 2 Block.reset s.devReset cs).toStep (.config d mode wid t) 2) := hgo.expansionTurn h1 (by
    let u := (s.during 2 s.block s.dev cs).toStep (.config d mode wid t) 1
    have hassert : u.assertReset = { u with block := Block.reset, dev := s.devReset } := by
      rw [State.assertReset, settleSelect_block, State.devAt_reset]
      rfl
    simp only [compositeStep, configStep]
    rw [hassert]
    rfl)
  have hrelease : Reaches 1 ((s.during 2 Block.reset s.devReset cs).toStep (.config d mode wid t) 2)
      ((s.during 3 { Block.reset with inReset := false } s.devReset cs).toStep (.config d mode wid t) 3) := hgo.expansionTurn h2 (by
    have hrel := releaseReset_eq (s := (s.during 3 Block.reset s.devReset cs).toStep (.config d mode wid t) 2) Block.reset_inv
    simp only [compositeStep, configStep, hrel]
    rfl)
  have hack : Reaches 1 ((s.during 3 { Block.reset with inReset := false } s.devReset cs).toStep (.config d mode wid t) 3)
      ((s.during 4 Block.acknowledged s.devReset cs).toStep (.config d mode wid t) 3) := by
    refine reaches_of_step ((hgo.expansion_step h3 _ _).trans ?_)
    have hinv : Block.Inv { Block.reset with inReset := false } := Block.reset_inv.release
    rw [State.moverStep, resetCtlStep_eq (by exact hinv)]
    rfl
  exact ((hreset.trans hrelease).trans hack).trans (hgo.expansionTurn h4 rfl)

/-- The turns of the steps from 4 to at most 9. -/
theorem config_writes (hgo : s.Going ms) (hm : ∀ i < 6, ms[n + i]? = some .host)
    (hwf : Cursor.wf ⟨.config d mode wid t, 4⟩ b = true) {j : Nat} (hj : j ≤ 6) :
    Reaches j ((s.during n b dev cs).toStep (.config d mode wid t) 4)
        ((s.during (n + j) (b.afterConfigSteps s.params.variant mode wid t j) dev cs).toStep (.config d mode wid t) (4 + j)) ∧
      Cursor.wf ⟨.config d mode wid t, 4 + j⟩ (b.afterConfigSteps s.params.variant mode wid t j) = true := by
  induction j with
  | zero => exact ⟨rfl, hwf⟩
  | succ j ih =>
    obtain ⟨hreach, hwf⟩ := ih (by omega)
    let u := (s.during (n + j + 1) (b.afterConfigSteps s.params.variant mode wid t j) dev cs).toStep (.config d mode wid t) (4 + j)
    have hstep := configStep_writes (s := u) (by omega) hwf
    refine ⟨hreach.trans (hgo.expansionTurn (hm j (by omega)) hstep), ?_⟩
    have hinv : u.CursorInv := fun c hc => by cases hc; exact hwf
    exact (configStep_keepsInvariants (s := u) rfl hstep).cursor hinv _ rfl

/-- The turn of step 10: the block is enabled, `H[D]` is written and the operation ends. -/
theorem config_enables (hgo : s.Going ms) (hm : ms[n]? = some .host) (hwf : Cursor.wf ⟨.config d mode wid t, 10⟩ b = true) :
    Reaches 1 ((s.during n b dev cs).toStep (.config d mode wid t) 10) { s.during (n + 1) b.enable
        (if s.params.devicePresent = true ∧ s.selfn = .periph ∧ b.frf = 1 then .sel 0 none none [] none else dev) cs with
      h := s.h.set d (.holds (BitVec.ofNat 32 t.achieved)), pc := s.pc + 1, cursor := none } :=
  hgo.expansionTurn (o := .config d mode wid t) (k := 10) hm
    (configStep_enables (s := (s.during (n + 1) b dev cs).toStep (.config d mode wid t) 10) hwf)

end

/-! ### The device -/

/-- What the reset and the enabling make of the device together (R136, R181). -/
theorem device_configured (s : State) (mode : BitVec 2) :
    (if s.params.devicePresent = true ∧ s.selfn = .periph ∧ mode = 1 then .sel 0 none none [] none else s.devReset) =
      if s.params.devicePresent = false ∨ s.selfn = .gpio then s.dev
      else if mode = 1 then .sel 0 none none [] none
      else if s.deviceCs = false then .off
      else s.dev := by
  cases hp : s.params.devicePresent <;> cases hfn : s.selfn <;> simp [State.devReset, State.deviceCs, hp, hfn]

/-- Settles O36: step 0, the reset, the six writes to the block and the enabling, one turn after another. -/
theorem configReachesEndState : Obligations.ConfigReachesEndState := by
  intro s d a bus mode wid b r ms ws hready hdec ha hbus hlow hhigh hmode hbase hrate hinst hidle
  have hgo := hready.going
  have hcheck : s.afterTurn.configCheck b bus mode .msbFirst wid = .ok r :=
    configCheck_ok (s := s.afterTurn) hbus hlow hhigh hmode hbase hrate hinst hidle
  have hstart := hready.startTurn hdec (exec_config_ok (s := s.afterTurn) ha hcheck d)
  have hresets := config_resets (d := d) (mode := mode) (wid := wid) (t := r.temps) (cs := s.gpioCs) hgo rfl rfl rfl rfl
  obtain ⟨hwrites, hwf⟩ := config_writes (d := d) (mode := mode) (wid := wid) (t := r.temps) (b := Block.acknowledged)
    (dev := s.devReset) (cs := s.gpioCs) (n := 5) hgo (fun i hi => by interval_cases i <;> rfl) rfl le_rfl
  have henables := config_enables (n := 11) (dev := s.devReset) (cs := s.gpioCs) hgo rfl hwf
  have hrun := ((hstart.trans hresets).trans hwrites).trans henables
  have hblock := configured_eq hmode hbase hlow hhigh (dividerSearch_prescale_even hrate)
  have hfrf : (Block.acknowledged.afterConfigSteps s.params.variant mode wid r.temps 6).frf = mode := by
    change (Block.configured s.params.variant mode wid r.temps).frf = mode
    rw [hblock]
    exact format_of_fields _ mode wid hhigh
  have hsched : s.env.sched.drop 12 = ms := by rw [hgo.sched]; rfl
  rw [hfrf, device_configured, ← Block.configured, hblock, State.during, hsched] at hrun
  obtain ⟨-, -, -, hcur, -⟩ := hready
  rw [hcur]
  exact hrun

end Sys2Proof.Machine
end

section
/-! `XFER` run to its end in loopback (44_operations.md R139, 42_serial_engine.md R103, R109): its writes, the frames, its reads. -/

namespace Sys2Proof.Machine

/-! ### Frames leave the schedule alone -/

theorem drawBits_sched (n : Nat) (e : Env) : (Env.drawBits n e).2.sched = e.sched := by
  induction n generalizing e with
  | zero => rfl
  | succ n ih => exact ih e.bump

theorem drawSample_sched (e : Env) (ch : BitVec 3) (sgl : Bool) : (e.drawSample ch sgl).2.sched = e.sched := by
  unfold Env.drawSample
  split <;> rfl

theorem outputBit_sched (k : Nat) (s : Option Nat) (v : Option (BitVec 12)) (e : Env) : (outputBit k s v e).2.sched = e.sched := by
  unfold outputBit
  repeat' split
  all_goals rfl

theorem latchBit_sched (k : Nat) (x : Bool) (s : Option Nat) (m : Option Bool) (ds : List Bool) (v : Option (BitVec 12)) (e : Env) :
    (latchBit k x s m ds v e).2.sched = e.sched := by
  unfold latchBit
  split
  · rfl
  · split_ifs
    · rfl
    · rfl
    · exact drawSample_sched _ _ _
    · rfl

theorem edge_sched (d : Dev) (x : Bool) (e : Env) : (d.edge x e).2.2.sched = e.sched := by
  cases d with
  | off => rfl
  | unknown => rfl
  | sel k s m ds v => exact (latchBit_sched _ _ _ _ _ _ _).trans (outputBit_sched _ _ _ _)

theorem edges_sched (d : Dev) (e : Env) (xs : List Bool) : (d.edges e xs).2.2.sched = e.sched := by
  induction xs generalizing d e with
  | nil => rfl
  | cons x xs ih => exact (ih _ _).trans (edge_sched d x e)

theorem wireFrame_sched (s : State) (mosi : List Bool) : (s.wireFrame mosi).2.2.sched = s.env.sched := by
  unfold State.wireFrame
  split
  · exact drawBits_sched _ _
  · split
    · exact edges_sched _ _ _
    · exact drawBits_sched _ _

theorem frameStep_sched (s : State) : s.frameStep.env.sched = s.env.sched := by
  obtain heq | ⟨r, -, heq⟩ | ⟨hd, rest, -, -, -, -, heq⟩ := frameStep_cases s <;> rw [heq]
  · rfl
  · exact wireFrame_sched { s with block := { s.block with txq := rest } } _

/-- A frame turn takes its mover off the schedule and no more. -/
theorem State.Going.frame_sched {s t : State} {ms : List Mover} (h : s.Going (.engineFrame :: ms)) (hstep : step s = .next t) :
    t.env.sched = ms := by
  rw [h.step_eq] at hstep
  cases hstep
  rw [frameStep_sched, h.afterTurn.sched]

/-! ### The frames -/

/-- The block with other words in its two FIFOs. -/
def Block.withFifos (b : Block) (txq rxq : List Half) : Block := { b with txq := txq, rxq := rxq }

theorem withFifos_of_empty {b : Block} (htx : b.txq = []) (hrx : b.rxq = []) : b.withFifos [] [] = b := by
  cases b
  cases htx
  cases hrx
  rfl

/-- What a frame in loopback receives of a word sent: its low `DSS + 1` bits (42_serial_engine.md R102). -/
def Block.cut (b : Block) (w : Half) : Half := BitVec.ofNat 16 (w.toNat % 2 ^ (b.dss.toNat + 1))

/-- Frames in loopback until the transmit FIFO is empty. -/
theorem frames_loopback {ms : List Mover} {b : Block} (hsend : b.CanSend) (hlbm : b.lbm = true) (ws rs : List Half) {u : State}
    (hgo : u.Going (List.replicate ws.length .engineFrame ++ ms)) (hblock : u.block = b.withFifos ws rs)
    (hroom : rs.length + ws.length ≤ 8) : ∃ dev env, env.sched = ms ∧
      Reaches ws.length u { u with block := b.withFifos [] (rs ++ ws.map b.cut), dev := dev, env := env } := by
  induction ws generalizing u rs with
  | nil =>
    refine ⟨u.dev, u.env, hgo.sched, ?_⟩
    rw [List.map_nil, List.append_nil, ← hblock]
    exact .refl u
  | cons w ws ih =>
    rw [List.length_cons] at hroom
    have hlen : u.block.rxq.length = rs.length := congrArg (·.rxq.length) hblock
    obtain ⟨dev, env, hstep⟩ := loopbackFrame u w ws hgo.faults hgo.checked hgo.nextMover (hblock ▸ hsend) (hblock ▸ hlbm)
      (congrArg Block.txq hblock) (by omega)
    rw [if_neg (by omega), hblock] at hstep
    obtain ⟨dev', env', hsched', hreach⟩ := ih (rs ++ [b.cut w])
      (u := { u with block := b.withFifos ws (rs ++ [b.cut w]), dev := dev, env := env })
      ⟨hgo.faults, hgo.checked, hgo.halted, hgo.frame_sched hstep⟩ rfl (by rw [List.length_append, List.length_singleton]; omega)
    rw [List.append_assoc] at hreach
    have hall := (reaches_of_step hstep).trans hreach
    rw [Nat.add_comm] at hall
    exact ⟨dev', env', hsched', hall⟩

/-! ### The steps of the transfer that take effect -/

section
variable {s : State} {d : HIdx} {t : XferTemps} {k : Nat}

theorem transferStep_write_ok {w : Word} (hin : s.block.inReset = false) (hdone : s.block.rstDone = true)
    (hroom : s.block.txq.length < 8) (hk : 1 ≤ k) (hw : t.tx[k - 1]? = some w) : transferStep t s k =
      .ok (t, { s with block := { s.block with txq := s.block.txq ++ [w.setWidth 16] } }) := by
  rw [transferStep_write s hk hw, if_neg (by simp [hin, hdone]), if_neg (Nat.not_le.mpr hroom)]

theorem transferStep_read_ok {w : Half} {ws : List Half} (hin : s.block.inReset = false) (hdone : s.block.rstDone = true)
    (hk : t.tx.length < k) (hq : s.block.rxq = w :: ws) : transferStep t s k =
      .ok ({ t with rx := t.rx ++ [w.setWidth 32] }, { s with block := { s.block with rxq := ws } }) := by
  rw [transferStep_read hk hq, if_neg (by simp [hin, hdone])]

end

/-! ### The host's turns -/

section
variable {s : State} {ms : List Mover} {d : HIdx} {tx : List Word} {b : Block} {dev : Dev} {cs : Bool}

/-- The writes of the transmit words. -/
theorem xfer_writes {n : Nat} (hgo : s.Going ms) (hin : b.inReset = false) (hdone : b.rstDone = true) (hlen : tx.length ≤ 8)
    (hm : ∀ i < tx.length, ms[n + i]? = some .host) {j : Nat} (hj : j ≤ tx.length) :
    Reaches j ((s.during n (b.withFifos [] []) dev cs).toStep (.xfer d ⟨tx, []⟩) 1)
      ((s.during (n + j) (b.withFifos ((tx.take j).map (·.setWidth 16)) []) dev cs).toStep (.xfer d ⟨tx, []⟩) (j + 1)) := by
  induction j with
  | zero => exact .refl _
  | succ j ih =>
    refine (ih (by omega)).trans (hgo.expansionTurn (hm j hj) ?_)
    have hw : tx[j]? = some tx[j] := List.getElem?_eq_getElem hj
    have hroom : ((tx.take j).map (·.setWidth 16)).length < 8 := by rw [List.length_map, List.length_take]; omega
    rw [List.take_add_one, hw, Option.toList_some, List.map_append, List.map_singleton]
    exact (xferStep_eq ..).trans (by
      rw [transferStep_write_ok hin hdone hroom (Nat.le_add_left 1 j) hw, ok_bind, xferNext_of_not_last (by dsimp only; omega)]
      rfl)

/-- The reads of the received words, the last of which ends the operation. -/
theorem xfer_reads (hgo : s.Going ms) (hin : b.inReset = false) (hdone : b.rstDone = true) (w : Half) (ws : List Half) {rx : List Word}
    {n : Nat} (hlen : rx.length + (ws.length + 1) = tx.length) (hm : ∀ i ≤ ws.length, ms[n + i]? = some .host) :
    Reaches (ws.length + 1)
      ((s.during n (b.withFifos [] (w :: ws)) dev cs).toStep (.xfer d ⟨tx, rx⟩) (tx.length + rx.length + 1))
      { s.during (n + (ws.length + 1)) (b.withFifos [] []) dev cs with
        h := setRange s.h d.val (rx ++ (w :: ws).map (·.setWidth 32)), pc := s.pc + 1, cursor := none } := by
  induction ws generalizing w rx n with
  | nil =>
    rw [List.length_nil] at hlen
    refine hgo.expansionTurn (hm 0 le_rfl) ((xferStep_eq ..).trans ?_)
    rw [transferStep_read_ok hin hdone (by dsimp only; omega) rfl, ok_bind, xferNext_of_last (by dsimp only; omega)]
    rfl
  | cons w' ws ih =>
    rw [List.length_cons] at hlen hm
    have hfirst : Reaches 1 ((s.during n (b.withFifos [] (w :: w' :: ws)) dev cs).toStep (.xfer d ⟨tx, rx⟩) (tx.length + rx.length + 1))
        ((s.during (n + 1) (b.withFifos [] (w' :: ws)) dev cs).toStep (.xfer d ⟨tx, rx ++ [w.setWidth 32]⟩)
          (tx.length + (rx.length + 1) + 1)) :=
      hgo.expansionTurn (hm 0 (Nat.zero_le _)) ((xferStep_eq ..).trans (by
        rw [transferStep_read_ok hin hdone (by dsimp only; omega) rfl, ok_bind, xferNext_of_not_last (by dsimp only; omega)]
        rfl))
    have hrest := ih w' (rx := rx ++ [w.setWidth 32]) (n := n + 1) (by rw [List.length_append, List.length_singleton]; omega)
      fun i hi => by rw [Nat.add_assoc, Nat.add_comm 1]; exact hm (i + 1) (by omega)
    rw [List.length_append, List.length_singleton, List.append_assoc] at hrest
    have hall := hfirst.trans hrest
    rwa [Nat.add_assoc n, Nat.add_comm 1] at hall

end

/-! ### The run -/

theorem decode_wellFormed {ws rest : List Word} {i : Instr} (h : decode ws = .ok (i, rest)) : i.WellFormed := by
  cases ws with
  | nil => cases h
  | cons w ws => exact (encodeOfDecode w ws rest i h).2.1

theorem getElem?_hosts_append {i m : Nat} (h : i < m) (ms : List Mover) : (hosts m ++ ms)[i]? = some .host := by
  rw [hosts, List.getElem?_append_left (by rwa [List.length_replicate]), List.getElem?_replicate, if_pos h]

/-- A word sent and received in loopback, in `H` again: its low `DSS + 1` bits (R102). -/
theorem setWidth_cut (b : Block) (w : Word) :
    (b.cut (w.setWidth 16)).setWidth 32 = BitVec.ofNat 32 (w.toNat % 2 ^ (b.dss.toNat + 1)) := by
  have hwidth : b.dss.toNat + 1 ≤ 16 := by have := b.dss.isLt; omega
  have hlt : w.toNat % 2 ^ (b.dss.toNat + 1) < 2 ^ 16 := (Nat.mod_lt _ (by positivity)).trans_le (Nat.pow_le_pow_right (by decide) hwidth)
  rw [Block.cut, BitVec.toNat_setWidth, Nat.mod_mod_of_dvd _ (Nat.pow_dvd_pow 2 hwidth)]
  apply BitVec.eq_of_toNat_eq
  rw [BitVec.toNat_setWidth, BitVec.toNat_ofNat, BitVec.toNat_ofNat, Nat.mod_eq_of_lt hlt]

/-- Settles O40: the writes fill the transmit FIFO, the frames carry its words over to the receive FIFO, and the reads empty that. -/
theorem xferLoopbackReturnsWords : Obligations.XferLoopbackReturnsWords := by
  intro s d a n tx ms ws hready hdec hlen hholds hsend hlbm htx hrx
  have hlegal : xferLegal d a n = true := decode_wellFormed hdec
  obtain ⟨hone, height, -, hrange⟩ := xferLegal_iff.mp hlegal
  have hexec := xferStarts s.afterTurn d a n tx hlegal hlen hholds
  rw [← hlen] at hready hone height hrange ⊢
  rw [List.append_assoc, List.append_assoc] at hready
  have hgo := hready.going
  have ⟨hin, hdone, _⟩ := hsend
  have hempty := withFifos_of_empty htx hrx
  have hstart := hready.startTurn hdec hexec
  rw [← hempty] at hstart
  have hwrites := xfer_writes (d := d) (b := s.block) (dev := s.dev) (cs := s.gpioCs) (n := 1) hgo hin hdone height
    (fun i hi => getElem?_hosts_append (by omega) _) le_rfl
  rw [List.take_length] at hwrites
  have hgo' : State.Going ((s.during (1 + tx.length) (s.block.withFifos (tx.map (·.setWidth 16)) []) s.dev s.gpioCs).toStep
      (.xfer d ⟨tx, []⟩) (tx.length + 1)) (List.replicate (tx.map (·.setWidth 16)).length .engineFrame ++ (hosts tx.length ++ ms)) := by
    refine ⟨hgo.faults, hgo.checked, hgo.halted, (congrArg (List.drop (1 + tx.length)) hgo.sched).trans ?_⟩
    rw [List.length_map]
    exact List.drop_left' (by rw [hosts, List.length_replicate, Nat.add_comm])
  obtain ⟨dev, env, hsched, hframes⟩ := frames_loopback hsend hlbm _ [] hgo' rfl (by simpa using height)
  have hgo'' : State.Going { s with dev := dev, env := env } (hosts tx.length ++ ms) :=
    ⟨hgo.faults, hgo.checked, hgo.halted, hsched⟩
  obtain ⟨x, xs, rfl⟩ := List.exists_cons_of_length_pos hone
  have hreads := xfer_reads (d := d) (tx := x :: xs) (dev := dev) (cs := s.gpioCs) (rx := []) (n := 0) hgo'' hin hdone
    (s.block.cut (x.setWidth 16)) ((xs.map (·.setWidth 16)).map s.block.cut) (by simp)
    (fun i hi => getElem?_hosts_append (by simp at hi ⊢; omega) _)
  rw [hempty] at hreads
  have hrun := ((hstart.trans hwrites).trans hframes).trans hreads
  have hcount : 1 + (x :: xs).length + ((x :: xs).map (·.setWidth 16)).length +
      (((xs.map (·.setWidth 16)).map s.block.cut).length + 1) = 3 * (x :: xs).length + 1 := by
    simp only [List.length_cons, List.length_map]; omega
  rw [hcount] at hrun
  obtain ⟨-, -, -, hcur, -⟩ := hready
  obtain ⟨hreceived, hothers⟩ := setRange_spec ((((x :: xs).map (·.setWidth 16)).map s.block.cut).map (·.setWidth 32)) s.h d.val
    (by simpa using hrange)
  rw [hcur]
  refine ⟨_, dev, _, hrun, fun k w i hk hi => ?_, fun i hi => hothers i (by simpa using hi)⟩
  rw [← setWidth_cut]
  exact hreceived k _ i (by simp only [List.getElem?_map, hk, Option.map_some]) hi

end Sys2Proof.Machine
end

section
/-! `READCH` run to its end (44_operations.md R144 to R146): the host's turns of both expansions and the frames between them. -/

namespace Sys2Proof.Machine

/-! ### Commands and samples -/

theorem channel_eq (ch : Word) : (ch.setWidth 3).setWidth 32 = ch &&& 7 := by
  rw [and_channelMask]
  apply BitVec.eq_of_toNat_eq
  simp only [BitVec.toNat_setWidth, BitVec.toNat_ofNat]

/-- The sample of the two words that carry a conversion value (43_codec.md R131). -/
theorem wideSample_reply (x : BitVec 7) (v : BitVec 12) :
    wideSample (((x.setWidth 16 <<< 3) ||| (v.extractLsb' 10 2).setWidth 16).setWidth 32)
      ((BitVec.ofNat 16 (v.toNat % 2 ^ 10)).setWidth 32) = v.setWidth 32 := by
  have hv := v.isLt
  have htop : (v.extractLsb' 10 2).toNat = v.toNat / 1024 := by
    rw [BitVec.extractLsb'_toNat, Nat.shiftRight_eq_div_pow]
    omega
  have hfirst : ((x.setWidth 16 <<< 3) ||| (v.extractLsb' 10 2).setWidth 16).toNat % 4 = v.toNat / 1024 := by
    have hzero : (x.setWidth 16 <<< 3).toNat % 2 ^ 2 = 0 := by
      rw [BitVec.toNat_shiftLeft, Nat.shiftLeft_eq]
      omega
    rw [BitVec.toNat_or, show 4 = 2 ^ 2 from rfl, Nat.or_mod_two_pow, hzero, Nat.zero_or, BitVec.toNat_setWidth, htop]
    omega
  apply BitVec.eq_of_toNat_eq
  rw [toNat_wideSample]
  simp only [BitVec.toNat_setWidth, BitVec.toNat_ofNat]
  omega

theorem narrowSample_reply (v : BitVec 12) : narrowSample ((v.setWidth 16).setWidth 32) = v.setWidth 32 := by
  apply BitVec.eq_of_toNat_eq
  have hv := v.isLt
  rw [narrowSample, toNat_and_sampleMask]
  simp only [BitVec.toNat_setWidth]
  omega

/-! ### The frames -/

/-- The second frame of a wide reading returns the conversion value's low ten bits (60_exceptions.md R166). -/
theorem sendWord_reply {s : State} {m : Option Bool} {ds : List Bool} {v : BitVec 12} (hsend : s.block.CanSend)
    (hlbm : s.block.lbm = false) (hdss : s.block.dss = 9) (hfrf : s.block.frf = 0) (hclock : s.block.spo = s.block.sph)
    (hroom : s.block.rxq.length < 8) (hdev : s.params.devicePresent = true) (hsel : s.selfn = .gpio)
    (hpos : s.dev = .sel 10 (some 2) m ds (some v)) : ∃ dev, s.sendWord 0 = { s with
      block := { s.block with rxq := s.block.rxq ++ [BitVec.ofNat 16 (v.toNat % 2 ^ 10)] }, dev := dev } := by
  have hclean : s.block.cleanFrame = true := by simp [Block.cleanFrame, Block.samplesRising, hfrf, hclock]
  have hbits : s.block.frameBits ((0 : Word).setWidth 16) = List.replicate 10 false := by
    simp only [Block.frameBits, hfrf, Block.width, hdss]
    decide
  have hbefore : s.devBefore = .sel 10 (some 2) m ds (some v) := by rw [State.devBefore, hsel]; exact hpos
  have hwire : s.devBefore.edges s.env (s.block.frameBits ((0 : Word).setWidth 16)) =
      ((List.range 10).map fun i => v.getLsbD (11 - (2 + i)), .sel 20 (some 2) m ds (some v), s.env) := by
    rw [hbefore, hbits]
    exact edges_value 2 m ds v s.env (List.replicate 10 false) rfl (by decide)
  have hreceived : s.block.receivedWord ((List.range 10).map fun i => v.getLsbD (11 - (2 + i))) =
      BitVec.ofNat 16 (v.toNat % 2 ^ 10) := by
    have hlow : (fun i => v.getLsbD (11 - (2 + i))) = fun i => v.getLsbD (10 - 1 - i) :=
      funext fun i => congrArg v.getLsbD (by omega)
    rw [Block.receivedWord, Block.sampledBits, hfrf, if_neg (by decide), hlow, bitsToNat_range_getLsbD]
  have hsent := sendWord_clean hsend hlbm hroom hdev hclean hwire
  rw [hreceived] at hsent
  exact ⟨_, hsent⟩

/-- The block sends the frames of a wide reading to a device selected by the pin, whose bits come back (R144, R168). -/
structure State.SendsWide (s : State) (b : Block) : Prop where
  canSend : b.CanSend
  notLoopback : b.lbm = false
  width : b.dss = 9
  format : b.frf = 0
  clean : b.spo = b.sph
  present : s.params.devicePresent = true
  software : s.selfn = .gpio

theorem State.SendsWide.congr {s t : State} {b : Block} (h : s.SendsWide b) (hp : t.params = s.params) (hf : t.selfn = s.selfn) :
    t.SendsWide b :=
  ⟨h.canSend, h.notLoopback, h.width, h.format, h.clean, by rw [hp]; exact h.present, hf.trans h.software⟩

section
variable {u : State} {ms : List Mover} {b : Block}

/-- The first frame of a wide reading: the command, to a device just selected (43_codec.md R131). -/
theorem State.SendsWide.command (h : u.SendsWide b) {ch : Word} {w : Half} (hgo : u.Going (.engineFrame :: ms))
    (hblock : u.block = b.withFifos [(wideCommand ch).setWidth 16, w] []) (hfresh : u.dev = .sel 0 none none [] none) :
    ∃ v x m ds env, u.env.Converts (ch.setWidth 3) v ∧ env.sched = ms ∧ step u = .next { u with
      block := b.withFifos [w] [((x : BitVec 7).setWidth 16 <<< 3) ||| (v.extractLsb' 10 2).setWidth 16]
      dev := .sel 10 (some 2) m ds (some v), env := env } := by
  have hsends := step_sendsWord hgo.faults hgo.checked hgo.nextMover (congrArg Block.txq hblock)
  rw [hblock] at hsends
  obtain ⟨v, x, env, hconv, hwide⟩ := wideCommandReachesDevice { u.afterTurn with block := b.withFifos [w] [] } (ch.setWidth 3)
    h.canSend h.notLoopback h.width h.format h.clean (Nat.zero_lt_succ 7) h.present h.software hfresh
  rw [exec, execMcpCmdWide, channel_eq, wideCommand_and_channelMask] at hwide
  have hstep := hsends.trans hwide
  exact ⟨v, x, _, _, env, hconv, hgo.frame_sched hstep, hstep⟩

/-- The second frame: a zero word, for which the device returns the value's low ten bits. -/
theorem State.SendsWide.reply (h : u.SendsWide b) {y : Half} {m : Option Bool} {ds : List Bool} {v : BitVec 12}
    (hgo : u.Going (.engineFrame :: ms)) (hblock : u.block = b.withFifos [(0 : Word).setWidth 16] [y])
    (hpos : u.dev = .sel 10 (some 2) m ds (some v)) : ∃ dev env, env.sched = ms ∧ step u = .next { u with
      block := b.withFifos [] [y, BitVec.ofNat 16 (v.toNat % 2 ^ 10)], dev := dev, env := env } := by
  have hsends := step_sendsWord hgo.faults hgo.checked hgo.nextMover (congrArg Block.txq hblock)
  rw [hblock] at hsends
  obtain ⟨dev, hreply⟩ := sendWord_reply (s := { u.afterTurn with block := b.withFifos [] [y] }) h.canSend h.notLoopback h.width
    h.format h.clean (by decide : 1 < 8) h.present h.software hpos
  have hstep := hsends.trans (congrArg _ hreply)
  exact ⟨dev, _, hgo.frame_sched hstep, hstep⟩

/-- Both frames. -/
theorem State.SendsWide.frames (h : u.SendsWide b) {ch : Word} (hgo : u.Going (.engineFrame :: .engineFrame :: ms))
    (hblock : u.block = b.withFifos [(wideCommand ch).setWidth 16, (0 : Word).setWidth 16] [])
    (hfresh : u.dev = .sel 0 none none [] none) : ∃ v x dev env, u.env.Converts (ch.setWidth 3) v ∧ env.sched = ms ∧ Reaches 2 u { u with
      block := b.withFifos [] [((x : BitVec 7).setWidth 16 <<< 3) ||| (v.extractLsb' 10 2).setWidth 16, BitVec.ofNat 16 (v.toNat % 2 ^ 10)]
      dev := dev, env := env } := by
  obtain ⟨v, x, m, ds, env, hconv, hsched, hfirst⟩ := h.command hgo hblock hfresh
  obtain ⟨dev', env', hsched', hsecond⟩ := State.SendsWide.reply (b := b) (u := { u with
      block := b.withFifos [(0 : Word).setWidth 16] [(x.setWidth 16 <<< 3) ||| (v.extractLsb' 10 2).setWidth 16]
      dev := .sel 10 (some 2) m ds (some v), env := env })
    (h.congr rfl rfl) ⟨hgo.faults, hgo.checked, hgo.halted, hsched⟩ rfl rfl
  exact ⟨v, x, dev', env', hconv, hsched', (reaches_of_step hfirst).trans (reaches_of_step hsecond)⟩

/-- The frame of a narrow reading returns the conversion value and leaves the device deselected (43_codec.md R131). -/
theorem narrow_frame {ch : Word} (hsend : b.CanSend) (hlbm : b.lbm = false) (hdss : b.dss = 11) (hfrf : b.frf = 2)
    (hgo : u.Going (.engineFrame :: ms)) (hblock : u.block = b.withFifos [(narrowCommand ch).setWidth 16] [])
    (hdev : u.params.devicePresent = true) (hsel : u.selfn = .periph) :
    ∃ v env, u.env.Converts (ch.setWidth 3) v ∧ env.sched = ms ∧
      step u = .next { u with block := b.withFifos [] [v.setWidth 16], dev := .off, env := env } := by
  have hsends := step_sendsWord hgo.faults hgo.checked hgo.nextMover (congrArg Block.txq hblock)
  rw [hblock] at hsends
  obtain ⟨v, env, hconv, hnarrow⟩ := narrowCommandReturnsConversion { u.afterTurn with block := b.withFifos [] [] } (ch.setWidth 3)
    hsend hlbm hdss hfrf (Nat.zero_lt_succ 7) hdev hsel
  rw [exec, execMcpCmdNarrow, channel_eq, narrowCommand_and_channelMask] at hnarrow
  have hstep := hsends.trans hnarrow
  exact ⟨v, env, hconv, hgo.frame_sched hstep, hstep⟩

end

/-! ### The host's turns -/

/-- `s` inside a `READCH`, after `n` turns. -/
def State.reading (s : State) (d : HIdx) (v : CodecVariant) (ch : Word) (n : Nat) (b : Block) (dev : Dev) (cs : Bool) (cmd : Word)
    (tx rx : List Word) (k : Nat) : State :=
  (s.during n b dev cs).toStep (.readch d v ch cmd { tx := tx, rx := rx }) k

section
variable {s : State} {ms : List Mover} {d : HIdx} {v : CodecVariant} {ch cmd : Word} {tx rx : List Word} {b : Block} {dev : Dev}
  {cs : Bool} {n k i : Nat} {tq rq : List Half}

/-- The turn of a writing step of the transfer, with room in the transmit FIFO. -/
theorem readch_write (hgo : s.Going ms) (hm : ms[n]? = some .host) (hin : b.inReset = false) (hdone : b.rstDone = true)
    (hroom : tq.length < 8) (hi : 1 ≤ i) (hlast : i ≤ 2 * v.words) {w : Word} (hw : tx[i - 1]? = some w) :
    Reaches 1 (s.reading d v ch n (b.withFifos tq rq) dev cs cmd tx rx (v.lead + i))
      (s.reading d v ch (n + 1) (b.withFifos (tq ++ [w.setWidth 16]) rq) dev cs cmd tx rx (v.lead + i + 1)) :=
  hgo.expansionTurn hm ((compositeStep_readch_transfer hi hlast).trans (by
    rw [transferStep_write_ok hin hdone hroom hi hw, ok_bind]
    rfl))

/-- The turn of a reading step of the transfer, with a word in the receive FIFO. -/
theorem readch_read (hgo : s.Going ms) (hm : ms[n]? = some .host) (hin : b.inReset = false) (hdone : b.rstDone = true)
    (hi : tx.length < i) (hlast : i ≤ 2 * v.words) (w : Half) :
    Reaches 1 (s.reading d v ch n (b.withFifos tq (w :: rq)) dev cs cmd tx rx (v.lead + i))
      (s.reading d v ch (n + 1) (b.withFifos tq rq) dev cs cmd tx (rx ++ [w.setWidth 32]) (v.lead + i + 1)) :=
  hgo.expansionTurn hm ((compositeStep_readch_transfer (by omega) hlast).trans (by
    rw [transferStep_read_ok hin hdone hi rfl, ok_bind]
    rfl))

/-- The turn of a step that drives the select pin, a general-purpose output with the device on it. -/
theorem readch_select (hgo : s.Going ms) (hm : ms[n]? = some .host) (hdev : s.params.devicePresent = true) (hsel : s.selfn = .gpio)
    (level : Bool) (hstep : ∀ u, compositeStep ⟨.readch d v ch cmd ⟨tx, rx⟩, k⟩ u =
      .ok ((u.driveSelect level).toStep (.readch d v ch cmd ⟨tx, rx⟩) (k + 1))) :
    Reaches 1 (s.reading d v ch n b dev (!level) cmd tx rx k)
      (s.reading d v ch (n + 1) b (if level = true then .off else .sel 0 none none [] none) level cmd tx rx (k + 1)) := by
  refine hgo.expansionTurn hm ((hstep _).trans (congrArg _ ((driveSelect_toStep ..).trans ?_)))
  have hdriven : State.devDriven (s.during (n + 1) b dev (!level)) level = if level = true then .off else .sel 0 none none [] none :=
    if_pos ⟨hdev, hsel, by simp [State.during]⟩
  rw [hdriven]
  rfl

/-- The first part of a wide reading: encode, select, and write the two words (R144). -/
theorem wide_sends (hgo : s.Going ms) (hm : ∀ i < 7, ms[1 + i]? = some .host) (hin : b.inReset = false) (hdone : b.rstDone = true)
    (hdev : s.params.devicePresent = true) (hsel : s.selfn = .gpio) :
    Reaches 7 (s.reading d .wide ch 1 (b.withFifos [] []) dev true 0 [] [] 1)
      (s.reading d .wide ch 8 (b.withFifos [(wideCommand ch).setWidth 16, (0 : Word).setWidth 16] []) (.sel 0 none none [] none) false
        (wideCommand ch) [wideCommand ch, 0] [] 8) := by
  have hencode : Reaches 2 (s.reading d .wide ch 1 (b.withFifos [] []) dev true 0 [] [] 1)
      (s.reading d .wide ch 3 (b.withFifos [] []) dev true (wideCommand ch) [] [] 3) :=
    Reaches.trans (hgo.expansionTurn (hm 0 (by decide)) rfl) (hgo.expansionTurn (hm 1 (by decide)) rfl)
  have hselect := readch_select (d := d) (v := .wide) (ch := ch) (cmd := wideCommand ch) (tx := []) (rx := []) (b := b.withFifos [] [])
    (dev := dev) (n := 3) (k := 3) hgo (hm 2 (by decide)) hdev hsel false fun _ => rfl
  have hsnapshot : Reaches 2 (s.reading d .wide ch 4 (b.withFifos [] []) (.sel 0 none none [] none) false (wideCommand ch) [] [] 4)
      (s.reading d .wide ch 6 (b.withFifos [] []) (.sel 0 none none [] none) false (wideCommand ch) [wideCommand ch, 0] [] 6) :=
    Reaches.trans (hgo.expansionTurn (hm 3 (by decide)) rfl) (hgo.expansionTurn (hm 4 (by decide)) rfl)
  have hwrites : Reaches 2
      (s.reading d .wide ch 6 (b.withFifos [] []) (.sel 0 none none [] none) false (wideCommand ch) [wideCommand ch, 0] [] 6)
      (s.reading d .wide ch 8 (b.withFifos [(wideCommand ch).setWidth 16, (0 : Word).setWidth 16] []) (.sel 0 none none [] none) false
        (wideCommand ch) [wideCommand ch, 0] [] 8) :=
    Reaches.trans
      (readch_write (v := .wide) (i := 1) (tq := []) hgo (hm 5 (by decide)) hin hdone (by decide) (by decide) (by decide) rfl)
      (readch_write (v := .wide) (i := 2) (tq := [(wideCommand ch).setWidth 16]) hgo (hm 6 (by decide)) hin hdone (by simp) (by decide) (by decide) rfl)
  exact ((hencode.trans hselect).trans hsnapshot).trans hwrites

/-- The second part of a wide reading: read the two words, deselect and decode (R144). -/
theorem wide_receives (hgo : s.Going ms) (hm : ∀ i < 6, ms[i]? = some .host) (hin : b.inReset = false) (hdone : b.rstDone = true)
    (hdev : s.params.devicePresent = true) (hsel : s.selfn = .gpio) (x y : Half) (htx : tx.length = 2) :
    Reaches 6 (s.reading d .wide ch 0 (b.withFifos [] [x, y]) dev false cmd tx [] 8)
      { s.during 6 (b.withFifos [] []) .off true with
        h := s.h.set d (.holds (wideSample (x.setWidth 32) (y.setWidth 32))), pc := s.pc + 1, cursor := none } := by
  have hreads : Reaches 2 (s.reading d .wide ch 0 (b.withFifos [] [x, y]) dev false cmd tx [] 8)
      (s.reading d .wide ch 2 (b.withFifos [] []) dev false cmd tx [x.setWidth 32, y.setWidth 32] 10) :=
    Reaches.trans
      (readch_read (i := 3) hgo (hm 0 (by decide)) hin hdone (by omega) (by decide) x)
      (readch_read (i := 4) hgo (hm 1 (by decide)) hin hdone (by omega) (by decide) y)
  have hdelay : Reaches 1 (s.reading d .wide ch 2 (b.withFifos [] []) dev false cmd tx [x.setWidth 32, y.setWidth 32] 10)
      (s.reading d .wide ch 3 (b.withFifos [] []) dev false cmd tx [x.setWidth 32, y.setWidth 32] 11) :=
    hgo.expansionTurn (hm 2 (by decide)) rfl
  have hdeselect := readch_select (d := d) (v := .wide) (ch := ch) (cmd := cmd) (tx := tx) (rx := [x.setWidth 32, y.setWidth 32])
    (b := b.withFifos [] []) (dev := dev) (n := 3) (k := 11) hgo (hm 3 (by decide)) hdev hsel true fun _ => rfl
  exact ((hreads.trans hdelay).trans hdeselect).trans
    (Reaches.trans (hgo.expansionTurn (hm 4 (by decide)) rfl) (hgo.expansionTurn (hm 5 (by decide)) rfl))

/-- The first part of a narrow reading: encode and write the word (R145). -/
theorem narrow_sends (hgo : s.Going ms) (hm : ∀ i < 3, ms[1 + i]? = some .host) (hin : b.inReset = false) (hdone : b.rstDone = true) :
    Reaches 3 (s.reading d .narrow ch 1 (b.withFifos [] []) dev cs 0 [] [] 1)
      (s.reading d .narrow ch 4 (b.withFifos [(narrowCommand ch).setWidth 16] []) dev cs (narrowCommand ch) [narrowCommand ch] [] 4) := by
  have hencode : Reaches 2 (s.reading d .narrow ch 1 (b.withFifos [] []) dev cs 0 [] [] 1)
      (s.reading d .narrow ch 3 (b.withFifos [] []) dev cs (narrowCommand ch) [narrowCommand ch] [] 3) :=
    Reaches.trans (hgo.expansionTurn (hm 0 (by decide)) rfl) (hgo.expansionTurn (hm 1 (by decide)) rfl)
  exact hencode.trans (readch_write (v := .narrow) (i := 1) (tq := []) hgo (hm 2 (by decide)) hin hdone (by decide) (by decide)
    (by decide) rfl)

/-- The second part of a narrow reading: read the word and decode (R145). -/
theorem narrow_receives (hgo : s.Going ms) (hm : ∀ i < 2, ms[i]? = some .host) (hin : b.inReset = false) (hdone : b.rstDone = true)
    (x : Half) (htx : tx.length = 1) :
    Reaches 2 (s.reading d .narrow ch 0 (b.withFifos [] [x]) dev cs cmd tx [] 4)
      { s.during 2 (b.withFifos [] []) dev cs with
        h := s.h.set d (.holds (narrowSample (x.setWidth 32))), pc := s.pc + 1, cursor := none } :=
  (readch_read (v := .narrow) (i := 2) hgo (hm 0 (by decide)) hin hdone (by omega) (by decide) x).trans
    (hgo.expansionTurn (hm 1 (by decide)) rfl)

end

/-! ### The runs -/

/-- Settles O42: the command and the two words are sent, the device replies, and the two words received are decoded. -/
theorem readchWideReturnsConversion : Obligations.ReadchWideReturnsConversion := by
  intro s d a ch ms ws hready hdec ha hsend hlbm hdss hfrf hspo hsph htx hrx hdev hsel hcs
  have ⟨hin, hdone, _⟩ := hsend
  have hgo := hready.going
  have hempty := withFifos_of_empty htx hrx
  have hexec := exec_readch (s := s.afterTurn) (d := d) ha (by simp [hin, hdone])
  rw [if_pos ⟨hdss, hfrf⟩] at hexec
  have hstart := hready.startTurn hdec hexec
  rw [← hempty, hcs] at hstart
  have hsends := wide_sends (d := d) (ch := ch) (dev := s.dev) hgo (fun i hi => by interval_cases i <;> rfl) hin hdone hdev hsel
  obtain ⟨v, x, dev, env, hconv, hsched, hframes⟩ := State.SendsWide.frames (b := s.block)
    (u := s.reading d .wide ch 8 (s.block.withFifos [(wideCommand ch).setWidth 16, (0 : Word).setWidth 16] []) (.sel 0 none none [] none)
      false (wideCommand ch) [wideCommand ch, 0] [] 8)
    ⟨hsend, hlbm, hdss, hfrf, hspo.trans hsph.symm, hdev, hsel⟩ (hgo.expansion rfl _ _) rfl rfl
  have hgo' : State.Going { s with env := env } (hosts 6 ++ ms) := ⟨hgo.faults, hgo.checked, hgo.halted, hsched⟩
  have hreceives := wide_receives (d := d) (ch := ch) (b := s.block) (dev := dev) (cmd := wideCommand ch) (tx := [wideCommand ch, 0]) hgo'
    (fun i hi => by interval_cases i <;> rfl) hin hdone hdev hsel
    ((x.setWidth 16 <<< 3) ||| (v.extractLsb' 10 2).setWidth 16) (BitVec.ofNat 16 (v.toNat % 2 ^ 10)) rfl
  rw [wideSample_reply, hempty, ← hcs] at hreceives
  have hrun := ((hstart.trans hsends).trans hframes).trans hreceives
  obtain ⟨-, -, -, hcur, -⟩ := hready
  rw [hcur]
  exact ⟨v, _, converts_of_samples rfl hconv, hrun⟩

/-- Settles O43: the command is sent, the device replies in the same frame, and the word received is decoded. -/
theorem readchNarrowReturnsConversion : Obligations.ReadchNarrowReturnsConversion := by
  intro s d a ch ms ws hready hdec ha hsend hlbm hdss hfrf htx hrx hdev hsel
  have ⟨hin, hdone, _⟩ := hsend
  have hgo := hready.going
  have hempty := withFifos_of_empty htx hrx
  have hexec := exec_readch (s := s.afterTurn) (d := d) ha (by simp [hin, hdone])
  rw [if_neg fun h => absurd (hdss.symm.trans h.1) (by decide), if_pos ⟨hdss, .inr hfrf⟩] at hexec
  have hstart := hready.startTurn hdec hexec
  rw [← hempty] at hstart
  have hsends := narrow_sends (d := d) (ch := ch) (dev := s.dev) (cs := s.gpioCs) hgo (fun i hi => by interval_cases i <;> rfl) hin hdone
  obtain ⟨v, env, hconv, hsched, hframe⟩ := narrow_frame (b := s.block) (ch := ch)
    (u := s.reading d .narrow ch 4 (s.block.withFifos [(narrowCommand ch).setWidth 16] []) s.dev s.gpioCs (narrowCommand ch)
      [narrowCommand ch] [] 4) hsend hlbm hdss hfrf (hgo.expansion rfl _ _) rfl hdev hsel
  have hgo' : State.Going { s with env := env } (hosts 2 ++ ms) := ⟨hgo.faults, hgo.checked, hgo.halted, hsched⟩
  have hreceives := narrow_receives (d := d) (ch := ch) (b := s.block) (dev := .off) (cs := s.gpioCs) (cmd := narrowCommand ch)
    (tx := [narrowCommand ch]) hgo' (fun i hi => by interval_cases i <;> rfl) hin hdone (v.setWidth 16) rfl
  rw [narrowSample_reply, hempty] at hreceives
  have hrun := ((hstart.trans hsends).trans (reaches_of_step hframe)).trans hreceives
  obtain ⟨-, -, -, hcur, -⟩ := hready
  rw [hcur]
  exact ⟨v, _, converts_of_samples rfl hconv, hrun⟩

end Sys2Proof.Machine
end

section
/-! The machine after a fault and before its first step (60_exceptions.md R162, R177), and the device's reply edge by edge (R166). -/

namespace Sys2Proof.Machine

/-- Settles O11: the turn answers with the first record, and a run with a record has not ended well. -/
theorem faultStopsMachine : Obligations.FaultStopsMachine := by
  intro s hfaults
  obtain ⟨r, rs, hcons⟩ := List.exists_cons_of_ne_nil hfaults
  have hstep : step s = .fault (.stopped r) := by simp only [step, State.turn, hcons]
  exact ⟨⟨r, hcons ▸ List.mem_cons_self, hstep⟩, by simp [State.endedWell, hcons]⟩

/-! ### The load check -/

theorem step_of_unchecked {s : State} (hf : s.faults = []) (hc : s.checked = false) : step s = .next s.loadCheck := by
  simp [step, State.turn, hf, hc]

/-- What the load check finds in a program is its first word that breaks the settling. -/
theorem scanSelect_eq_some_iff {p : Params} {prog : List Word} {k : Nat} :
    scanSelect p false false 0 prog = some k ↔ BreaksSettling p prog k ∧ ∀ j < k, ¬ BreaksSettling p prog j := by
  have hspec := scanSelect_spec p prog prog 0 false rfl (by simp)
  rw [isImmediate] at hspec
  split at hspec
  case h_1 hnone =>
    simp only [hnone, reduceCtorEq, false_iff]
    exact fun ⟨hk, _⟩ => hspec k k.zero_le hk
  case h_2 i hsome =>
    obtain ⟨-, hi, hbefore⟩ := hspec
    rw [hsome, Option.some.injEq]
    constructor
    · rintro rfl
      exact ⟨hi, fun j => hbefore j j.zero_le⟩
    · rintro ⟨hk, hfirst⟩
      exact Nat.le_antisymm (Nat.le_of_not_lt fun h => hbefore k k.zero_le h hk) (Nat.le_of_not_lt fun h => hfirst i h hi)

theorem scanSelect_eq_none {p : Params} {prog : List Word} (h : ∀ k, ¬ BreaksSettling p prog k) :
    scanSelect p false false 0 prog = none :=
  Option.eq_none_iff_forall_ne_some.mpr fun k hk => h k (scanSelect_eq_some_iff.mp hk).1

/-- Settles O12: the first step is the load check, which names the index its scan finds. -/
theorem selectTimingRefused : Obligations.SelectTimingRefused := by
  intro s hf hc
  rw [step_of_unchecked hf hc]
  refine ⟨fun k hk hfirst => ?_, fun hnone => ?_⟩
  · simp only [State.loadCheck, scanSelect_eq_some_iff.mpr ⟨hk, hfirst⟩, hf, List.nil_append]
  · simp only [State.loadCheck, scanSelect_eq_none hnone]

/-! ### The reply -/

/-- Settles O51: the edge of the null bit and the edges of the value's bits. -/
theorem deviceOutputsConversion : Obligations.DeviceOutputsConversion := by
  intro k0 v e sgl dch x
  refine ⟨?_, fun j hj => ?_⟩
  · rw [edge_null rfl]
  · rw [edge_value rfl hj]

end Sys2Proof.Machine
end

section
/-! The device and the select line along every step (60_exceptions.md R163, R165, R168, R169). In a host or ResetCtl step the device
follows the line; a frame leaves the line between frames at its level, and the device in agreement with it. -/

namespace Sys2Proof.Machine

/-! ### Agreement -/

/-- The device agrees with a level of the select line: no tracked position while it is high, not off while it is low. -/
def Dev.AgreesWith (d : Dev) (cs : Bool) : Prop := (cs = true → d.isSel = false) ∧ (cs = false → d ≠ .off)

theorem State.devInv_iff (s : State) : s.DevInv ↔ (s.params.devicePresent = true → s.dev.AgreesWith s.deviceCs) := Iff.rfl

theorem Dev.unknown_agreesWith (cs : Bool) : Dev.unknown.AgreesWith cs := ⟨fun _ => rfl, nofun⟩

theorem Dev.off_agreesWith_high : Dev.off.AgreesWith true := ⟨fun _ => rfl, nofun⟩

/-- A device with a tracked position agrees with the low level only. -/
theorem Dev.agreesWith_iff_of_isSel {d : Dev} (h : d.isSel = true) (cs : Bool) : d.AgreesWith cs ↔ cs = false := by
  have hne : d ≠ .off := by rintro rfl; cases h
  cases cs <;> simp [Dev.AgreesWith, h, hne]

/-- The device that has followed the line to a level agrees with it. -/
theorem State.devAt_agreesWith {s : State} (hp : s.params.devicePresent = true) (h : s.dev.AgreesWith s.deviceCs) (cs : Bool) :
    (s.devAt cs).AgreesWith cs := by
  unfold State.devAt
  rw [if_neg (by simp [hp])]
  split
  case isTrue hfall => rw [Dev.agreesWith_iff_of_isSel rfl]; exact hfall.2
  case isFalse hfall =>
    split
    case isTrue hrise => rw [hrise.2]; exact Dev.off_agreesWith_high
    case isFalse hrise =>
      have hsame : cs = s.deviceCs := by cases cs <;> simp_all
      exact hsame ▸ h

/-! ### Effects in which the device follows the line -/

/-- Of the device, `t` differs from `s` only in what the select line's move from one to the other does to it (R165). -/
def FollowsSelect (s t : State) : Prop := t.dev = s.devAt t.deviceCs

theorem FollowsSelect.devInv {s t : State} (h : FollowsSelect s t) (hp : t.params = s.params) (hs : s.DevInv) : t.DevInv := by
  intro hpresent
  rw [hp] at hpresent
  rw [h]
  exact State.devAt_agreesWith hpresent (hs hpresent) t.deviceCs

theorem followsSelect_of_eq {s t : State} (hdev : t.dev = s.dev) (hcs : t.deviceCs = s.deviceCs) : FollowsSelect s t := by
  rw [FollowsSelect, hcs, State.devAt_same, hdev]

theorem FollowsSelect.rfl {s : State} : FollowsSelect s s := followsSelect_of_eq (.refl _) (.refl _)

theorem FollowsSelect.advance {s t : State} (h : FollowsSelect s t) (n : Nat) : FollowsSelect s (t.advance n) := h

theorem FollowsSelect.setH {s t : State} (h : FollowsSelect s t) (i : HIdx) (v : Word) : FollowsSelect s (t.setH i v) := h

theorem FollowsSelect.toStep {s t : State} (h : FollowsSelect s t) (o : Composite) (k : Nat) : FollowsSelect s (t.toStep o k) := h

theorem FollowsSelect.endComposite {s t : State} (h : FollowsSelect s t) : FollowsSelect s t.endComposite := h

/-- Settling the line moves no line. -/
theorem settleSelect_deviceCs (s t : State) : (s.settleSelect t).deviceCs = t.deviceCs := by
  simp only [State.deviceCs, State.settleSelect_selfn, State.settleSelect_gpioCs, State.settleSelect_block]

theorem settleSelect_followsSelect {s t : State} (hdev : t.dev = s.dev) (hp : t.params = s.params) :
    FollowsSelect s (s.settleSelect t) := by
  rw [FollowsSelect, settleSelect_deviceCs, State.settleSelect_dev s t hdev hp]

theorem driveSelect_followsSelect (s : State) (level : Bool) : FollowsSelect s (s.driveSelect level) :=
  settleSelect_followsSelect rfl rfl

theorem setSelfn_followsSelect (s : State) (f : SelFn) : FollowsSelect s (s.setSelfn f) :=
  settleSelect_followsSelect rfl rfl

theorem assertReset_followsSelect (s : State) : FollowsSelect s s.assertReset :=
  settleSelect_followsSelect rfl rfl

theorem releaseReset_followsSelect (s : State) : FollowsSelect s s.releaseReset :=
  settleSelect_followsSelect rfl rfl

theorem resetCtlStep_followsSelect (s : State) : FollowsSelect s s.resetCtlStep := by
  unfold State.resetCtlStep
  split
  · exact settleSelect_followsSelect rfl rfl
  · exact .rfl

/-! ### Register accesses -/

theorem regRead_followsSelect (s : State) (r : Reg) : FollowsSelect s (s.regRead r).2 := by
  unfold State.regRead
  split
  · unfold State.readData; split <;> exact followsSelect_of_eq rfl rfl
  · unfold State.readPlain; split <;> exact followsSelect_of_eq rfl rfl

/-- Only SSPCR0 and SSPCR1 move the line, and after a write of either the device is settled. -/
theorem regWrite_followsSelect {s t : State} {r : Reg} {v : Word} (h : s.regWrite r v = .ok t) : FollowsSelect s t := by
  cases r <;> simp only [State.regWrite] at h
  case cr0 | cr1 => split at h <;> cases h; exact settleSelect_followsSelect rfl rfl
  case dr | cpsr => split at h <;> cases h; exact followsSelect_of_eq rfl rfl
  case imsc | icr | dmacr => cases h; exact followsSelect_of_eq rfl rfl
  all_goals cases h

theorem readEffect_followsSelect {s : State} {off : Offset} {p : Word × State} (h : s.readEffect off = .ok p) :
    FollowsSelect s p.2 := by
  obtain ⟨r, -, h⟩ := bind_ok h
  cases h; exact regRead_followsSelect s r

theorem maskedReadEffect_followsSelect {s : State} {off : Offset} {m : Word} {p : Word × State}
    (h : s.maskedReadEffect off m = .ok p) : FollowsSelect s p.2 := by
  obtain ⟨r, -, h⟩ := bind_ok h
  cases h; exact regRead_followsSelect s r

theorem writeEffect_followsSelect {s t : State} {off : Offset} {v : Word} (h : s.writeEffect off v = .ok t) :
    FollowsSelect s t := by
  obtain ⟨r, -, h⟩ := bind_ok h
  exact regWrite_followsSelect h

theorem maskedWriteEffect_followsSelect {s t : State} {off : Offset} {v m : Word} (h : s.maskedWriteEffect off v m = .ok t) :
    FollowsSelect s t := by
  obtain ⟨r, -, h⟩ := bind_ok h
  exact regWrite_followsSelect h

/-! ### The steps of an expansion -/

theorem transferStep_followsSelect {t : XferTemps} {s : State} {k : Nat} {p : XferTemps × State}
    (h : transferStep t s k = .ok p) : FollowsSelect s p.2 := by
  unfold transferStep at h
  split at h
  · obtain ⟨u, hu, h⟩ := bind_ok h
    cases h; exact writeEffect_followsSelect hu
  · split at h
    · cases h
    · obtain ⟨u, hu, h⟩ := bind_ok h
      cases h; exact readEffect_followsSelect hu

theorem configStep_followsSelect {d : HIdx} {mode : BitVec 2} {wid : BitVec 5} {t : ConfigTemps} {k : Nat} {s u : State}
    (h : configStep d mode wid t s k = .ok u) : FollowsSelect s u := by
  unfold configStep at h
  split at h
  case h_1 => cases h; exact (assertReset_followsSelect s).toStep _ _
  case h_2 => cases h; exact (releaseReset_followsSelect s).toStep _ _
  case h_3 => split at h <;> cases h; exact FollowsSelect.rfl.toStep _ _
  case h_4 =>
    obtain ⟨v, hv, rfl⟩ := thenStep_ok h
    exact (writeEffect_followsSelect hv).toStep _ _
  case h_5 | h_6 | h_7 | h_8 | h_9 =>
    obtain ⟨v, hv, rfl⟩ := thenStep_ok h
    exact (maskedWriteEffect_followsSelect hv).toStep _ _
  case h_10 =>
    obtain ⟨v, hv, h⟩ := bind_ok h
    cases h; exact ((maskedWriteEffect_followsSelect hv).setH _ _).endComposite
  case h_11 => cases h

theorem xferStep_followsSelect {d : HIdx} {t : XferTemps} {k : Nat} {s u : State} (h : xferStep d t s k = .ok u) :
    FollowsSelect s u := by
  obtain ⟨⟨t1, v⟩, hv, h⟩ := bind_ok h
  have hfollows : FollowsSelect s v := transferStep_followsSelect hv
  dsimp only at h
  split at h <;> cases h
  · exact FollowsSelect.endComposite (t := { v with h := setRange v.h d.val t1.rx }) hfollows
  · exact hfollows.toStep _ _

theorem readchTransfer_followsSelect {d : HIdx} {var : CodecVariant} {ch cmd : Word} {t : XferTemps} {base k : Nat} {s u : State}
    (h : readchTransfer d var ch cmd t base s k = .ok u) : FollowsSelect s u := by
  obtain ⟨p, hp, h⟩ := bind_ok h
  cases h; exact (transferStep_followsSelect hp).toStep _ _

theorem readchWideStep_followsSelect {d : HIdx} {ch cmd : Word} {t : XferTemps} {k : Nat} {s u : State}
    (h : readchWideStep d ch cmd t s k = .ok u) : FollowsSelect s u := by
  unfold readchWideStep at h
  split at h
  case h_1 | h_2 | h_4 | h_5 | h_10 | h_12 => cases h; exact FollowsSelect.rfl.toStep _ _
  case h_3 | h_11 => cases h; exact (driveSelect_followsSelect s _).toStep _ _
  case h_6 | h_7 | h_8 | h_9 => exact readchTransfer_followsSelect h
  case h_13 => cases h; exact (FollowsSelect.rfl.setH d _).endComposite
  case h_14 => cases h

theorem readchNarrowStep_followsSelect {d : HIdx} {ch cmd : Word} {t : XferTemps} {k : Nat} {s u : State}
    (h : readchNarrowStep d ch cmd t s k = .ok u) : FollowsSelect s u := by
  unfold readchNarrowStep at h
  split at h
  case h_1 | h_2 => cases h; exact FollowsSelect.rfl.toStep _ _
  case h_3 | h_4 => exact readchTransfer_followsSelect h
  case h_5 => cases h; exact (FollowsSelect.rfl.setH d _).endComposite
  case h_6 => cases h

theorem compositeStep_followsSelect {c : Cursor} {s u : State} (h : compositeStep c s = .ok u) : FollowsSelect s u := by
  obtain ⟨op, k⟩ := c
  cases op with
  | config => exact configStep_followsSelect h
  | xfer => exact xferStep_followsSelect h
  | readch d var ch cmd t =>
    cases var with
    | wide => exact readchWideStep_followsSelect h
    | narrow => exact readchNarrowStep_followsSelect h

theorem configStart_followsSelect {d a : HIdx} {bus mode : BitVec 2} {ord : BitOrder} {wid : BitVec 5} {s u : State}
    (h : configStart d a bus mode ord wid s = .ok u) : FollowsSelect s u := by
  obtain ⟨b, -, h⟩ := bind_ok h
  obtain ⟨r, -, h⟩ := bind_ok h
  cases h; exact FollowsSelect.rfl.toStep _ _

theorem xferStart_followsSelect {d a : HIdx} {n : BitVec 4} {s u : State} (h : xferStart d a n s = .ok u) :
    FollowsSelect s u := by
  unfold xferStart at h
  split at h
  · obtain ⟨tx, -, h⟩ := bind_ok h
    cases h; exact FollowsSelect.rfl.toStep _ _
  · cases h

theorem readchStart_followsSelect {d a : HIdx} {s u : State} (h : readchStart d a s = .ok u) : FollowsSelect s u := by
  obtain ⟨ch, -, h⟩ := bind_ok h
  split at h
  · cases h
  · split at h <;> cases h
    exact FollowsSelect.rfl.toStep _ _

/-! ### The host's step -/

theorem finish_followsSelect {s t : State} {e : Eff State} (he : ∀ u, e = .ok u → FollowsSelect s u)
    (h : finish s e = .next t) : FollowsSelect s t := by
  obtain h | ⟨-, rfl⟩ | ⟨k, -, rfl⟩ := finish_next h
  · exact he t h
  · exact .rfl
  · exact followsSelect_of_eq rfl rfl

theorem exec_followsSelect {i : Instr} {s t : State} (hhost : i.isHostOp = true) (h : exec i s = .next t) :
    FollowsSelect s t := by
  cases i
  case mcpCmdWide | mcpCmdNarrow => cases hhost
  case config => exact finish_followsSelect (fun _ => configStart_followsSelect) h
  case xfer => exact finish_followsSelect (fun _ => xferStart_followsSelect) h
  case readch => exact finish_followsSelect (fun _ => readchStart_followsSelect) h
  case li => cases h; exact (FollowsSelect.rfl.setH _ _).advance 2
  case rsta => cases h; exact (assertReset_followsSelect s).advance 1
  case rstr => cases h; exact (releaseReset_followsSelect s).advance 1
  case sell | selh => cases h; exact (driveSelect_followsSelect s _).advance 1
  case selfn => cases h; exact (setSelfn_followsSelect s _).advance 1
  case delay => cases h; exact FollowsSelect.rfl.advance 1
  case halt => cases h; exact followsSelect_of_eq rfl rfl
  all_goals refine finish_followsSelect (fun u hu => ?_) h
  case rd =>
    obtain ⟨p, hp, hu⟩ := bind_ok hu
    cases hu; exact ((readEffect_followsSelect hp).setH _ _).advance 1
  case wr =>
    obtain ⟨v, -, hu⟩ := bind_ok hu
    obtain ⟨p, hp, hu⟩ := bind_ok hu
    cases hu; exact (writeEffect_followsSelect hp).advance 1
  case rdm =>
    obtain ⟨m, -, hu⟩ := bind_ok hu
    obtain ⟨p, hp, hu⟩ := bind_ok hu
    cases hu; exact ((maskedReadEffect_followsSelect hp).setH _ _).advance 1
  case wrm =>
    obtain ⟨vm, -, hu⟩ := bind_ok hu
    obtain ⟨p, hp, hu⟩ := bind_ok hu
    cases hu; exact (maskedWriteEffect_followsSelect hp).advance 1
  case wait =>
    obtain ⟨vm, -, hu⟩ := bind_ok hu
    obtain ⟨p, hp, hu⟩ := bind_ok hu
    dsimp only at hu
    split at hu <;> cases hu
    exact (maskedReadEffect_followsSelect hp).advance 1
  case rstw => split at hu <;> cases hu; exact FollowsSelect.rfl.advance 1
  case encw | encn | decn | decw =>
    obtain ⟨v, -, hu⟩ := bind_ok hu
    cases hu; exact (FollowsSelect.rfl.setH _ _).advance 1

theorem hostStep_followsSelect {s t : State} (h : s.hostStep = .next t) : FollowsSelect s t := by
  unfold State.hostStep at h
  split at h
  · cases h; exact .rfl
  · split at h
    · exact finish_followsSelect (fun _ => compositeStep_followsSelect) h
    · split at h
      · cases h; exact followsSelect_of_eq rfl rfl
      · exact exec_followsSelect (fetch_isHostOp ‹_›) h

theorem timeoutStep_followsSelect (s : State) : FollowsSelect s s.timeoutStep := by
  unfold State.timeoutStep
  split <;> exact followsSelect_of_eq rfl rfl

theorem timeoutClearStep_followsSelect (s : State) : FollowsSelect s s.timeoutClearStep := by
  unfold State.timeoutClearStep
  split <;> exact followsSelect_of_eq rfl rfl

theorem loadCheck_followsSelect (s : State) : FollowsSelect s s.loadCheck := by
  unfold State.loadCheck
  split <;> exact followsSelect_of_eq rfl rfl

/-! ### A frame -/

theorem latchBit_isSel (k : Nat) (x : Bool) (s : Option Nat) (m : Option Bool) (ds : List Bool) (v : Option (BitVec 12)) (e : Env) :
    (latchBit k x s m ds v e).1.isSel = true := by
  unfold latchBit
  cases s with
  | none => rfl
  | some s0 => dsimp only; split_ifs <;> rfl

/-- An edge keeps a device's agreement: it is tracked afterwards if it was before, and otherwise left as it was. -/
theorem Dev.AgreesWith.edge {d : Dev} {cs : Bool} (h : d.AgreesWith cs) (x : Bool) (e : Env) : (d.edge x e).2.1.AgreesWith cs := by
  cases d with
  | off => exact h
  | unknown => exact h
  | sel k s m ds v =>
    have htracked : ((Dev.sel k s m ds v).edge x e).2.1.isSel = true := latchBit_isSel _ _ _ _ _ _ _
    rw [Dev.agreesWith_iff_of_isSel htracked]
    exact (Dev.agreesWith_iff_of_isSel rfl cs).mp h

theorem Dev.AgreesWith.edges {d : Dev} {cs : Bool} (h : d.AgreesWith cs) (e : Env) (xs : List Bool) :
    (d.edges e xs).2.1.AgreesWith cs := by
  induction xs generalizing d e with
  | nil => exact h
  | cons x xs ih => exact ih (h.edge x e) _

theorem Dev.AgreesWith.blur {d : Dev} {cs : Bool} (h : d.AgreesWith cs) : d.blur.AgreesWith cs := by
  cases d with
  | off => exact h
  | unknown => exact h
  | sel => exact Dev.unknown_agreesWith cs

/-- With the hardware select line a frame finds the device selected or unknown, so an unclean one leaves it unknown. -/
theorem devBefore_blur {s : State} (hfn : s.selfn = .periph) : s.devBefore.blur = .unknown := by
  simp only [State.devBefore, hfn]
  split <;> rfl

/-- The block holds its line low in the TI format only. -/
theorem Block.fssIdle_of_frf {b : Block} (h : b.frf ≠ 1) : b.fssIdle = true := by
  by_contra hlow
  obtain ⟨-, -, -, hti⟩ := b.fssIdle_eq_false_iff.mp (Bool.not_eq_true _ ▸ hlow)
  exact h hti

/-- With the hardware select line a frame leaves a device in agreement with it: what TI would leave as it was is unknown. -/
theorem devAfter_agreesWith {s : State} (hfn : s.selfn = .periph) {d : Dev} (hd : d = .unknown ∨ s.block.frf = 0 ∨ s.block.frf = 2) :
    (s.devAfter d).AgreesWith s.deviceCs := by
  have high (h : s.block.frf ≠ 1) : s.deviceCs = true := by
    simp only [State.deviceCs, hfn, Block.fssIdle_of_frf h]
  simp only [State.devAfter, hfn]
  split
  case isTrue h0 =>
    split
    · exact Dev.unknown_agreesWith _
    · rw [high (by rw [h0]; decide)]; exact Dev.off_agreesWith_high
  case isFalse h0 =>
    split
    case isTrue h2 => rw [high (by rw [h2]; decide)]; exact Dev.off_agreesWith_high
    case isFalse h2 =>
      obtain rfl : d = .unknown := hd.resolve_right fun h => h.elim h0 h2
      exact Dev.unknown_agreesWith _

/-- A clean frame is a Motorola or a Microwire frame: TI samples on falling edges (R168). -/
theorem frf_of_cleanFrame {b : Block} (h : b.cleanFrame = true) : b.frf = 0 ∨ b.frf = 2 := by
  simp only [Block.cleanFrame, Block.samplesRising, Bool.or_eq_true, Bool.and_eq_true, beq_iff_eq] at h
  exact h.imp And.left id

theorem wireFrame_agreesWith {s : State} (hp : s.params.devicePresent = true) (h : s.dev.AgreesWith s.deviceCs) (mosi : List Bool) :
    (s.wireFrame mosi).2.1.AgreesWith s.deviceCs := by
  unfold State.wireFrame
  rw [if_neg (by simp [hp])]
  cases hfn : s.selfn with
  | gpio =>
    simp only [State.devBefore, State.devAfter, hfn]
    split
    · exact h.edges s.env mosi
    · exact h.blur
  | periph =>
    split
    case isTrue hclean => exact devAfter_agreesWith hfn (.inr (frf_of_cleanFrame hclean))
    case isFalse => exact devAfter_agreesWith hfn (.inl (devBefore_blur hfn))

/-- A frame sent leaves the line between frames at its level. -/
theorem sendFrame_deviceCs (s : State) (hd : Half) : (s.sendFrame hd).deviceCs = s.deviceCs := by
  obtain ⟨r, dev, env, hsend⟩ := sendFrame_eq s hd
  obtain ⟨rxq, ror, hreceive⟩ := receive_writes s.block r
  rw [hsend, hreceive]; rfl

theorem sendFrame_devInv {s : State} (hs : s.DevInv) (hd : Half) : (s.sendFrame hd).DevInv := by
  rw [State.devInv_iff, sendFrame_deviceCs]
  exact fun hp => wireFrame_agreesWith (s := s) hp (hs hp) (s.block.frameBits hd)

theorem frameStep_devInv {s : State} (hs : s.DevInv) : s.frameStep.DevInv := by
  obtain heq | ⟨r, -, heq⟩ | ⟨hd, rest, -, -, -, -, heq⟩ := frameStep_cases s <;> rw [heq]
  · exact hs
  · exact hs
  · exact sendFrame_devInv (s := { s with block := { s.block with txq := rest } }) hs hd

/-! ### Every step -/

theorem moverStep_devInv {s t : State} {m : Mover} (hs : s.DevInv) (h : s.moverStep m = .next t) : t.DevInv := by
  have hp := (moverStep_keepsRecord h).params
  cases m with
  | host => exact (hostStep_followsSelect h).devInv hp hs
  | resetCtl => cases h; exact (resetCtlStep_followsSelect s).devInv hp hs
  | engineFrame => cases h; exact frameStep_devInv hs
  | engineTimeout => cases h; exact (timeoutStep_followsSelect s).devInv hp hs
  | engineTimeoutClear => cases h; exact (timeoutClearStep_followsSelect s).devInv hp hs

/-- Settles O56: the device follows the line in every step but a frame, which keeps it in agreement with the line. -/
theorem stepKeepsDeviceInvariant : Obligations.StepKeepsDeviceInvariant := by
  intro s t hs h
  have hf := (step_next h).1
  cases hc : s.checked with
  | true =>
    rw [step_eq_moverStep hf hc] at h
    exact moverStep_devInv (s := s.afterTurn) hs h
  | false =>
    rw [step_of_unchecked hf hc] at h
    cases h
    exact (loadCheck_followsSelect s).devInv (loadCheck_keepsRecord s).params hs

end Sys2Proof.Machine
end
